-- ==== Sys2Proof/Word.lean ====
section
/-! DEFINITION. The two data widths of the machine (00_scope.md R7, R9). -/

namespace Sys2Proof

/-- A register, an address or an instruction word: 16 bits, unsigned, arithmetic modulo 2^16 (R7, R9). -/
abbrev Word := BitVec 16

/-- A byte: 8 bits (R7). -/
abbrev Byte := BitVec 8

end Sys2Proof
end

