-- ==== Sys2Proof/Config.lean ====
section
/-! DEFINITION. The implementation parameters of 00_scope.md R7 that are constants of the machine. The value of
MISALIGNED_WORD that the machine runs with stands in Machine/Ops.lean. -/

namespace Sys2Proof.Config

/-- MEM_BYTES, the number of bytes of each memory bank (R7, 20_memory.md R61). -/
def memBytes : Nat := 65536

/-- BRANCH_CORRECTION, in bytes (R7, 41_branch.md R181). -/
def branchCorrection : Word := 2#16

/-- MISALIGNED_WORD, what a word access at an odd address does (R7, 20_memory.md R65). -/
inductive MisalignedWord where
  /-- bit 0 of the address is ignored: the spec's choice -/
  | truncate
  /-- the machine stops with a named fault: the alternative the spec allows a model -/
  | fault
  deriving DecidableEq, Repr

end Sys2Proof.Config
end

