-- ==== Sys2Proof/Syntax.lean ====
section
/-! DEFINITION. The instruction set as syntax: one constructor of `Instr` per row of spec/opcode_table.json.
A value of `Instr` is the operand record DEC of 00_scope.md R11 with exactly the fields its format defines
(30_encoding.md R92 to R103, R105 to R109). -/

namespace Sys2Proof

/-- A register number, 0 to 7, within either bank (10_state.md R20, R21). R4 is BP, R5 is LR, R6 is SP, R7 is PC. -/
inductive Reg where
  | r0 | r1 | r2 | r3 | r4 | r5 | r6 | r7
  deriving DecidableEq, Repr

/-- The `wb` field: the width of an operation (00_scope.md R12; 30_encoding.md R92). -/
inductive Width where
  | word | byte
  deriving DecidableEq, Repr

/-- W, the number of bits of an operation of this width (00_scope.md R12). -/
abbrev Width.bits : Width → Nat
  | .word => 16
  | .byte => 8

/-- The source operand of format A, the fields `rc` and `src` (00_scope.md R12; 30_encoding.md R95, R109). -/
inductive Source where
  /-- `rc = 0`: a register of bank 0 -/
  | reg (r : Reg)
  /-- `rc = 1`: a constant of bank 1 -/
  | const (k : Reg)
  deriving DecidableEq, Repr

/-- The sixteen condition codes of CEX, in the order of their numbers 0 to 15 (45_cex.md R272). -/
inductive Cond where
  | eq | ne | cs | cc | mi | pl | vs | vc | hi | ls | ge | lt | gt | le | tr | fl
  deriving DecidableEq, Repr

/-- The instructions. `off` is the 16-bit `DEC.off`: for a branch the displacement less the pipeline correction
(30_encoding.md R105), for a relative load or store the byte offset (R106). `imm` is the 8-bit `DEC.imm`
(R107; 44_status.md R260). -/
inductive Instr where
  | nop
  | bl (off : Word)
  | beq (off : Word)
  | bne (off : Word)
  | bc (off : Word)
  | bnc (off : Word)
  | bn (off : Word)
  | bge (off : Word)
  | blt (off : Word)
  | bra (off : Word)
  | add (src : Source) (wb : Width) (dst : Reg)
  | addc (src : Source) (wb : Width) (dst : Reg)
  | sub (src : Source) (wb : Width) (dst : Reg)
  | subc (src : Source) (wb : Width) (dst : Reg)
  | dadd (src : Source) (wb : Width) (dst : Reg)
  | cmp (src : Source) (wb : Width) (dst : Reg)
  | xor (src : Source) (wb : Width) (dst : Reg)
  | and (src : Source) (wb : Width) (dst : Reg)
  | or (src : Source) (wb : Width) (dst : Reg)
  | bit (src : Source) (wb : Width) (dst : Reg)
  | bic (src : Source) (wb : Width) (dst : Reg)
  | bis (src : Source) (wb : Width) (dst : Reg)
  | mov (wb : Width) (src dst : Reg)
  | swap (src dst : Reg)
  | sra (wb : Width) (dst : Reg)
  | rrc (wb : Width) (dst : Reg)
  | swpb (dst : Reg)
  | sxt (dst : Reg)
  | setcc (imm : Byte)
  | clrcc (imm : Byte)
  | cex (cc : Cond) (tc fc : BitVec 3)
  | ld (prpo dec inc : Bool) (wb : Width) (src dst : Reg)
  | st (prpo dec inc : Bool) (wb : Width) (src dst : Reg)
  | movl (imm : Byte) (dst : Reg)
  | movlz (imm : Byte) (dst : Reg)
  | movls (imm : Byte) (dst : Reg)
  | movh (imm : Byte) (dst : Reg)
  | ldr (off : Word) (wb : Width) (src dst : Reg)
  | str (off : Word) (wb : Width) (src dst : Reg)
  /-- INVALID, high byte 0x4D, bit 7 clear, FN = 010 (30_encoding.md R111) -/
  | invalidFn2
  /-- INVALID, high byte 0x4D, bit 7 clear, FN = 101 (R111) -/
  | invalidFn5
  /-- INVALID, high byte 0x4D, bit 7 clear, FN = 110 (R111) -/
  | invalidFn6
  /-- INVALID, high byte 0x4D, bit 7 clear, FN = 111 (R111) -/
  | invalidFn7
  /-- INVALID, high byte 0x4D, SEL = 100 (R111) -/
  | invalidSel4
  /-- INVALID, high byte 0x4D, SEL = 111 (R111) -/
  | invalidSel7
  /-- INVALID, high byte 0x4E or 0x4F (R111) -/
  | invalidHigh4E
  /-- INVALID, high byte 0x54 to 0x57 (R111) -/
  | invalidHigh54
  deriving DecidableEq, Repr

end Sys2Proof
end

