-- ==== Sys2Proof/WellFormed.lean ====
section
/-! DEFINITION. Which values of `Instr` some instruction word stands for: the ranges of the fields that the operand
record holds wider than the word does. -/

namespace Sys2Proof

/-- `DEC.off` of a branch is `disp - 2` with `disp` even and between `lo` and `hi` bytes (30_encoding.md R105). -/
abbrev branchRange (lo hi : Int) (off : Word) : Prop :=
  let disp := (off + Config.branchCorrection).toInt
  disp % 2 = 0 ∧ lo ≤ disp ∧ disp ≤ hi

/-- The 10-bit word offset of a conditional branch: -1024 to +1022 bytes (30_encoding.md R105). -/
abbrev branchRange10 (off : Word) : Prop := branchRange (-1024) 1022 off

/-- The 13-bit word offset of BL: -8192 to +8190 bytes and not 0, which is the word of NOP (30_encoding.md R93, R105). -/
abbrev branchRange13 (off : Word) : Prop :=
  branchRange (-8192) 8190 off ∧ off + Config.branchCorrection ≠ 0#16

/-- The 7-bit byte offset of a relative load or store: -64 to +63 (30_encoding.md R106). -/
abbrev relativeRange (off : Word) : Prop := -64 ≤ off.toInt ∧ off.toInt ≤ 63

/-- The 5-bit flag mask, zero-extended to 8 bits (44_status.md R260). -/
abbrev maskRange (imm : Byte) : Prop := imm.toNat < 32

/-- Whether some word encodes the instruction. A format whose fields are exactly as wide as the word holds them has
no check (30_encoding.md R112: every value of every field is a valid encoding). -/
def wellFormed : Instr → Bool
  | .bl off => decide (branchRange13 off)
  | .beq off | .bne off | .bc off | .bnc off | .bn off | .bge off | .blt off | .bra off =>
    decide (branchRange10 off)
  | .ldr off _ _ _ | .str off _ _ _ => decide (relativeRange off)
  | .setcc imm | .clrcc imm => decide (maskRange imm)
  | .nop | .add _ _ _ | .addc _ _ _ | .sub _ _ _ | .subc _ _ _ | .dadd _ _ _ | .cmp _ _ _ | .xor _ _ _
  | .and _ _ _ | .or _ _ _ | .bit _ _ _ | .bic _ _ _ | .bis _ _ _ | .mov _ _ _ | .swap _ _ | .sra _ _
  | .rrc _ _ | .swpb _ | .sxt _ | .cex _ _ _ | .ld _ _ _ _ _ _ | .st _ _ _ _ _ _ | .movl _ _ | .movlz _ _
  | .movls _ _ | .movh _ _ | .invalidFn2 | .invalidFn5 | .invalidFn6 | .invalidFn7 | .invalidSel4
  | .invalidSel7 | .invalidHigh4E | .invalidHigh54 => true

/-- An instruction that some word encodes. -/
abbrev WellFormed (i : Instr) : Prop := wellFormed i = true

end Sys2Proof
end

