-- ==== Sys2Proof/Decode.lean ====
section
/-! DEFINITION. The decoder of 30_encoding.md R91 to R109, total on words and on bytes, the opcode map of R110 and
R111, and the encoder written from the formats R93 to R103. -/

namespace Sys2Proof

/-! Codes of the fields. -/

/-- The register a 3-bit field names (R92). -/
def Reg.ofBits (b : BitVec 3) : Reg :=
  match b.toNat with
  | 0 => .r0 | 1 => .r1 | 2 => .r2 | 3 => .r3 | 4 => .r4 | 5 => .r5 | 6 => .r6 | _ => .r7

/-- The 3-bit field that names a register (R92). -/
def Reg.toBits : Reg → BitVec 3
  | .r0 => 0 | .r1 => 1 | .r2 => 2 | .r3 => 3 | .r4 => 4 | .r5 => 5 | .r6 => 6 | .r7 => 7

/-- `wb`: 0 word, 1 byte (R92). -/
def Width.ofBit : Bool → Width
  | false => .word
  | true => .byte

/-- The bit `wb` of a width (R92). -/
def Width.toBit : Width → BitVec 1
  | .word => 0
  | .byte => 1

/-- `rc`: 0 register, 1 constant (R92, R109). -/
def Source.ofBits (rc : Bool) (src : BitVec 3) : Source :=
  if rc then .const (.ofBits src) else .reg (.ofBits src)

/-- The bit `rc` of a source operand (R92). -/
def Source.rcBit : Source → BitVec 1
  | .reg _ => 0
  | .const _ => 1

/-- The field `src` of a source operand (R92). -/
def Source.srcBits : Source → BitVec 3
  | .reg r => r.toBits
  | .const k => k.toBits

/-- The condition a 4-bit code names (45_cex.md R272). -/
def Cond.ofBits (b : BitVec 4) : Cond :=
  match b.toNat with
  | 0 => .eq | 1 => .ne | 2 => .cs | 3 => .cc | 4 => .mi | 5 => .pl | 6 => .vs | 7 => .vc
  | 8 => .hi | 9 => .ls | 10 => .ge | 11 => .lt | 12 => .gt | 13 => .le | 14 => .tr | _ => .fl

/-- The 4-bit code of a condition (45_cex.md R272). -/
def Cond.toBits : Cond → BitVec 4
  | .eq => 0 | .ne => 1 | .cs => 2 | .cc => 3 | .mi => 4 | .pl => 5 | .vs => 6 | .vc => 7
  | .hi => 8 | .ls => 9 | .ge => 10 | .lt => 11 | .gt => 12 | .le => 13 | .tr => 14 | .fl => 15

/-! Field extraction. -/

/-- `dst = w[2:0]` (R92). -/
def dstField (w : Word) : Reg := .ofBits (w.extractLsb' 0 3)

/-- `src = w[5:3]` as a register of bank 0 (R92). -/
def srcField (w : Word) : Reg := .ofBits (w.extractLsb' 3 3)

/-- `wb = w[6]` (R92). -/
def wbField (w : Word) : Width := .ofBit (w.getLsbD 6)

/-- The source operand of format A: `rc = w[7]`, `src = w[5:3]` (R95). -/
def sourceField (w : Word) : Source := .ofBits (w.getLsbD 7) (w.extractLsb' 3 3)

/-- The immediate byte `w[10:3]` (R107). -/
def immField (w : Word) : Byte := w.extractLsb' 3 8

/-- The flag mask `zext_8(w[4:0])` (44_status.md R260). -/
def maskField (w : Word) : Byte := (w.extractLsb' 0 5).setWidth 8

/-- `DEC.off` of BL from `OFF13`: shifted left by one, sign-extended, less the correction (R105). -/
def branchOff13 (o : BitVec 13) : Word := (o ++ 0#1).signExtend 16 - Config.branchCorrection

/-- `DEC.off` of a conditional branch from `OFF10` (R105). -/
def branchOff10 (o : BitVec 10) : Word := (o ++ 0#1).signExtend 16 - Config.branchCorrection

/-- `DEC.off` of a relative load or store from `OFF7` (R106). -/
def relativeOff (o : BitVec 7) : Word := o.signExtend 16

/-! The decoder. -/

/-- R91 step 2: `w[13] = 0` is BL, otherwise `w[12:10]` chooses the conditional branch (R93, R94). -/
def decodeBranch (w : Word) : Instr :=
  if w.getLsbD 13 = false then .bl (branchOff13 (w.extractLsb' 0 13))
  else
    let off := branchOff10 (w.extractLsb' 0 10)
    match (w.extractLsb' 10 3).toNat with
    | 0 => .beq off | 1 => .bne off | 2 => .bc off | 3 => .bnc off
    | 4 => .bn off | 5 => .bge off | 6 => .blt off | _ => .bra off

/-- R91 step 3: `w[11:8]` indexes the twelve instructions of format A (R95). Step 3 is reached with an index of at
most 11, so the last arm is BIS. -/
def decodeArith (w : Word) : Instr :=
  let src := sourceField w
  let wb := wbField w
  let dst := dstField w
  match (w.extractLsb' 8 4).toNat with
  | 0 => .add src wb dst | 1 => .addc src wb dst | 2 => .sub src wb dst | 3 => .subc src wb dst
  | 4 => .dadd src wb dst | 5 => .cmp src wb dst | 6 => .xor src wb dst | 7 => .and src wb dst
  | 8 => .or src wb dst | 9 => .bit src wb dst | 10 => .bic src wb dst | _ => .bis src wb dst

/-- R91 step 4: `w[7]` tells MOV from SWAP (R96). -/
def decodeMove (w : Word) : Instr :=
  if w.getLsbD 7 = false then .mov (wbField w) (srcField w) (dstField w) else .swap (srcField w) (dstField w)

/-- R91 step 5: `FN = w[5:3]` (R97), the other values INVALID (R111). -/
def decodeSingle (w : Word) : Instr :=
  match (w.extractLsb' 3 3).toNat with
  | 0 => .sra (wbField w) (dstField w)
  | 1 => .rrc (wbField w) (dstField w)
  | 2 => .invalidFn2
  | 3 => .swpb (dstField w)
  | 4 => .sxt (dstField w)
  | 5 => .invalidFn5
  | 6 => .invalidFn6
  | _ => .invalidFn7

/-- R91 step 6: `SEL = w[7:5]` with `w[7] = 1` (R98), the other values INVALID (R111). -/
def decodeStatus (w : Word) : Instr :=
  match (w.extractLsb' 5 2).toNat with
  | 0 => .invalidSel4
  | 1 => .setcc (maskField w)
  | 2 => .clrcc (maskField w)
  | _ => .invalidSel7

/-- R91 step 7: CEX (R99, R108). -/
def decodeCex (w : Word) : Instr := .cex (.ofBits (w.extractLsb' 6 4)) (w.extractLsb' 3 3) (w.extractLsb' 0 3)

/-- R91 step 8: `w[10] = 0` LD, `w[10] = 1` ST (R100). -/
def decodeIndexed (w : Word) : Instr :=
  if w.getLsbD 10 = false then
    .ld (w.getLsbD 9) (w.getLsbD 8) (w.getLsbD 7) (wbField w) (srcField w) (dstField w)
  else .st (w.getLsbD 9) (w.getLsbD 8) (w.getLsbD 7) (wbField w) (srcField w) (dstField w)

/-- R91 step 9: `w[12:11]` (R102). -/
def decodeInit (w : Word) : Instr :=
  match (w.extractLsb' 11 2).toNat with
  | 0 => .movl (immField w) (dstField w)
  | 1 => .movlz (immField w) (dstField w)
  | 2 => .movls (immField w) (dstField w)
  | _ => .movh (immField w) (dstField w)

/-- R91 step 10: `w[14] = 0` LDR, `w[14] = 1` STR (R101, R106). -/
def decodeRelative (w : Word) : Instr :=
  let off := relativeOff (w.extractLsb' 7 7)
  if w.getLsbD 14 = false then .ldr off (wbField w) (srcField w) (dstField w)
  else .str off (wbField w) (srcField w) (dstField w)

/-- The decoder: the ordered tests of R91, steps 1 to 11, on `hb = w[15:8]`. It is total and reads no other state
(R90). -/
def decode (w : Word) : Instr :=
  let hb := (w.extractLsb' 8 8).toNat
  if w = 0#16 then .nop
  else if hb < 0x40 then decodeBranch w
  else if hb ≤ 0x4B then decodeArith w
  else if hb = 0x4C then decodeMove w
  else if hb = 0x4D then if w.getLsbD 7 = false then decodeSingle w else decodeStatus w
  else if 0x50 ≤ hb ∧ hb ≤ 0x53 then decodeCex w
  else if 0x58 ≤ hb ∧ hb ≤ 0x5F then decodeIndexed w
  else if 0x60 ≤ hb ∧ hb ≤ 0x7F then decodeInit w
  else if 0x80 ≤ hb then decodeRelative w
  else if hb < 0x50 then .invalidHigh4E
  else .invalidHigh54

/-- Whether the decoder classifies the word as INVALID (R111). -/
def Instr.isInvalid : Instr → Bool
  | .invalidFn2 | .invalidFn5 | .invalidFn6 | .invalidFn7 | .invalidSel4 | .invalidSel7 | .invalidHigh4E
  | .invalidHigh54 => true
  | .nop | .bl _ | .beq _ | .bne _ | .bc _ | .bnc _ | .bn _ | .bge _ | .blt _ | .bra _ | .add _ _ _
  | .addc _ _ _ | .sub _ _ _ | .subc _ _ _ | .dadd _ _ _ | .cmp _ _ _ | .xor _ _ _ | .and _ _ _ | .or _ _ _
  | .bit _ _ _ | .bic _ _ _ | .bis _ _ _ | .mov _ _ _ | .swap _ _ | .sra _ _ | .rrc _ _ | .swpb _ | .sxt _
  | .setcc _ | .clrcc _ | .cex _ _ _ | .ld _ _ _ _ _ _ | .st _ _ _ _ _ _ | .movl _ _ | .movlz _ _ | .movls _ _
  | .movh _ _ | .ldr _ _ _ _ | .str _ _ _ _ => false

/-- Why bytes are no instruction. -/
inductive DecodeError where
  /-- fewer than the two bytes of an instruction word -/
  | truncated
  deriving DecidableEq, Repr

/-- The instruction at the front of a list of bytes and the bytes after it: one word, its low byte first
(R90; 20_memory.md R63). Every complete word has a meaning (R91), so only a missing byte is refused. -/
def decodeBytes : List Byte → Except DecodeError (Instr × List Byte)
  | lo :: hi :: rest => .ok (decode (hi ++ lo), rest)
  | [_] => .error .truncated
  | [] => .error .truncated

/-- The bytes of the word whose bits are the low `nbits` bits of `w`, as the instruction bank stores them
(20_memory.md R63). -/
def tableBytes (nbits w : Nat) : List Byte :=
  let word : Word := BitVec.ofNat 16 (w % 2 ^ nbits)
  [word.extractLsb' 0 8, word.extractLsb' 8 8]

/-- The instruction the decoder reads from an instruction whose bits are `w`, `nbits` of them, every bit above being 0. -/
def decodeTableWord (nbits w : Nat) : Option Instr :=
  match decodeBytes (tableBytes nbits w) with
  | .ok (i, _) => some i
  | .error _ => none

/-! The opcode map. -/

/-- The mask of the instruction's row of the opcode map (R110, R111). -/
def rowMask : Instr → Word
  | .nop => 0xFFFF
  | .bl _ => 0xE000
  | .beq _ | .bne _ | .bc _ | .bnc _ | .bn _ | .bge _ | .blt _ | .bra _ => 0xFC00
  | .add _ _ _ | .addc _ _ _ | .sub _ _ _ | .subc _ _ _ | .dadd _ _ _ | .cmp _ _ _ | .xor _ _ _ | .and _ _ _
  | .or _ _ _ | .bit _ _ _ | .bic _ _ _ | .bis _ _ _ => 0xFF00
  | .mov _ _ _ | .swap _ _ => 0xFF80
  | .sra _ _ | .rrc _ _ | .swpb _ | .sxt _ => 0xFFB8
  | .setcc _ | .clrcc _ => 0xFFE0
  | .cex _ _ _ | .ld _ _ _ _ _ _ | .st _ _ _ _ _ _ => 0xFC00
  | .movl _ _ | .movlz _ _ | .movls _ _ | .movh _ _ => 0xF800
  | .ldr _ _ _ _ | .str _ _ _ _ => 0xC000
  | .invalidFn2 | .invalidFn5 | .invalidFn6 | .invalidFn7 => 0xFFB8
  | .invalidSel4 | .invalidSel7 => 0xFFE0
  | .invalidHigh4E => 0xFE00
  | .invalidHigh54 => 0xFC00

/-- The match value of the instruction's row of the opcode map (R110, R111). -/
def rowMatch : Instr → Word
  | .nop => 0x0000 | .bl _ => 0x0000
  | .beq _ => 0x2000 | .bne _ => 0x2400 | .bc _ => 0x2800 | .bnc _ => 0x2C00
  | .bn _ => 0x3000 | .bge _ => 0x3400 | .blt _ => 0x3800 | .bra _ => 0x3C00
  | .add _ _ _ => 0x4000 | .addc _ _ _ => 0x4100 | .sub _ _ _ => 0x4200 | .subc _ _ _ => 0x4300
  | .dadd _ _ _ => 0x4400 | .cmp _ _ _ => 0x4500 | .xor _ _ _ => 0x4600 | .and _ _ _ => 0x4700
  | .or _ _ _ => 0x4800 | .bit _ _ _ => 0x4900 | .bic _ _ _ => 0x4A00 | .bis _ _ _ => 0x4B00
  | .mov _ _ _ => 0x4C00 | .swap _ _ => 0x4C80
  | .sra _ _ => 0x4D00 | .rrc _ _ => 0x4D08 | .swpb _ => 0x4D18 | .sxt _ => 0x4D20
  | .setcc _ => 0x4DA0 | .clrcc _ => 0x4DC0
  | .cex _ _ _ => 0x5000 | .ld _ _ _ _ _ _ => 0x5800 | .st _ _ _ _ _ _ => 0x5C00
  | .movl _ _ => 0x6000 | .movlz _ _ => 0x6800 | .movls _ _ => 0x7000 | .movh _ _ => 0x7800
  | .ldr _ _ _ _ => 0x8000 | .str _ _ _ _ => 0xC000
  | .invalidFn2 => 0x4D10 | .invalidFn5 => 0x4D28 | .invalidFn6 => 0x4D30 | .invalidFn7 => 0x4D38
  | .invalidSel4 => 0x4D80 | .invalidSel7 => 0x4DE0 | .invalidHigh4E => 0x4E00 | .invalidHigh54 => 0x5400

/-- The bits marked `x` in the instruction's row, which the decoder does not examine (R112; for the INVALID rows, the
bits outside the mask, R111). -/
def ignoredBits (i : Instr) : Word :=
  match i with
  | .swap _ _ | .swpb _ | .sxt _ => 0x0040
  | .invalidFn2 | .invalidFn5 | .invalidFn6 | .invalidFn7 | .invalidSel4 | .invalidSel7 | .invalidHigh4E
  | .invalidHigh54 => ~~~(rowMask i)
  | .nop | .bl _ | .beq _ | .bne _ | .bc _ | .bnc _ | .bn _ | .bge _ | .blt _ | .bra _ | .add _ _ _
  | .addc _ _ _ | .sub _ _ _ | .subc _ _ _ | .dadd _ _ _ | .cmp _ _ _ | .xor _ _ _ | .and _ _ _ | .or _ _ _
  | .bit _ _ _ | .bic _ _ _ | .bis _ _ _ | .mov _ _ _ | .sra _ _ | .rrc _ _ | .setcc _ | .clrcc _
  | .cex _ _ _ | .ld _ _ _ _ _ _ | .st _ _ _ _ _ _ | .movl _ _ | .movlz _ _ | .movls _ _ | .movh _ _
  | .ldr _ _ _ _ | .str _ _ _ _ => 0x0000

/-! The encoder. -/

/-- `OFF13` of a BL with this `DEC.off` (R93, R105). -/
def off13Field (off : Word) : BitVec 13 := (off + Config.branchCorrection).extractLsb' 1 13

/-- `OFF10` of a conditional branch with this `DEC.off` (R94, R105). -/
def off10Field (off : Word) : BitVec 10 := (off + Config.branchCorrection).extractLsb' 1 10

/-- A word of format B10 (R94). -/
def formatB10 (cond : BitVec 3) (off : Word) : Word := 0b001#3 ++ cond ++ off10Field off

/-- A word of format A (R95). -/
def formatA (opc : BitVec 4) (src : Source) (wb : Width) (dst : Reg) : Word :=
  0b0100#4 ++ opc ++ src.rcBit ++ wb.toBit ++ src.srcBits ++ dst.toBits

/-- A word of format M (R96). -/
def formatM (sel wb : BitVec 1) (src dst : Reg) : Word := 0b01001100#8 ++ sel ++ wb ++ src.toBits ++ dst.toBits

/-- A word of format S (R97), also of the INVALID words with an unassigned FN. -/
def formatS (wb : BitVec 1) (fn dst : BitVec 3) : Word := 0b01001101#8 ++ 0#1 ++ wb ++ fn ++ dst

/-- A word of format C (R98), also of the INVALID words with an unassigned SEL. -/
def formatC (sel : BitVec 3) (imm : Byte) : Word := 0b01001101#8 ++ sel ++ imm.extractLsb' 0 5

/-- A word of format E (R99). -/
def formatE (cc : Cond) (tc fc : BitVec 3) : Word := 0b010100#6 ++ cc.toBits ++ tc ++ fc

/-- A word of format X (R100). -/
def formatX (store : BitVec 1) (prpo dec inc : Bool) (wb : Width) (src dst : Reg) : Word :=
  0b01011#5 ++ store ++ BitVec.ofBool prpo ++ BitVec.ofBool dec ++ BitVec.ofBool inc ++ wb.toBit ++ src.toBits
    ++ dst.toBits

/-- A word of format L (R101). -/
def formatL (store : BitVec 1) (off : Word) (wb : Width) (src dst : Reg) : Word :=
  1#1 ++ store ++ off.extractLsb' 0 7 ++ wb.toBit ++ src.toBits ++ dst.toBits

/-- A word of format I (R102). -/
def formatI (sel : BitVec 2) (imm : Byte) (dst : Reg) : Word := 0b011#3 ++ sel ++ imm ++ dst.toBits

/-- The word of an instruction, its ignored bits 0 (R110, R117). -/
def encode : Instr → Word
  | .nop => 0#16
  | .bl off => 0b000#3 ++ off13Field off
  | .beq off => formatB10 0b000 off
  | .bne off => formatB10 0b001 off
  | .bc off => formatB10 0b010 off
  | .bnc off => formatB10 0b011 off
  | .bn off => formatB10 0b100 off
  | .bge off => formatB10 0b101 off
  | .blt off => formatB10 0b110 off
  | .bra off => formatB10 0b111 off
  | .add src wb dst => formatA 0x0 src wb dst
  | .addc src wb dst => formatA 0x1 src wb dst
  | .sub src wb dst => formatA 0x2 src wb dst
  | .subc src wb dst => formatA 0x3 src wb dst
  | .dadd src wb dst => formatA 0x4 src wb dst
  | .cmp src wb dst => formatA 0x5 src wb dst
  | .xor src wb dst => formatA 0x6 src wb dst
  | .and src wb dst => formatA 0x7 src wb dst
  | .or src wb dst => formatA 0x8 src wb dst
  | .bit src wb dst => formatA 0x9 src wb dst
  | .bic src wb dst => formatA 0xA src wb dst
  | .bis src wb dst => formatA 0xB src wb dst
  | .mov wb src dst => formatM 0 wb.toBit src dst
  | .swap src dst => formatM 1 0 src dst
  | .sra wb dst => formatS wb.toBit 0b000 dst.toBits
  | .rrc wb dst => formatS wb.toBit 0b001 dst.toBits
  | .swpb dst => formatS 0 0b011 dst.toBits
  | .sxt dst => formatS 0 0b100 dst.toBits
  | .setcc imm => formatC 0b101 imm
  | .clrcc imm => formatC 0b110 imm
  | .cex cc tc fc => formatE cc tc fc
  | .ld prpo dec inc wb src dst => formatX 0 prpo dec inc wb src dst
  | .st prpo dec inc wb src dst => formatX 1 prpo dec inc wb src dst
  | .movl imm dst => formatI 0b00 imm dst
  | .movlz imm dst => formatI 0b01 imm dst
  | .movls imm dst => formatI 0b10 imm dst
  | .movh imm dst => formatI 0b11 imm dst
  | .ldr off wb src dst => formatL 0 off wb src dst
  | .str off wb src dst => formatL 1 off wb src dst
  | .invalidFn2 => formatS 0 0b010 0
  | .invalidFn5 => formatS 0 0b101 0
  | .invalidFn6 => formatS 0 0b110 0
  | .invalidFn7 => formatS 0 0b111 0
  | .invalidSel4 => formatC 0b100 0
  | .invalidSel7 => formatC 0b111 0
  | .invalidHigh4E => 0b0100111#7 ++ 0#9
  | .invalidHigh54 => 0b010101#6 ++ 0#10

/-- The bytes of an instruction as the instruction bank stores them, low byte first (20_memory.md R63). -/
def encodeBytes (i : Instr) : List Byte := [(encode i).extractLsb' 0 8, (encode i).extractLsb' 8 8]

end Sys2Proof
end

