-- ==== Sys2Proof/Machine/State.lean ====
section
/-! DEFINITION. The state of the machine as plain data (10_state.md R20 to R55), the reasons a step can stop, and the
state right after reset (10_state.md R55; 70_reset_and_hazards.md R380, R381). -/

namespace Sys2Proof.Machine

/-- One bank of the register file: eight 16-bit slots (10_state.md R20). -/
structure Bank where
  r0 : Word
  r1 : Word
  r2 : Word
  r3 : Word
  r4 : Word
  r5 : Word
  r6 : Word
  r7 : Word
  deriving DecidableEq, Repr

/-- A memory bank: its bytes by address, addresses strictly rising and no byte listed that equals what an unlisted
address reads as (20_memory.md R60, R61). -/
abbrev Memory := List Host.Cell

/-- DCTRL, the pending-memory-operation tag (10_state.md R40). -/
inductive Dctrl where
  | none | rdW | rdB | wrW | wrB
  deriving DecidableEq, Repr

/-- `CEX.status` (10_state.md R44). -/
inductive CexStatus where
  | disabled | predicateTrue | predicateFalse
  deriving DecidableEq, Repr

/-- The conditional-execution state CEX; the counts range over 0 to 15 (10_state.md R44; 45_cex.md R270). -/
structure CexState where
  cc : Cond
  status : CexStatus
  tc : BitVec 4
  fc : BitVec 4
  deriving DecidableEq, Repr

/-- The controller's state `fsm` (10_state.md R45; 40_pipeline_step.md R132). -/
inductive Fsm where
  | idle | running | suspended | halted
  deriving DecidableEq, Repr

/-- The controller state (10_state.md R45). -/
structure Controller where
  fsm : Fsm
  /-- the number of half-cycles performed since reset; bit 0 selects even or odd -/
  clock : Nat
  breakpoint : Word
  singleStep : Bool
  stopOnClock : Bool
  userInterrupt : Bool
  hasStarted : Bool
  stepOnce : Bool
  stopReq : Bool
  startAddress : Word
  deriving DecidableEq, Repr

/-- The two memory banks (20_memory.md R60). -/
inductive MemBank where
  | instruction | data
  deriving DecidableEq, Repr

/-- The host commands (10_state.md R52). A memory access of the host names its width. -/
inductive Command where
  | setStartAddress (a : Word)
  | run
  | step
  | stop
  | setBreakpoint (a : Word)
  | toggleSingleStep
  | toggleStopOnClock
  | readRegister (r : Reg)
  | writeRegister (r : Reg) (v : Word)
  | readMemory (bank : MemBank) (wb : Width) (a : Word)
  | writeMemory (bank : MemBank) (wb : Width) (a v : Word)
  | clearPsw
  | raiseInterrupt
  deriving DecidableEq, Repr

/-- An event at the input ports `tick`, `rst`, `irq`, `cmd` (10_state.md R50). -/
inductive Input where
  | tick
  | rst
  | irq
  | cmd (c : Command)
  deriving DecidableEq, Repr

/-- What the host was told by its latest command (10_state.md R52; 40_pipeline_step.md R133). -/
inductive Reply where
  | none
  | value (v : Word)
  | rejected
  deriving DecidableEq, Repr

/-- The machine's state. -/
structure State where
  /-- bank 0, the registers R0 to R7, R7 the program counter (10_state.md R20, R21, R25) -/
  bank0 : Bank
  /-- bank 1, the constants K[0] to K[7] (R20, R22) -/
  bank1 : Bank
  /-- the program status word (R30) -/
  psw : Word
  /-- instruction-fetch address register (R40) -/
  imar : Word
  /-- instruction-fetch data register (R40) -/
  imbr : Word
  /-- instruction register, the word to be decoded (R40) -/
  ir : Word
  /-- data address register (R40) -/
  dmar : Word
  /-- data register (R40) -/
  dmbr : Word
  /-- the pending data request (R40) -/
  dctrl : Dctrl
  /-- the decode latch DEC (R41) -/
  dec : Instr
  /-- the load-destination latch (R42) -/
  lsd : Reg
  /-- hazard flag decode_bubble (R43) -/
  decodeBubble : Bool
  /-- hazard flag execute_bubble (R43) -/
  executeBubble : Bool
  /-- the conditional-execution state (R44) -/
  cex : CexState
  /-- the controller (R45) -/
  ctl : Controller
  /-- the instruction bank (20_memory.md R60) -/
  imem : Memory
  /-- the data bank (20_memory.md R60) -/
  dmem : Memory
  /-- the output `invalid` in the latest half-cycle: the reported word, if any (R50; 60_exceptions.md R341) -/
  invalid : Option Word
  /-- the model's own: the host's latest answer -/
  reply : Reply
  /-- the model's own: the input events still to come, oldest first -/
  inputs : List Input
  deriving DecidableEq, Repr

/-- Why the machine stops. The hardware itself raises no exception (60_exceptions.md R340). -/
inductive Fault where
  /-- Raised by F1 under MISALIGNED_WORD = fault when IMAR is odd (20_memory.md R65). Safe: the machine stops where the
  hardware goes on. `step` runs MISALIGNED_WORD = truncate and never raises it. -/
  | misalignedFetch
  /-- Raised by M under MISALIGNED_WORD = fault when a word request has an odd DMAR (20_memory.md R65). Safe, as above;
  `step` never raises it. -/
  | misalignedData
  deriving DecidableEq, Repr

/-- Why an instruction has no meaning. -/
inductive Refusal where
  /-- Raised by an arm of `exec` whose instruction is not modelled. Safe. No arm of this model raises it. -/
  | notModelled (mnemonic : String)
  deriving DecidableEq, Repr

/-- The result of a stage, an instruction or a step. -/
abbrev Result := Host.Outcome State Fault Refusal

/-- Eight zero slots. -/
def Bank.zero : Bank := ⟨0, 0, 0, 0, 0, 0, 0, 0⟩

/-- The constants of bank 1 (10_state.md R22). -/
def Bank.constants : Bank := ⟨0x0000, 0x0001, 0x0002, 0x0004, 0x0008, 0x0010, 0x0020, 0xFFFF⟩

/-- No conditional-execution window (10_state.md R55; 45_cex.md R270). -/
def CexState.closed : CexState := { cc := .eq, status := .disabled, tc := 0, fc := 0 }

/-- The controller after reset (10_state.md R55). -/
def Controller.reset : Controller :=
  { fsm := .idle, clock := 0, breakpoint := 0, singleStep := false, stopOnClock := false, userInterrupt := false,
    hasStarted := false, stepOnce := false, stopReq := false, startAddress := 0 }

/-- The machine right after reset, nothing loaded (10_state.md R55; 70_reset_and_hazards.md R380, R381). -/
def State.reset : State :=
  { bank0 := .zero, bank1 := .constants, psw := 0, imar := 0, imbr := 0, ir := 0, dmar := 0, dmbr := 0, dctrl := .none,
    dec := .nop, lsd := .r0, decodeBubble := false, executeBubble := false, cex := .closed, ctl := .reset, imem := [],
    dmem := [], invalid := .none, reply := .none, inputs := [] }

end Sys2Proof.Machine
end

