-- ==== Sys2Proof/Machine/Ops.lean ====
section
/-! DEFINITION. The named operations over memory, registers, the data latches and the controller. -/

namespace Sys2Proof.Machine

/-! Memory banks (20_memory.md R60 to R69). -/

/-- What a byte of memory that nothing has written reads as. DESIGN CHOICE: the spec leaves it unspecified (10_state.md
R55, 93_implementation_defined.md U3); unsafe. -/
def unwrittenByte : Byte := 0

/-- The byte at an address. -/
def Memory.read : Memory → Nat → Byte
  | [], _ => unwrittenByte
  | (k, v) :: m, a => if k = a then v else Memory.read m a

/-- The bank with one byte written, in canonical form. -/
def Memory.write : Memory → Nat → Byte → Memory
  | [], a, b => if b = unwrittenByte then [] else [(a, b)]
  | (k, v) :: m, a, b =>
    if a < k then if b = unwrittenByte then (k, v) :: m else (a, b) :: (k, v) :: m
    else if a = k then if b = unwrittenByte then m else (a, b) :: m
    else (k, v) :: Memory.write m a b

/-- Every listed address is at least `lo` and below MEM_BYTES, addresses rise strictly, and no listed byte is the
unwritten byte. -/
def Memory.wfFrom : Nat → Memory → Bool
  | _, [] => true
  | lo, (k, v) :: m => decide (lo ≤ k) && decide (k < Config.memBytes) && decide (v ≠ unwrittenByte)
      && Memory.wfFrom (k + 1) m

/-- The canonical form of a memory bank. -/
def Memory.wf (m : Memory) : Bool := Memory.wfFrom 0 m

/-- `a & 0xFFFE`, the address of the word that holds the byte at `a` (20_memory.md R63, R65). -/
def alignedAddr (a : Word) : Word := a &&& 0xFFFE#16

/-- A 16-bit read at `a & 0xFFFE`, low byte first (20_memory.md R63, R66, R67). -/
def Memory.readWord (m : Memory) (a : Word) : Word :=
  let k := (alignedAddr a).toNat
  Memory.read m (k + 1) ++ Memory.read m k

/-- An 8-bit read (20_memory.md R67). -/
def Memory.readByte (m : Memory) (a : Word) : Byte := Memory.read m a.toNat

/-- A 16-bit write at `a & 0xFFFE`, low byte first (20_memory.md R63, R68). -/
def Memory.writeWord (m : Memory) (a v : Word) : Memory :=
  let k := (alignedAddr a).toNat
  Memory.write (Memory.write m k (v.extractLsb' 0 8)) (k + 1) (v.extractLsb' 8 8)

/-- An 8-bit write of the low byte of `v` (20_memory.md R68). -/
def Memory.writeByte (m : Memory) (a v : Word) : Memory := Memory.write m a.toNat (v.extractLsb' 0 8)

/-- `MemRead(a, n)` zero-extended to 16 bits (20_memory.md R67; 40_pipeline_step.md R141). -/
def Memory.readAt (m : Memory) (wb : Width) (a : Word) : Word :=
  match wb with
  | .word => Memory.readWord m a
  | .byte => (Memory.readByte m a).setWidth 16

/-- `MemWrite(a, n, v)` (20_memory.md R68). -/
def Memory.writeAt (m : Memory) (wb : Width) (a v : Word) : Memory :=
  match wb with
  | .word => Memory.writeWord m a v
  | .byte => Memory.writeByte m a v

/-- MISALIGNED_WORD of the machine that `step` runs: the spec's choice (00_scope.md R7; 20_memory.md R65). -/
def misalignedWord : Config.MisalignedWord := .truncate

/-- Whether a word access at `a` stops the machine under this value of MISALIGNED_WORD (20_memory.md R65). -/
def wordAccessFaults (p : Config.MisalignedWord) (a : Word) : Bool :=
  match p with
  | .truncate => false
  | .fault => a.getLsbD 0

/-! Registers (10_state.md R20 to R23). -/

/-- The slot with this number. -/
def Bank.get (b : Bank) : Reg → Word
  | .r0 => b.r0 | .r1 => b.r1 | .r2 => b.r2 | .r3 => b.r3 | .r4 => b.r4 | .r5 => b.r5 | .r6 => b.r6 | .r7 => b.r7

/-- The bank with one slot replaced. -/
def Bank.set (b : Bank) (r : Reg) (v : Word) : Bank :=
  match r with
  | .r0 => { b with r0 := v }
  | .r1 => { b with r1 := v }
  | .r2 => { b with r2 := v }
  | .r3 => { b with r3 := v }
  | .r4 => { b with r4 := v }
  | .r5 => { b with r5 := v }
  | .r6 => { b with r6 := v }
  | .r7 => { b with r7 := v }

/-- `x[r]` (00_scope.md R10). -/
def State.x (s : State) (r : Reg) : Word := s.bank0.get r

/-- `x[r] <- v` (00_scope.md R10). No register of bank 0 is hard-wired (10_state.md R21). -/
def State.setX (s : State) (r : Reg) (v : Word) : State := { s with bank0 := s.bank0.set r v }

/-- `K[k]` (00_scope.md R10); there is no write (10_state.md R22). -/
def State.k (s : State) (k : Reg) : Word := s.bank1.get k

/-- The program counter, `x[7]` (10_state.md R25). -/
def State.pc (s : State) : Word := s.x .r7

/-- `PSW <- v`. -/
def State.setPsw (s : State) (v : Word) : State := { s with psw := v }

/-- The low W bits of `v` (42_arithmetic_logic.md R200). -/
def lowBits (wb : Width) (v : Word) : BitVec wb.bits := v.setWidth wb.bits

/-- A W-bit result placed in a slot that held `old`: the whole word, or the low byte with the high byte left as it was
(42_arithmetic_logic.md R200; 10_state.md R20). -/
def mergeBits : (wb : Width) → Word → BitVec wb.bits → Word
  | .word, _, v => v
  | .byte, old, v => old.extractLsb' 8 8 ++ v

/-- Write-back of a W-bit result to a register (42_arithmetic_logic.md R200). -/
def State.writeBack (s : State) (wb : Width) (r : Reg) (v : BitVec wb.bits) : State :=
  s.setX r (mergeBits wb (s.x r) v)

/-! The data latches (46_load_store.md R294, R295). -/

/-- A load's request: the address, the tag and the destination latch (46_load_store.md R294). -/
def State.postRead (s : State) (wb : Width) (ea : Word) (dst : Reg) : State :=
  { s with dmar := ea, dctrl := (match wb with | .word => .rdW | .byte => .rdB), lsd := dst }

/-- A store's request: the address, the possibly byte-truncated data and the tag (46_load_store.md R295). -/
def State.postWrite (s : State) (wb : Width) (ea v : Word) : State :=
  { s with
    dmar := ea
    dmbr := (match wb with | .word => v | .byte => (v.extractLsb' 0 8).setWidth 16)
    dctrl := (match wb with | .word => .wrW | .byte => .wrB) }

/-! The program counter of a taken branch (41_branch.md R192). -/

/-- A taken branch: `pc <- pc + DEC.off` and the word after it is squashed (41_branch.md R184 to R192). -/
def State.branchTo (s : State) (off : Word) : State :=
  { s.setX .r7 (s.pc + off) with decodeBubble := true }

/-! The controller. The hardware takes no exception (60_exceptions.md R340, R346); the suspension below and the resume
beside it are what it has in that place (60_exceptions.md R344, R347). -/

/-- `fsm <- Suspended ; step_once <- 0`; nothing else changes (40_pipeline_step.md R147). -/
def State.suspend (s : State) : State := { s with ctl := { s.ctl with fsm := .suspended, stepOnce := false } }

/-- Resume by `run()` or, with `once`, by `step()` (40_pipeline_step.md R148). -/
def State.resume (s : State) (once : Bool) : State :=
  { s with ctl := { s.ctl with fsm := .running, userInterrupt := false, stepOnce := once } }

/-- First entry into Running by `run()` or, with `once`, by `step()` (40_pipeline_step.md R134). -/
def State.start (s : State) (once : Bool) : State :=
  let s := s.setX .r7 s.ctl.startAddress
  { s with ctl :=
      { s.ctl with fsm := .running, hasStarted := true, userInterrupt := false, stepOnce := once || s.ctl.stepOnce } }

/-- `fsm <- Halted` (40_pipeline_step.md R149). -/
def State.halt (s : State) : State := { s with ctl := { s.ctl with fsm := .halted } }

/-- `rst`: every state element of the block at its reset value, the two memory banks unchanged; the events still to
come stay (70_reset_and_hazards.md R380). -/
def State.resetBlock (s : State) : State :=
  { State.reset with imem := s.imem, dmem := s.dmem, inputs := s.inputs }

/-- The next stage, on the state the stage before it leaves. -/
def andThen (r : Result) (f : State → Result) : Result :=
  match r with
  | .next s => f s
  | .fault e => .fault e
  | .refused e => .refused e

end Sys2Proof.Machine
end

