-- ==== Sys2Proof/Machine/Flags.lean ====
section
/-! DEFINITION. The program status word and every flag computation (10_state.md R30, R31; 42_arithmetic_logic.md R201
to R204, R211; 45_cex.md R272). -/

namespace Sys2Proof.Machine

/-! The fields of the PSW (10_state.md R30). -/

/-- PSW.C, bit 0. -/
def pswC (p : Word) : Bool := p.getLsbD 0

/-- PSW.Z, bit 1. -/
def pswZ (p : Word) : Bool := p.getLsbD 1

/-- PSW.N, bit 2. -/
def pswN (p : Word) : Bool := p.getLsbD 2

/-- PSW.SLP, bit 3, a storage bit (R32). -/
def pswSlp (p : Word) : Bool := p.getLsbD 3

/-- PSW.V, bit 4. -/
def pswV (p : Word) : Bool := p.getLsbD 4

/-- PSW.CUR, bits 7 to 5 (R33). -/
def pswCur (p : Word) : BitVec 3 := p.extractLsb' 5 3

/-- PSW.FLT, bit 8 (R33). -/
def pswFlt (p : Word) : Bool := p.getLsbD 8

/-- PSW.PRV, bits 15 to 13 (R33). -/
def pswPrv (p : Word) : BitVec 3 := p.extractLsb' 13 3

/-- The word with bit `n` set or cleared and every other bit as it was. -/
def putBit (p : Word) (n : Nat) (b : Bool) : Word :=
  if b then p ||| (1#16 <<< n) else p &&& ~~~(1#16 <<< n)

/-- `PSW.C <- b`. -/
def putC (p : Word) (b : Bool) : Word := putBit p 0 b

/-- `PSW.Z <- b`. -/
def putZ (p : Word) (b : Bool) : Word := putBit p 1 b

/-- `PSW.N <- b`. -/
def putN (p : Word) (b : Bool) : Word := putBit p 2 b

/-- `PSW.V <- b`. -/
def putV (p : Word) (b : Bool) : Word := putBit p 4 b

/-! The adder and its flags. -/

/-- The (W+1)-bit sum `t` of R201, no wrap. -/
def sumWide {n : Nat} (d b : BitVec n) (cin : Bool) : BitVec (n + 1) :=
  d.setWidth (n + 1) + b.setWidth (n + 1) + (BitVec.ofBool cin).setWidth (n + 1)

/-- The result `r = t[W-1:0]` of `add_W` (R201). -/
def addResult {n : Nat} (d b : BitVec n) (cin : Bool) : BitVec n := (sumWide d b cin).setWidth n

/-- The carry out `cout = t[W]` of `add_W` (R201). -/
def addCarryOut {n : Nat} (d b : BitVec n) (cin : Bool) : Bool := (sumWide d b cin).getLsbD n

/-- The carry column of the sign-bit table of R203. -/
def carryTable (sb sd sr : Bool) : Bool :=
  match sb, sd, sr with
  | false, false, false => false
  | false, false, true => false
  | false, true, false => true
  | false, true, true => false
  | true, false, false => true
  | true, false, true => false
  | true, true, false => true
  | true, true, true => true

/-- The overflow column of the sign-bit table of R203. -/
def overflowTable (sb sd sr : Bool) : Bool :=
  match sb, sd, sr with
  | false, false, false => false
  | false, false, true => true
  | false, true, false => false
  | false, true, true => false
  | true, false, false => false
  | true, false, true => false
  | true, true, false => true
  | true, true, true => false

/-- Z and N from a W-bit result (R202). -/
def flagsZN {n : Nat} (p : Word) (r : BitVec n) : Word := putN (putZ p (r == 0#n)) r.msb

/-- V, N, Z and C of an add-class operation with source `b` as passed to the adder, old destination `d` and result `r`
(R202, R203). -/
def flagsAdd {n : Nat} (p : Word) (b d r : BitVec n) : Word :=
  putV (putC (flagsZN p r) (carryTable b.msb d.msb r.msb)) (overflowTable b.msb d.msb r.msb)

/-- C, Z and N of a shift: the carry is the bit shifted out (43_register_manipulation.md R243, R244). -/
def flagsShift {n : Nat} (p : Word) (out : Bool) (r : BitVec n) : Word := flagsZN (putC p out) r

/-- C and Z of a decimal addition; N and V unchanged (R211). -/
def flagsDecimal {n : Nat} (p : Word) (carry : Bool) (r : BitVec n) : Word := putZ (putC p carry) (r == 0#n)

/-! Conditions. -/

/-- `cond(cc, PSW)` (45_cex.md R272). -/
def condHolds (c : Cond) (p : Word) : Bool :=
  match c with
  | .eq => pswZ p
  | .ne => !pswZ p
  | .cs => pswC p
  | .cc => !pswC p
  | .mi => pswN p
  | .pl => !pswN p
  | .vs => pswV p
  | .vc => !pswV p
  | .hi => pswC p && !pswZ p
  | .ls => !pswC p || pswZ p
  | .ge => pswN p == pswV p
  | .lt => pswN p != pswV p
  | .gt => !pswZ p && (pswN p == pswV p)
  | .le => pswZ p || (pswN p != pswV p)
  | .tr => true
  | .fl => false

end Sys2Proof.Machine
end

