-- ==== Sys2Proof/Machine/Operands.lean ====
section
/-! DEFINITION. Every operand form: the register and constant operands of format A (00_scope.md R12;
42_arithmetic_logic.md R200, R209), the decimal digits (R210), and the effective addresses of loads and stores
(46_load_store.md R292, R293). -/

namespace Sys2Proof.Machine

/-- SRCVAL: `K[src]` when `rc = 1`, `x[src]` when `rc = 0` (00_scope.md R12). -/
def State.sourceWord (s : State) : Source → Word
  | .reg r => s.x r
  | .const k => s.k k

/-- The W-bit source operand `s` of R200. -/
def State.source (s : State) (src : Source) (wb : Width) : BitVec wb.bits := lowBits wb (s.sourceWord src)

/-- The W-bit register operand `x[r][W-1:0]` (R200). -/
def State.operand (s : State) (r : Reg) (wb : Width) : BitVec wb.bits := lowBits wb (s.x r)

/-- The conversion of the constants 16 and 32 to decimal digits (R209). -/
def decimalConstant (v : Word) : Word :=
  if v = 0x0010#16 then 0x0016#16 else if v = 0x0020#16 then 0x0032#16 else v

/-- The source word of DADD: a constant is converted, a register is used as it is (R209). -/
def State.decimalSourceWord (s : State) : Source → Word
  | .reg r => s.x r
  | .const k => decimalConstant (s.k k)

/-- The digit loop of R210 on `n` digits, with the carry into the lowest: the result digits and the last carry. -/
def decimalDigits : Nat → Nat → Nat → Nat → Nat × Nat
  | 0, _, _, c => (0, c)
  | n + 1, d, s, c =>
    let t := d % 16 + s % 16 + c
    let digit := if t > 9 then (t - 10) % 16 else t
    let carry := if t > 9 then 1 else 0
    let rest := decimalDigits n (d / 16) (s / 16) carry
    (digit + 16 * rest.1, rest.2)

/-- The number of decimal digits of a W-bit operand (R210). -/
def digitCount (wb : Width) : Nat := wb.bits / 4

/-- The result of the decimal addition of W-bit operands (R210). -/
def decimalSum (wb : Width) (d s : BitVec wb.bits) : BitVec wb.bits :=
  BitVec.ofNat wb.bits (decimalDigits (digitCount wb) d.toNat s.toNat 0).1

/-- The decimal carry out of the top digit (R211). -/
def decimalCarry (wb : Width) (d s : BitVec wb.bits) : Bool :=
  (decimalDigits (digitCount wb) d.toNat s.toNat 0).2 == 1

/-- `step` of R292: 1 for a byte, 2 for a word. -/
def addressStep : Width → Word
  | .word => 2
  | .byte => 1

/-- `adj` of R292: nothing when both or neither of `inc` and `dec` are set. -/
def addressAdjust (dec inc : Bool) (wb : Width) : Word :=
  match dec, inc with
  | false, true => addressStep wb
  | true, false => 0 - addressStep wb
  | false, false => 0
  | true, true => 0

/-- The indexed effective address: `a + adj` before ("pre"), `a` after ("post") (R292). -/
def indexedAddress (prpo dec inc : Bool) (wb : Width) (a : Word) : Word :=
  if prpo then a + addressAdjust dec inc wb else a

/-- The address register of LD and ST after E0: written only when `adj` is not 0 (R292, R294, R295). -/
def State.adjustAddress (s : State) (ra : Reg) (dec inc : Bool) (wb : Width) : State :=
  if addressAdjust dec inc wb = 0 then s else s.setX ra (s.x ra + addressAdjust dec inc wb)

/-- The relative effective address `x[Ra] + DEC.off` (R293). -/
def State.relativeAddress (s : State) (ra : Reg) (off : Word) : Word := s.x ra + off

end Sys2Proof.Machine
end

