-- ==== Sys2Proof/Machine/ArithLogic.lean ====
section
/-! DEFINITION. E0 of the arithmetic and logical instructions (42_arithmetic_logic.md R200 to R220). -/

namespace Sys2Proof.Machine

/-- An add-class operation on the adder input `b`: the flags, and the result written back when `keep` is set
(R200 to R203). -/
def addClass (keep : Bool) (wb : Width) (dst : Reg) (b : BitVec wb.bits) (cin : Bool) (s : State) : State :=
  let d := s.operand dst wb
  let r := addResult d b cin
  let t := s.setPsw (flagsAdd s.psw b d r)
  if keep then t.writeBack wb dst r else t

/-- A logical operation with result `r`: Z and N, and the result written back when `keep` is set (R202, R214 to
R219). -/
def logicClass (keep : Bool) (wb : Width) (dst : Reg) (r : BitVec wb.bits) (s : State) : State :=
  let t := s.setPsw (flagsZN s.psw r)
  if keep then t.writeBack wb dst r else t

/-- ADD (R205). -/
def execAdd (src : Source) (wb : Width) (dst : Reg) (s : State) : Result :=
  .next (addClass true wb dst (s.source src wb) false s)

/-- ADDC (R206). -/
def execAddc (src : Source) (wb : Width) (dst : Reg) (s : State) : Result :=
  .next (addClass true wb dst (s.source src wb) (pswC s.psw) s)

/-- SUB (R207). -/
def execSub (src : Source) (wb : Width) (dst : Reg) (s : State) : Result :=
  .next (addClass true wb dst (~~~(s.source src wb)) true s)

/-- SUBC (R208). -/
def execSubc (src : Source) (wb : Width) (dst : Reg) (s : State) : Result :=
  .next (addClass true wb dst (~~~(s.source src wb)) (pswC s.psw) s)

/-- CMP (R213): the flags of SUB, no write-back. -/
def execCmp (src : Source) (wb : Width) (dst : Reg) (s : State) : Result :=
  .next (addClass false wb dst (~~~(s.source src wb)) true s)

/-- DADD (R209 to R212). -/
def execDadd (src : Source) (wb : Width) (dst : Reg) (s : State) : Result :=
  let d := s.operand dst wb
  let b := lowBits wb (s.decimalSourceWord src)
  let r := decimalSum wb d b
  .next ((s.setPsw (flagsDecimal s.psw (decimalCarry wb d b) r)).writeBack wb dst r)

/-- XOR (R214). -/
def execXor (src : Source) (wb : Width) (dst : Reg) (s : State) : Result :=
  .next (logicClass true wb dst (s.operand dst wb ^^^ s.source src wb) s)

/-- AND (R215). -/
def execAnd (src : Source) (wb : Width) (dst : Reg) (s : State) : Result :=
  .next (logicClass true wb dst (s.operand dst wb &&& s.source src wb) s)

/-- OR (R216). -/
def execOr (src : Source) (wb : Width) (dst : Reg) (s : State) : Result :=
  .next (logicClass true wb dst (s.operand dst wb ||| s.source src wb) s)

/-- BIT (R217): no write-back. -/
def execBit (src : Source) (wb : Width) (dst : Reg) (s : State) : Result :=
  .next (logicClass false wb dst (s.operand dst wb &&& s.source src wb) s)

/-- BIC (R218). -/
def execBic (src : Source) (wb : Width) (dst : Reg) (s : State) : Result :=
  .next (logicClass true wb dst (s.operand dst wb &&& ~~~(s.source src wb)) s)

/-- BIS (R219). -/
def execBis (src : Source) (wb : Width) (dst : Reg) (s : State) : Result :=
  .next (logicClass true wb dst (s.operand dst wb ||| s.source src wb) s)

end Sys2Proof.Machine
end

