-- ==== Sys2Proof/Machine/Branch.lean ====
section
/-! DEFINITION. E0 of the branch and branch-with-link instructions (41_branch.md R180 to R193). `off` is `DEC.off`, the
displacement less the pipeline correction. -/

namespace Sys2Proof.Machine

/-- A conditional branch: taken, `pc <- pc + DEC.off` and one squashed word; otherwise nothing (R182, R192). -/
def branchWhen (taken : Bool) (off : Word) (s : State) : Result :=
  .next (if taken then s.branchTo off else s)

/-- BL (R183): the link register receives `pc - 2` from the PC before the jump. -/
def execBl (off : Word) (s : State) : Result :=
  .next ((s.branchTo off).setX .r5 (s.pc - Config.branchCorrection))

/-- BEQ (R184). -/
def execBeq (off : Word) (s : State) : Result := branchWhen (pswZ s.psw) off s

/-- BNE (R185). -/
def execBne (off : Word) (s : State) : Result := branchWhen (!pswZ s.psw) off s

/-- BC (R186). -/
def execBc (off : Word) (s : State) : Result := branchWhen (pswC s.psw) off s

/-- BNC (R187). -/
def execBnc (off : Word) (s : State) : Result := branchWhen (!pswC s.psw) off s

/-- BN (R188). -/
def execBn (off : Word) (s : State) : Result := branchWhen (pswN s.psw) off s

/-- BGE (R189). -/
def execBge (off : Word) (s : State) : Result := branchWhen (pswN s.psw == pswV s.psw) off s

/-- BLT (R190). -/
def execBlt (off : Word) (s : State) : Result := branchWhen (pswN s.psw != pswV s.psw) off s

/-- BRA (R191). -/
def execBra (off : Word) (s : State) : Result := branchWhen true off s

end Sys2Proof.Machine
end

