-- ==== Sys2Proof/Machine/CondExec.lean ====
section
/-! DEFINITION. Conditional execution (45_cex.md R270 to R278): the window CEX opens in D0, its step, and CEX's E0. -/

namespace Sys2Proof.Machine

/-- What D0 does with a word inside a window (R273). -/
inductive Act where
  | run | skip
  deriving DecidableEq, Repr

/-- `open_window` (R271). -/
def openWindow (cc : Cond) (tc fc : BitVec 3) (psw : Word) : CexState :=
  { cc := cc
    tc := tc.setWidth 4
    fc := fc.setWidth 4
    status :=
      if tc = 0 ∧ fc = 0 then .disabled
      else if condHolds cc psw then .predicateTrue
      else .predicateFalse }

/-- One count used up: the true count while it lasts, then the false count (R273). -/
def useCount (c : CexState) : CexState :=
  if c.tc = 0 then { c with fc := c.fc - 1 } else { c with tc := c.tc - 1 }

/-- Whether the word runs: the true arm under a true predicate, the false arm under a false one (R273). -/
def windowAct (c : CexState) : Act :=
  match c.status with
  | .predicateTrue => if c.tc = 0 then .skip else .run
  | .predicateFalse => if c.tc = 0 then .run else .skip
  | .disabled => .run

/-- The window after one word: closed when both counts are used up (R273). -/
def windowNext (c : CexState) : CexState :=
  let d := useCount c
  if d.tc = 0 ∧ d.fc = 0 then { d with status := .disabled } else d

/-- `window_step` (R273), for a window that is open. -/
def windowStep (c : CexState) : Act × CexState := (windowAct c, windowNext c)

/-- CEX at E0: nothing, the window was opened in D0 (R274). The opening is `openWindow`, called by D0
(40_pipeline_step.md R137). -/
def execCex (_cc : Cond) (_tc _fc : BitVec 3) (s : State) : Result := .next s

end Sys2Proof.Machine
end

