-- ==== Sys2Proof/Machine/LoadStore.lean ====
section
/-! DEFINITION. E0 of the loads and stores (46_load_store.md R290 to R301). The data bank serves the request in M and a
load's value is written in E1 (Machine/Pipeline.lean). -/

namespace Sys2Proof.Machine

/-- LD (R297): address register `src`, data to `dst` (R291, R292, R294). -/
def execLd (prpo dec inc : Bool) (wb : Width) (src dst : Reg) (s : State) : Result :=
  .next ((s.adjustAddress src dec inc wb).postRead wb (indexedAddress prpo dec inc wb (s.x src)) dst)

/-- ST (R298): data from `src`, sampled before the update of the address register `dst` (R291, R292, R295). -/
def execSt (prpo dec inc : Bool) (wb : Width) (src dst : Reg) (s : State) : Result :=
  .next ((s.adjustAddress dst dec inc wb).postWrite wb (indexedAddress prpo dec inc wb (s.x dst)) (s.x src))

/-- LDR (R299): address register `src`, data to `dst` (R291, R293, R294). -/
def execLdr (off : Word) (wb : Width) (src dst : Reg) (s : State) : Result :=
  .next (s.postRead wb (s.relativeAddress src off) dst)

/-- STR (R300): data from `src`, address register `dst` (R291, R293, R295). -/
def execStr (off : Word) (wb : Width) (src dst : Reg) (s : State) : Result :=
  .next (s.postWrite wb (s.relativeAddress dst off) (s.x src))

end Sys2Proof.Machine
end

