-- ==== Sys2Proof/Machine/NopInvalid.lean ====
section
/-! DEFINITION. E0 of the no-op word and of the INVALID words (48_nop_invalid.md R330, R331). The report of an INVALID
word is made by D0 (Machine/Pipeline.lean). -/

namespace Sys2Proof.Machine

/-- An E0 that changes no register, flag, latch or hazard flag. -/
def noEffect (s : State) : Result := .next s

/-- NOP (R330). -/
def execNop (s : State) : Result := noEffect s

/-- INVALID, FN = 010: a no-op at E0 (R331). -/
def execInvalidFn2 (s : State) : Result := noEffect s

/-- INVALID, FN = 101: a no-op at E0 (R331). -/
def execInvalidFn5 (s : State) : Result := noEffect s

/-- INVALID, FN = 110: a no-op at E0 (R331). -/
def execInvalidFn6 (s : State) : Result := noEffect s

/-- INVALID, FN = 111: a no-op at E0 (R331). -/
def execInvalidFn7 (s : State) : Result := noEffect s

/-- INVALID, SEL = 100: a no-op at E0 (R331). -/
def execInvalidSel4 (s : State) : Result := noEffect s

/-- INVALID, SEL = 111: a no-op at E0 (R331). -/
def execInvalidSel7 (s : State) : Result := noEffect s

/-- INVALID, high byte 0x4E or 0x4F: a no-op at E0 (R331). -/
def execInvalidHigh4E (s : State) : Result := noEffect s

/-- INVALID, high byte 0x54 to 0x57: a no-op at E0 (R331). -/
def execInvalidHigh54 (s : State) : Result := noEffect s

end Sys2Proof.Machine
end

