-- ==== Sys2Proof/Machine/RegisterInit.lean ====
section
/-! DEFINITION. E0 of the register initialisation instructions (47_register_init.md R320 to R325). -/

namespace Sys2Proof.Machine

/-- MOVL (R321): the low byte, the high byte kept. -/
def execMovl (imm : Byte) (dst : Reg) (s : State) : Result :=
  .next (s.setX dst ((s.x dst).extractLsb' 8 8 ++ imm))

/-- MOVLZ (R322): the low byte, the high byte zero. -/
def execMovlz (imm : Byte) (dst : Reg) (s : State) : Result := .next (s.setX dst (0x00#8 ++ imm))

/-- MOVLS (R323): the low byte, the high byte all ones. -/
def execMovls (imm : Byte) (dst : Reg) (s : State) : Result := .next (s.setX dst (0xFF#8 ++ imm))

/-- MOVH (R324): the high byte, the low byte kept. -/
def execMovh (imm : Byte) (dst : Reg) (s : State) : Result :=
  .next (s.setX dst (imm ++ (s.x dst).extractLsb' 0 8))

end Sys2Proof.Machine
end

