-- ==== Sys2Proof/Machine/RegisterManip.lean ====
section
/-! DEFINITION. E0 of the moves, swaps and shifts (43_register_manipulation.md R240 to R246). -/

namespace Sys2Proof.Machine

/-- A right shift by one with `top` entering at the sign bit and bit 0 leaving into the carry (R243, R244). -/
def shiftRight (top : Bool) (wb : Width) (dst : Reg) (s : State) : State :=
  let d := s.operand dst wb
  let r := (BitVec.cons top d).extractLsb' 1 wb.bits
  (s.setPsw (flagsShift s.psw (d.getLsbD 0) r)).writeBack wb dst r

/-- MOV (R241). -/
def execMov (wb : Width) (src dst : Reg) (s : State) : Result :=
  .next (s.writeBack wb dst (s.operand src wb))

/-- SWAP (R242): both registers are read before either is written. -/
def execSwap (src dst : Reg) (s : State) : Result :=
  .next ((s.setX dst (s.x src)).setX src (s.x dst))

/-- SRA (R243). -/
def execSra (wb : Width) (dst : Reg) (s : State) : Result :=
  .next (shiftRight (s.operand dst wb).msb wb dst s)

/-- RRC (R244): the old carry enters at the top. -/
def execRrc (wb : Width) (dst : Reg) (s : State) : Result :=
  .next (shiftRight (pswC s.psw) wb dst s)

/-- SWPB (R245). -/
def execSwpb (dst : Reg) (s : State) : Result :=
  .next (s.setX dst ((s.x dst).extractLsb' 0 8 ++ (s.x dst).extractLsb' 8 8))

/-- SXT (R246). -/
def execSxt (dst : Reg) (s : State) : Result :=
  .next (s.setX dst (((s.x dst).extractLsb' 0 8).signExtend 16))

end Sys2Proof.Machine
end

