-- ==== Sys2Proof/Machine/Status.lean ====
section
/-! DEFINITION. E0 of the CPU status instructions (44_status.md R260 to R262). -/

namespace Sys2Proof.Machine

/-- SETCC (R261): `PSW <- PSW | zext_16(MASK)`. -/
def execSetcc (imm : Byte) (s : State) : Result := .next (s.setPsw (s.psw ||| imm.setWidth 16))

/-- CLRCC (R262): `PSW <- PSW & ~zext_16(MASK)`. -/
def execClrcc (imm : Byte) (s : State) : Result := .next (s.setPsw (s.psw &&& ~~~(imm.setWidth 16)))

end Sys2Proof.Machine
end

