-- ==== Sys2Proof/Machine/Dispatch.lean ====
section
/-! DEFINITION. The dispatch of E0 to the meaning of the decoded instruction (40_pipeline_step.md R138). -/

namespace Sys2Proof.Machine

/-- E0 performs the paragraph of the decoded instruction's rule (40_pipeline_step.md R138). -/
def exec (i : Instr) (s : State) : Host.Outcome State Fault Refusal :=
  match i with
  | .nop => Sys2Proof.Machine.execNop s
  | .bl off => Sys2Proof.Machine.execBl off s
  | .beq off => Sys2Proof.Machine.execBeq off s
  | .bne off => Sys2Proof.Machine.execBne off s
  | .bc off => Sys2Proof.Machine.execBc off s
  | .bnc off => Sys2Proof.Machine.execBnc off s
  | .bn off => Sys2Proof.Machine.execBn off s
  | .bge off => Sys2Proof.Machine.execBge off s
  | .blt off => Sys2Proof.Machine.execBlt off s
  | .bra off => Sys2Proof.Machine.execBra off s
  | .add src wb dst => Sys2Proof.Machine.execAdd src wb dst s
  | .addc src wb dst => Sys2Proof.Machine.execAddc src wb dst s
  | .sub src wb dst => Sys2Proof.Machine.execSub src wb dst s
  | .subc src wb dst => Sys2Proof.Machine.execSubc src wb dst s
  | .dadd src wb dst => Sys2Proof.Machine.execDadd src wb dst s
  | .cmp src wb dst => Sys2Proof.Machine.execCmp src wb dst s
  | .xor src wb dst => Sys2Proof.Machine.execXor src wb dst s
  | .and src wb dst => Sys2Proof.Machine.execAnd src wb dst s
  | .or src wb dst => Sys2Proof.Machine.execOr src wb dst s
  | .bit src wb dst => Sys2Proof.Machine.execBit src wb dst s
  | .bic src wb dst => Sys2Proof.Machine.execBic src wb dst s
  | .bis src wb dst => Sys2Proof.Machine.execBis src wb dst s
  | .mov wb src dst => Sys2Proof.Machine.execMov wb src dst s
  | .swap src dst => Sys2Proof.Machine.execSwap src dst s
  | .sra wb dst => Sys2Proof.Machine.execSra wb dst s
  | .rrc wb dst => Sys2Proof.Machine.execRrc wb dst s
  | .swpb dst => Sys2Proof.Machine.execSwpb dst s
  | .sxt dst => Sys2Proof.Machine.execSxt dst s
  | .setcc imm => Sys2Proof.Machine.execSetcc imm s
  | .clrcc imm => Sys2Proof.Machine.execClrcc imm s
  | .cex c tc fc => Sys2Proof.Machine.execCex c tc fc s
  | .ld prpo dec inc wb src dst => Sys2Proof.Machine.execLd prpo dec inc wb src dst s
  | .st prpo dec inc wb src dst => Sys2Proof.Machine.execSt prpo dec inc wb src dst s
  | .movl imm dst => Sys2Proof.Machine.execMovl imm dst s
  | .movlz imm dst => Sys2Proof.Machine.execMovlz imm dst s
  | .movls imm dst => Sys2Proof.Machine.execMovls imm dst s
  | .movh imm dst => Sys2Proof.Machine.execMovh imm dst s
  | .ldr off wb src dst => Sys2Proof.Machine.execLdr off wb src dst s
  | .str off wb src dst => Sys2Proof.Machine.execStr off wb src dst s
  | .invalidFn2 => Sys2Proof.Machine.execInvalidFn2 s
  | .invalidFn5 => Sys2Proof.Machine.execInvalidFn5 s
  | .invalidFn6 => Sys2Proof.Machine.execInvalidFn6 s
  | .invalidFn7 => Sys2Proof.Machine.execInvalidFn7 s
  | .invalidSel4 => Sys2Proof.Machine.execInvalidSel4 s
  | .invalidSel7 => Sys2Proof.Machine.execInvalidSel7 s
  | .invalidHigh4E => Sys2Proof.Machine.execInvalidHigh4E s
  | .invalidHigh54 => Sys2Proof.Machine.execInvalidHigh54 s

end Sys2Proof.Machine
end

