-- ==== Sys2Proof/Machine/Pipeline.lean ====
section
/-! DEFINITION. The stages of a half-cycle, their order, and the checks at its end (40_pipeline_step.md R130 to R153).
`p` is MISALIGNED_WORD (20_memory.md R65); the machine runs it at `misalignedWord`. -/

namespace Sys2Proof.Machine

/-! The even half-cycle: M, F0, D0 (R135). -/

/-- M: the data bank serves the pending request (R141). A read leaves DCTRL for E1, a write clears it. -/
def stageM (p : Config.MisalignedWord) (s : State) : Result :=
  match s.dctrl with
  | .none => .next s
  | .rdW =>
    if wordAccessFaults p s.dmar then .fault .misalignedData
    else .next { s with dmbr := Memory.readAt s.dmem .word s.dmar }
  | .rdB => .next { s with dmbr := Memory.readAt s.dmem .byte s.dmar }
  | .wrW =>
    if wordAccessFaults p s.dmar then .fault .misalignedData
    else .next { s with dmem := Memory.writeAt s.dmem .word s.dmar s.dmbr, dctrl := .none }
  | .wrB => .next { s with dmem := Memory.writeAt s.dmem .byte s.dmar s.dmbr, dctrl := .none }

/-- F0: `IMAR <- pc`, then `pc <- pc + 2` (R136; 10_state.md R26). -/
def stageF0 (s : State) : State := { s.setX .r7 (s.pc + 2) with imar := s.pc }

/-- D0 substitutes NOP: the matching E0 will do nothing (R137, R143). -/
def bubbleDecode (s : State) : State := { s with dec := .nop, executeBubble := true, invalid := .none }

/-- The window a decoded CEX opens, on the PSW as it stands in this D0; another instruction leaves the window as it
was (R137; 45_cex.md R271, R275). -/
def windowAfterDecode (i : Instr) (c : CexState) (psw : Word) : CexState :=
  match i with
  | .cex cc tc fc => openWindow cc tc fc psw
  | _ => c

/-- D0 decodes IR, with the side effects of decoding: the report of an INVALID word and the window of a CEX (R137;
60_exceptions.md R341). -/
def acceptDecode (s : State) : State :=
  let i := decode s.ir
  { s with
    dec := i
    invalid := if i.isInvalid then some s.ir else .none
    cex := windowAfterDecode i s.cex s.psw }

/-- D0 (R137): a squash after a taken branch is tested first, then an open window, then the word is decoded. -/
def stageD0 (s : State) : State :=
  if s.decodeBubble then { bubbleDecode s with decodeBubble := false }
  else if s.cex.status = .disabled then acceptDecode s
  else
    match (windowStep s.cex).1 with
    | .skip => bubbleDecode { s with cex := (windowStep s.cex).2 }
    | .run => acceptDecode { s with cex := (windowStep s.cex).2 }

/-- The stages of an even half-cycle, in order (R135). -/
def evenStages (p : Config.MisalignedWord) (s : State) : Result :=
  andThen (stageM p s) fun t => .next (stageD0 (stageF0 t))

/-! The odd half-cycle: F1, E1, E0 (R135, R142). -/

/-- F1: `IMBR <- IMemRead(IMAR)`, then `IR <- IMBR` (R139; 20_memory.md R66). The output `invalid` is 0 in an odd
half-cycle (60_exceptions.md R341). -/
def stageF1 (p : Config.MisalignedWord) (s : State) : Result :=
  if wordAccessFaults p s.imar then .fault .misalignedFetch
  else
    let w := Memory.readWord s.imem s.imar
    .next { s with imbr := w, ir := w, invalid := .none }

/-- E1: the write-back of a load whose value M has returned; a byte load keeps the high byte (R140; 46_load_store.md
R296). -/
def stageE1 (s : State) : State :=
  match s.dctrl with
  | .rdW => { s.writeBack .word s.lsd (lowBits .word s.dmbr) with dctrl := .none }
  | .rdB => { s.writeBack .byte s.lsd (lowBits .byte s.dmbr) with dctrl := .none }
  | .none => s
  | .wrW => s
  | .wrB => s

/-- E0: a bubble does nothing but clear its flag; otherwise the decoded instruction is performed (R138). -/
def stageE0 (s : State) : Result :=
  if s.executeBubble then .next { s with executeBubble := false } else exec s.dec s

/-- The stages of an odd half-cycle, in order, E1 before E0 (R135, R142). -/
def oddStages (p : Config.MisalignedWord) (s : State) : Result :=
  andThen (stageF1 p s) fun t => stageE0 (stageE1 t)

/-! The end of a half-cycle. -/

/-- `clock <- clock + 1` (R146). -/
def tickClock (s : State) : State := { s with ctl := { s.ctl with clock := s.ctl.clock + 1 } }

/-- The checks after the clock increment, in order, the first that holds deciding (R147). `odd` is the parity of the
half-cycle just performed. -/
def endChecks (odd : Bool) (s : State) : State :=
  let stepping := s.ctl.singleStep || s.ctl.stepOnce
  if s.ctl.stopReq then s.halt
  else if stepping && s.ctl.stopOnClock then s.suspend
  else if stepping && !s.ctl.stopOnClock && odd then s.suspend
  else if odd && (s.pc == s.ctl.breakpoint) then s.suspend
  else if s.ctl.userInterrupt then s.suspend
  else s

/-- The half-cycle is odd when `clock[0] = 1` at its start (R131). -/
def oddClock (s : State) : Bool := s.ctl.clock % 2 == 1

/-- One half-cycle: the stages of its parity, the clock, the checks (R135, R146, R147). -/
def halfCycle (p : Config.MisalignedWord) (s : State) : Result :=
  andThen (if oddClock s then oddStages p s else evenStages p s) fun t => .next (endChecks (oddClock s) (tickClock t))

/-- A tick: a half-cycle while Running, nothing in Idle, Suspended and Halted (R132; 10_state.md R50). -/
def tick (p : Config.MisalignedWord) (s : State) : Result :=
  match s.ctl.fsm with
  | .running => halfCycle p s
  | .idle => .next s
  | .suspended => .next s
  | .halted => .next s

/-! Filling the pipeline with one word, for `State.withFetchWord`. -/

/-- The pipeline with the word at the program counter about to execute: the bubbles, the window and the pending events
out of the way, the controller Running at an odd half-cycle, and the F0, F1, F0 and D0 that bring that word to DEC
performed (R150; 70_reset_and_hazards.md R382). -/
def fillPipeline (s : State) : State :=
  let s :=
    { s with
      decodeBubble := false
      executeBubble := false
      cex := CexState.closed
      inputs := .tick :: s.inputs
      ctl := { s.ctl with fsm := .running, hasStarted := true, clock := 2 * (s.ctl.clock / 2) + 3 } }
  let s := stageF0 s
  let w := Memory.readWord s.imem s.imar
  stageD0 (stageF0 { s with imbr := w, ir := w, invalid := .none })

end Sys2Proof.Machine
end

