-- ==== Sys2Proof/Machine/HostPort.lean ====
section
/-! DEFINITION. The host's side: the commands, the input ports and the outputs (10_state.md R50 to R53;
40_pipeline_step.md R133, R134, R148, R149). -/

namespace Sys2Proof.Machine

/-- The host's reply port set. -/
def State.answer (s : State) (r : Reply) : State := { s with reply := r }

/-- `raise_interrupt()` and the `irq` port: `user_interrupt <- 1` (10_state.md R52; 60_exceptions.md R344). -/
def State.raiseInterrupt (s : State) : State := { s with ctl := { s.ctl with userInterrupt := true } }

/-- `stop()`: `stop_req <- 1`, consulted at the end of a half-cycle (10_state.md R45, R52; 40_pipeline_step.md R147). -/
def State.requestStop (s : State) : State := { s with ctl := { s.ctl with stopReq := true } }

/-- The bank a host memory command names (10_state.md R52). -/
def State.bankOf (s : State) : MemBank → Memory
  | .instruction => s.imem
  | .data => s.dmem

/-- A host write to a memory bank (10_state.md R52). -/
def State.hostWrite (s : State) (bank : MemBank) (wb : Width) (a v : Word) : State :=
  match bank with
  | .instruction => { s with imem := Memory.writeAt s.imem wb a v }
  | .data => { s with dmem := Memory.writeAt s.dmem wb a v }

/-- A host read of a memory bank (10_state.md R52). -/
def State.hostRead (s : State) (bank : MemBank) (wb : Width) (a : Word) : Word :=
  Memory.readAt (s.bankOf bank) wb a

/-- A command in Idle or Suspended; `enter` is what `run()` and `step()` do there (10_state.md R52, R53;
40_pipeline_step.md R133, R134, R148, R149). -/
def acceptCommand (enter : Bool → State) (s : State) : Command → State
  | .setStartAddress a => { s with ctl := { s.ctl with startAddress := a } }
  | .run => enter false
  | .step => enter true
  | .stop => s.requestStop.halt
  | .setBreakpoint a => { s with ctl := { s.ctl with breakpoint := a } }
  | .toggleSingleStep => { s with ctl := { s.ctl with singleStep := !s.ctl.singleStep } }
  | .toggleStopOnClock => { s with ctl := { s.ctl with stopOnClock := !s.ctl.stopOnClock } }
  | .readRegister r => s.answer (.value (s.x r))
  | .writeRegister r v => s.setX r v
  | .readMemory bank wb a => s.answer (.value (s.hostRead bank wb a))
  | .writeMemory bank wb a v => s.hostWrite bank wb a v
  | .clearPsw => s.setPsw 0
  | .raiseInterrupt => s.raiseInterrupt

/-- A command while Running: only `raise_interrupt()` and `stop()` are accepted; the others are rejected and change
no state (10_state.md R53; 40_pipeline_step.md R133; 93_implementation_defined.md U4). -/
def runningCommand (s : State) : Command → State
  | .raiseInterrupt => s.raiseInterrupt
  | .stop => s.requestStop
  | .setStartAddress _ | .run | .step | .setBreakpoint _ | .toggleSingleStep | .toggleStopOnClock
  | .readRegister _ | .writeRegister _ _ | .readMemory _ _ _ | .writeMemory _ _ _ _ | .clearPsw =>
    s.answer .rejected

/-- A command in Halted: `raise_interrupt()` and `stop()` arrive at any time and are recorded in their flags
(10_state.md R52, R53; 60_exceptions.md R344); no other command changes the state, and none leaves Halted; it can still
be read (40_pipeline_step.md R133, R149). -/
def haltedCommand (s : State) : Command → State
  | .readRegister r => s.answer (.value (s.x r))
  | .readMemory bank wb a => s.answer (.value (s.hostRead bank wb a))
  | .raiseInterrupt => s.raiseInterrupt
  | .stop => s.requestStop
  | .setStartAddress _ | .run | .step | .setBreakpoint _ | .toggleSingleStep | .toggleStopOnClock
  | .writeRegister _ _ | .writeMemory _ _ _ _ | .clearPsw => s.answer .rejected

/-- A host command, by the controller's state (10_state.md R53; 40_pipeline_step.md R133). The reply of an earlier
command is dropped first. -/
def hostCommand (c : Command) (s : State) : State :=
  let s := s.answer .none
  match s.ctl.fsm with
  | .idle => acceptCommand s.start s c
  | .suspended => acceptCommand s.resume s c
  | .running => runningCommand s c
  | .halted => haltedCommand s c

/-- One event at an input port (10_state.md R50). -/
def inputEvent (p : Config.MisalignedWord) (e : Input) (s : State) : Result :=
  match e with
  | .tick => tick p s
  | .rst => .next s.resetBlock
  | .irq => .next s.raiseInterrupt
  | .cmd c => .next (hostCommand c s)

/-- The next event: the first one waiting, or a tick when none is. -/
def advance (p : Config.MisalignedWord) (s : State) : Result :=
  match s.inputs with
  | [] => tick p s
  | e :: rest => inputEvent p e { s with inputs := rest }

/-- The output ports (10_state.md R50). -/
structure Outputs where
  imar : Word
  dmar : Word
  dctrl : Dctrl
  dmbrOut : Word
  invalid : Option Word
  fsm : Fsm
  deriving DecidableEq, Repr

/-- The values at the output ports (10_state.md R50, R51). -/
def State.outputs (s : State) : Outputs :=
  { imar := s.imar, dmar := s.dmar, dctrl := s.dctrl, dmbrOut := s.dmbr, invalid := s.invalid, fsm := s.ctl.fsm }

end Sys2Proof.Machine
end

