-- ==== Sys2Proof/Machine/Step.lean ====
section
/-! DEFINITION. One step of the machine: one event at its input ports, a tick performing one half-cycle. -/

namespace Sys2Proof.Machine

/-- One step, at the spec's value of MISALIGNED_WORD (00_scope.md R7; 40_pipeline_step.md R135). -/
def step (s : State) : Host.Outcome State Fault Refusal := advance misalignedWord s

/-- The state with the word loaded in the instruction bank at the program counter and brought to the decode latch, so
that the next step is the odd half-cycle whose E0 executes it. -/
def State.withFetchWord (s : State) (nbits w : Nat) : State :=
  fillPipeline { s with imem := Memory.writeWord s.imem s.pc (BitVec.ofNat 16 (w % 2 ^ nbits)) }

end Sys2Proof.Machine
end

