-- ==== Sys2Proof/Machine/Sequential.lean ====
section
/-! DEFINITION. The sequential view of 40_pipeline_step.md R151: one instruction at a time, no pipeline. It is the
machine a program sees that never redirects R7 by a non-branch instruction; `step` does not use it. -/

namespace Sys2Proof.Machine

/-- The state of the sequential machine. `regs.r7` is `apc`, the address of the instruction being executed (R151: in
this view `x[7]` is not a stored register). -/
structure SeqState where
  regs : Bank
  bank1 : Bank
  psw : Word
  cex : CexState
  imem : Memory
  dmem : Memory
  /-- the word the latest step reported as INVALID, if any -/
  report : Option Word
  deriving DecidableEq, Repr

/-- The state an instruction executes in: `x[7]` reads as `apc + 4`, no request is pending (R151). -/
def SeqState.asState (q : SeqState) : State :=
  { State.reset with
    bank0 := q.regs.set .r7 (q.regs.r7 + 4), bank1 := q.bank1, psw := q.psw, imem := q.imem, dmem := q.dmem }

/-- The pending request served and a load written back: M, then E1 (R140, R141, R151). -/
def settle (s : State) : State :=
  match stageM .truncate s with
  | .next t => stageE1 t
  | .fault _ => s
  | .refused _ => s

/-- `execute d completely` of R151, and the next `apc`: the branch target when a branch is taken, `apc + 2` otherwise. -/
def SeqState.perform (q : SeqState) (i : Instr) : SeqState :=
  match exec i q.asState with
  | .next t =>
    let u := settle t
    { q with
      regs := u.bank0.set .r7 (if t.decodeBubble then t.pc else q.regs.r7 + 2)
      psw := u.psw
      dmem := u.dmem }
  | .fault _ => q
  | .refused _ => q

/-- The step over a word that the window skips (R151). -/
def SeqState.skip (q : SeqState) : SeqState := { q with regs := q.regs.set .r7 (q.regs.r7 + 2), report := none }

/-- The step of a word that runs: decode, report, open a window, execute (R151). -/
def SeqState.runWord (q : SeqState) : SeqState :=
  let w := Memory.readWord q.imem q.regs.r7
  let i := decode w
  SeqState.perform
    { q with cex := windowAfterDecode i q.cex q.psw, report := if i.isInvalid then some w else none } i

/-- One turn of the loop of R151. -/
def SeqState.next (q : SeqState) : SeqState :=
  if q.cex.status = .disabled then q.runWord
  else
    match windowAct q.cex with
    | .skip => SeqState.skip { q with cex := windowNext q.cex }
    | .run => SeqState.runWord { q with cex := windowNext q.cex }

/-- The sequential state a pipeline state stands for at the start of an even half-cycle: the pending request settled,
and `apc` the address of the word to be decoded next, which after a taken branch is the branch target. -/
def State.sequential (s : State) : SeqState :=
  { regs := (settle s).bank0.set .r7 (if s.decodeBubble then s.pc else s.pc - 2)
    bank1 := s.bank1
    psw := s.psw
    cex := s.cex
    imem := s.imem
    dmem := (settle s).dmem
    report := none }

/-- The instruction writes R7 at its E0 and is no branch: R7 is its destination, either operand of SWAP, or the address
register that an indexed load or store updates (70_reset_and_hazards.md R392). -/
def writesPcAtE0 : Instr → Bool
  | .add _ _ d | .addc _ _ d | .sub _ _ d | .subc _ _ d | .dadd _ _ d | .xor _ _ d | .and _ _ d | .or _ _ d
  | .bic _ _ d | .bis _ _ d | .mov _ _ d | .sra _ d | .rrc _ d | .swpb d | .sxt d | .movl _ d | .movlz _ d
  | .movls _ d | .movh _ d => d == .r7
  | .swap a d => a == .r7 || d == .r7
  | .ld _ dec inc wb a _ | .st _ dec inc wb _ a => a == .r7 && addressAdjust dec inc wb != 0
  | .nop | .bl _ | .beq _ | .bne _ | .bc _ | .bnc _ | .bn _ | .bge _ | .blt _ | .bra _ | .cmp _ _ _ | .bit _ _ _
  | .setcc _ | .clrcc _ | .cex _ _ _ | .ldr _ _ _ _ | .str _ _ _ _ | .invalidFn2 | .invalidFn5 | .invalidFn6
  | .invalidFn7 | .invalidSel4 | .invalidSel7 | .invalidHigh4E | .invalidHigh54 => false

/-- The instruction loads into R7 (70_reset_and_hazards.md R393). -/
def loadsPc : Instr → Bool
  | .ld _ _ _ _ _ d | .ldr _ _ _ d => d == .r7
  | .nop | .bl _ | .beq _ | .bne _ | .bc _ | .bnc _ | .bn _ | .bge _ | .blt _ | .bra _ | .add _ _ _ | .addc _ _ _
  | .sub _ _ _ | .subc _ _ _ | .dadd _ _ _ | .cmp _ _ _ | .xor _ _ _ | .and _ _ _ | .or _ _ _ | .bit _ _ _
  | .bic _ _ _ | .bis _ _ _ | .mov _ _ _ | .swap _ _ | .sra _ _ | .rrc _ _ | .swpb _ | .sxt _ | .setcc _ | .clrcc _
  | .cex _ _ _ | .st _ _ _ _ _ _ | .movl _ _ | .movlz _ _ | .movls _ _ | .movh _ _ | .str _ _ _ _ | .invalidFn2
  | .invalidFn5 | .invalidFn6 | .invalidFn7 | .invalidSel4 | .invalidSel7 | .invalidHigh4E | .invalidHigh54 => false

/-- The instruction names R7 as a destination of a non-branch, as an address register it updates, or loads into it: the
programs that R151 leaves out. -/
def redirectsPc (i : Instr) : Bool := writesPcAtE0 i || loadsPc i

end Sys2Proof.Machine
end

