-- ==== Sys2Proof/Safety.lean ====
section
/-! DEFINITION. What the statements call a sound machine state: the invariants the spec gives, and the conditions under
which a program sees the sequential machine. -/

namespace Sys2Proof.Machine

/-- The invariant of the conditional-execution state: `Disabled` exactly when both counts are 0 (45_cex.md R270), and
the counts at most 7, the most an instruction supplies (10_state.md R44). -/
def cexSound (c : CexState) : Prop :=
  (c.status = .disabled ↔ c.tc = 0 ∧ c.fc = 0) ∧ c.tc.toNat ≤ 7 ∧ c.fc.toNat ≤ 7

/-- The invariant of the hazard flags and the decode latch: `executeBubble` is set only with NOP in DEC, each flag is
clear where its consumer has run, and DEC holds an instruction that some word encodes (40_pipeline_step.md R143). -/
def hazardSound (s : State) : Prop :=
  (s.executeBubble = true → s.dec = .nop) ∧ (oddClock s = true → s.decodeBubble = false) ∧
  (oddClock s = false → s.executeBubble = false) ∧ WellFormed s.dec

/-- The invariant of the controller: Idle is the state before the first start, a one-shot step lasts no longer than the
run it started, and only a stop request leads to Halted (40_pipeline_step.md R132, R133, R134, R147). -/
def controllerSound (c : Controller) : Prop :=
  (c.fsm = .idle → c.clock = 0 ∧ c.hasStarted = false) ∧ (c.fsm = .running → c.hasStarted = true) ∧
  (c.fsm = .suspended → c.hasStarted = true ∧ c.stepOnce = false) ∧ (c.fsm = .idle → c.stepOnce = false) ∧
  (c.fsm = .halted → c.stopReq = true)

/-- A sound state: canonical memory banks, the constant bank intact (10_state.md R22), PSW bits 15 to 5 clear
(R30, R33), no write request pending at the start of an odd half-cycle (40_pipeline_step.md R141), and the three
invariants above. -/
def Sound (s : State) : Prop :=
  Memory.wf s.imem = true ∧ Memory.wf s.dmem = true ∧ s.bank1 = Bank.constants ∧ s.psw &&& 0xFFE0#16 = 0#16 ∧
  (oddClock s = true → s.dctrl ≠ .wrW ∧ s.dctrl ≠ .wrB) ∧ cexSound s.cex ∧ hazardSound s ∧ controllerSound s.ctl

/-- Nothing is due that would suspend or stop the controller but its breakpoint, and no event waits
(40_pipeline_step.md R147). -/
def undisturbed (s : State) : Prop :=
  s.inputs = [] ∧ s.ctl.fsm = .running ∧ s.ctl.singleStep = false ∧ s.ctl.stepOnce = false ∧ s.ctl.stopReq = false ∧
  s.ctl.userInterrupt = false

/-- The start of an even half-cycle of a program that does not redirect R7 other than by branches: no bubble waits for
E0, IR holds the word before the program counter unless it is to be squashed, and no load into R7 is pending
(40_pipeline_step.md R150, R151). -/
def cycleStart (s : State) : Prop :=
  oddClock s = false ∧ s.executeBubble = false ∧
  (s.decodeBubble = false → s.ir = Memory.readWord s.imem (s.pc - 2)) ∧
  (s.dctrl = .rdW ∨ s.dctrl = .rdB → s.lsd ≠ .r7)

/-- A word request or a fetch that the next half-cycle makes has an even address (20_memory.md R64, R65). -/
def accessesAligned (s : State) : Prop :=
  (s.dctrl = .rdW ∨ s.dctrl = .wrW → s.dmar.getLsbD 0 = false) ∧ s.imar.getLsbD 0 = false

/-! Terms the statements about instructions are written in. `s` is the state at the start of E0, `t` the next state. -/

/-- Register `r` of `t` holds `v`, every other register of bank 0 what it held in `s`. -/
def onlyRegister (s t : State) (r : Reg) (v : Word) : Prop :=
  t.x r = v ∧ ∀ q, q ≠ r → t.x q = s.x q

/-- A W-bit result `v` is written to `r`: a byte result leaves the high byte (42_arithmetic_logic.md R200); every other
register of bank 0 holds what it held. -/
def writesResult (s t : State) (wb : Width) (r : Reg) (v : Nat) : Prop :=
  (t.operand r wb).toNat = v ∧ (wb = .byte → (t.x r).extractLsb' 8 8 = (s.x r).extractLsb' 8 8) ∧
  ∀ q, q ≠ r → t.x q = s.x q

/-- The PSW bits outside the list are as they were. -/
def otherFlagsKept (written : List Nat) (p q : Word) : Prop :=
  ∀ n, n ∉ written → q.getLsbD n = p.getLsbD n

/-- Nothing but registers of bank 0 and the PSW differs: every latch, the hazard flags, the window, the controller and
every byte of both memory banks are as they were. -/
def onlyRegistersAndPsw (s t : State) : Prop := t = { s with bank0 := t.bank0, psw := t.psw }

/-- What an add-class instruction does (42_arithmetic_logic.md R200 to R203): with `d` the destination operand, `b` the
source operand, complemented for a subtraction, and the carry-in, the exact sums `d + b + cin`, unsigned and signed,
give the result and the four flags. -/
def addsAs (mk : Source → Width → Reg → Instr) (complement keep : Bool) (cin : Word → Bool) : Prop :=
  ∀ (src : Source) (wb : Width) (dst : Reg) (s : State), ∃ t,
    exec (mk src wb dst) s = .next t ∧
    let d := s.operand dst wb
    let b := if complement then ~~~(s.source src wb) else s.source src wb
    let sum := d.toNat + b.toNat + (cin s.psw).toNat
    let exact := d.toInt + b.toInt + (cin s.psw).toNat
    let r := sum % 2 ^ wb.bits
    (if keep then writesResult s t wb dst r else t.bank0 = s.bank0) ∧
    pswC t.psw = decide (2 ^ wb.bits ≤ sum) ∧
    pswV t.psw = decide (exact < -(2 ^ (wb.bits - 1)) ∨ 2 ^ (wb.bits - 1) ≤ exact) ∧
    pswZ t.psw = decide (r = 0) ∧ pswN t.psw = decide (2 ^ (wb.bits - 1) ≤ r) ∧
    otherFlagsKept [0, 1, 2, 4] s.psw t.psw ∧ onlyRegistersAndPsw s t

/-- What a logical instruction does, bit by bit (42_arithmetic_logic.md R200, R202, R214 to R219). -/
def combinesAs (mk : Source → Width → Reg → Instr) (f : Bool → Bool → Bool) (keep : Bool) : Prop :=
  ∀ (src : Source) (wb : Width) (dst : Reg) (s : State), ∃ t,
    exec (mk src wb dst) s = .next t ∧
    let bit := fun n => f ((s.x dst).getLsbD n) ((s.sourceWord src).getLsbD n)
    (if keep then
      (∀ n, n < wb.bits → (t.x dst).getLsbD n = bit n) ∧
      (∀ n, wb.bits ≤ n → (t.x dst).getLsbD n = (s.x dst).getLsbD n) ∧ ∀ q, q ≠ dst → t.x q = s.x q
    else t.bank0 = s.bank0) ∧
    pswZ t.psw = decide (∀ n, n < wb.bits → bit n = false) ∧ pswN t.psw = bit (wb.bits - 1) ∧
    otherFlagsKept [1, 2] s.psw t.psw ∧ onlyRegistersAndPsw s t

/-- What a conditional branch with this condition code does when the word is fetched from `a`: the decoding of its word
and its E0, where `x[7]` is `a + 4` (41_branch.md R181, R182, R192). -/
def branchesAs (code : BitVec 3) (mk : Word → Instr) (taken : Word → Bool) : Prop :=
  ∀ (o : BitVec 10) (a : Word) (s : State), s.pc = a + 4 →
    let disp := (o ++ 0#1).signExtend 16
    decode (0b001#3 ++ code ++ o) = mk (disp - 2) ∧
    exec (mk (disp - 2)) s =
      .next (if taken s.psw then { s with bank0 := s.bank0.set .r7 (a + 2 + disp), decodeBubble := true } else s)

/-- The `i`-th group of four bits. -/
def nibble (v i : Nat) : Nat := v / 16 ^ i % 16

/-- Every one of the `n` digits is 0 to 9. -/
def decimalValid (n v : Nat) : Prop := ∀ i, i < n → nibble v i ≤ 9

/-- The number that `n` decimal digits stand for. -/
def decimalValue : Nat → Nat → Nat
  | 0, _ => 0
  | n + 1, v => v % 16 + 10 * decimalValue n (v / 16)

/-- The adjustment of the address register in bytes (46_load_store.md R292). -/
def adjustment (dec inc : Bool) (wb : Width) : Int :=
  let step : Int := match wb with | .word => 2 | .byte => 1
  if inc && !dec then step else if dec && !inc then -step else 0

/-- What `n` words meet at an open window, and the window after them (45_cex.md R273). -/
def windowRun : Nat → CexState → List Act × CexState
  | 0, c => ([], c)
  | n + 1, c =>
    let (act, d) := windowStep c
    let (acts, e) := windowRun n d
    (act :: acts, e)

/-- The state E0 meets in an odd half-cycle: what F1 and E1 leave (40_pipeline_step.md R135, R139, R140). -/
def State.atExecute (s : State) : State :=
  stageE1 { s with
    imbr := Memory.readWord s.imem s.imar, ir := Memory.readWord s.imem s.imar, invalid := none }

/-- A load into R7 waits for its E1 (40_pipeline_step.md R140). -/
def State.loadsIntoPc (s : State) : Bool := (s.dctrl == .rdW || s.dctrl == .rdB) && s.lsd == .r7

/-- LD or LDR of width `wb` into `dst`, and the effective address it has when its E0 meets `s`
(46_load_store.md R291 to R293). -/
def isLoad (i : Instr) (wb : Width) (dst : Reg) (s : State) (ea : Word) : Prop :=
  (∃ prpo dec inc ra, i = .ld prpo dec inc wb ra dst ∧ ea = indexedAddress prpo dec inc wb (s.x ra)) ∨
  (∃ off ra, i = .ldr off wb ra dst ∧ ea = s.relativeAddress ra off)

/-- ST or STR of width `wb` from `src`, and the effective address it has when its E0 meets `s`
(46_load_store.md R291 to R293). -/
def isStore (i : Instr) (wb : Width) (src : Reg) (s : State) (ea : Word) : Prop :=
  (∃ prpo dec inc ra, i = .st prpo dec inc wb src ra ∧ ea = indexedAddress prpo dec inc wb (s.x ra)) ∨
  (∃ off ra, i = .str off wb src ra ∧ ea = s.relativeAddress ra off)

/-- `n` executions of an instruction, one after the other. -/
def execTimes (i : Instr) : Nat → State → Result
  | 0, s => .next s
  | n + 1, s => andThen (exec i s) (execTimes i n)

end Sys2Proof.Machine
end

