-- ==== Sys2Proof/Certificates/Slice0/Obligations.lean ====
section
/-! DEFINITION. The statements for the provers. Each docstring names the rules of spec/ it formalises. -/

open Sys2Proof Sys2Proof.Machine

/-! Encoding. -/

/-- Decoding the encoding of a well-formed instruction gives it back, as a word and as bytes in the instruction bank
(30_encoding.md R91, R110, R117; 20_memory.md R63). -/
def Obligations.DecodeInvertsEncode : Prop :=
  ∀ i : Instr, WellFormed i →
    decode (encode i) = i ∧ ∀ rest, decodeBytes (encodeBytes i ++ rest) = .ok (i, rest)

/-- Encoding a decoded word gives the word back, its ignored bits 0 (30_encoding.md R117, which the spec derives from
R110; R112). For the INVALID words of R111 the ignored bits are those outside the row's mask: that they are dropped is
the model's inference (assumption log entry 17, DEDUCED). -/
def Obligations.ReencodingClearsOnlyIgnoredBits : Prop :=
  ∀ w : Word, encode (decode w) = w &&& ~~~(ignoredBits (decode w))

/-- A word matches the row of the opcode map its decoding belongs to, and no other row once 0x0000 is taken as NOP
(30_encoding.md R91, R110, R111). -/
def Obligations.RowsPartitionTheWords : Prop :=
  ∀ w : Word, w &&& rowMask (decode w) = rowMatch (decode w) ∧
    ∀ j : Instr, (w = 0 → j = .nop) → w &&& rowMask j = rowMatch j →
      rowMask j = rowMask (decode w) ∧ rowMatch j = rowMatch (decode w)

/-- Every word decodes to a well-formed instruction (30_encoding.md R91, R105, R106; 44_status.md R260). -/
def Obligations.EveryWordDecodesWellFormed : Prop := ∀ w : Word, WellFormed (decode w)

/-- The INVALID words are those of the eight rows of R111. -/
def Obligations.InvalidWordsAreTheEightRows : Prop :=
  ∀ w : Word, (decode w).isInvalid = true ↔
    (w &&& 0xFFB8 = 0x4D10 ∨ w &&& 0xFFB8 = 0x4D28 ∨ w &&& 0xFFB8 = 0x4D30 ∨ w &&& 0xFFB8 = 0x4D38 ∨
      w &&& 0xFFE0 = 0x4D80 ∨ w &&& 0xFFE0 = 0x4DE0 ∨ w &&& 0xFE00 = 0x4E00 ∨ w &&& 0xFC00 = 0x5400)

/-- Sample words of the families, written out from the spec's encodings. -/
def Obligations.SampleWordsDecode : Prop :=
  decode 0x0007 = .bl 0x000C ∧ decode 0x27FD = .bne 0xFFF8 ∧ decode 0x4011 = .add (.reg .r2) .word .r1 ∧
  decode 0x40D3 = .add (.const .r2) .byte .r3 ∧ decode 0x4C88 = .swap .r1 .r0 ∧ decode 0x4D48 = .rrc .byte .r0 ∧
  decode 0x4DC1 = .clrcc 1 ∧ decode 0x5011 = .cex .eq 2 1 ∧
  decode 0x5B18 = .ld true true false .word .r3 .r0 ∧ decode 0xFFD4 = .str 0xFFFF .byte .r2 .r4 ∧
  decode 0x7890 = .movh 0x12 .r0 ∧ decode 0x0000 = .nop ∧ decode 0x4E00 = .invalidHigh4E

/-! Branches. -/

/-- BL (41_branch.md R183): for every offset but 0, the decoding of the word fetched from `a`, the link register, the
program counter and the squash; nothing else changes. -/
def Obligations.BranchWithLink : Prop :=
  ∀ (o : BitVec 13) (a : Word) (s : State), o ≠ 0 → s.pc = a + 4 →
    let disp := (o ++ 0#1).signExtend 16
    decode (0b000#3 ++ o) = .bl (disp - 2) ∧
    ∃ t, exec (.bl (disp - 2)) s = .next t ∧ t.x .r5 = a + 2 ∧ t.pc = a + 2 + disp ∧
      (∀ r, r ≠ .r5 → r ≠ .r7 → t.x r = s.x r) ∧ t = { s with bank0 := t.bank0, decodeBubble := true }

/-- The eight conditional branches (41_branch.md R182, R184 to R192). -/
def Obligations.ConditionalBranches : Prop :=
  branchesAs 0b000 .beq (fun p => p.getLsbD 1) ∧
  branchesAs 0b001 .bne (fun p => !p.getLsbD 1) ∧
  branchesAs 0b010 .bc (fun p => p.getLsbD 0) ∧
  branchesAs 0b011 .bnc (fun p => !p.getLsbD 0) ∧
  branchesAs 0b100 .bn (fun p => p.getLsbD 2) ∧
  branchesAs 0b101 .bge (fun p => p.getLsbD 2 == p.getLsbD 4) ∧
  branchesAs 0b110 .blt (fun p => p.getLsbD 2 != p.getLsbD 4) ∧
  branchesAs 0b111 .bra (fun _ => true)

/-! Arithmetic and logic. -/

/-- ADD, ADDC, SUB, SUBC and CMP (42_arithmetic_logic.md R200 to R208, R213). -/
def Obligations.AddClassInstructions : Prop :=
  addsAs .add false true (fun _ => false) ∧
  addsAs .addc false true (fun p => p.getLsbD 0) ∧
  addsAs .sub true true (fun _ => true) ∧
  addsAs .subc true true (fun p => p.getLsbD 0) ∧
  addsAs .cmp true false (fun _ => true)

/-- The sign-bit table of R203, its eight rows, and that it is the carry out of `d + b + cin` and the signed overflow,
for both widths and either carry-in. After SUB or CMP the carry is set exactly when `d >= s` unsigned. The table's
entries are the spec's decision D33 (assumption log entry 9). -/
def Obligations.CarryOverflowTable : Prop :=
  [(false, false, false), (false, false, true), (false, true, false), (false, true, true), (true, false, false),
    (true, false, true), (true, true, false), (true, true, true)].map
      (fun k => (carryTable k.1 k.2.1 k.2.2, overflowTable k.1 k.2.1 k.2.2)) =
    [(false, false), (false, true), (true, false), (false, false), (true, false), (false, false), (true, true),
      (true, false)] ∧
  (∀ (wb : Width) (d b : BitVec wb.bits) (cin : Bool),
    let r := addResult d b cin
    carryTable b.msb d.msb r.msb = decide (2 ^ wb.bits ≤ d.toNat + b.toNat + cin.toNat) ∧
    overflowTable b.msb d.msb r.msb = (b.msb == d.msb && r.msb != d.msb)) ∧
  (∀ (src : Source) (wb : Width) (dst : Reg) (s : State), ∃ t u,
    exec (.sub src wb dst) s = .next t ∧ exec (.cmp src wb dst) s = .next u ∧ t.psw = u.psw ∧
    pswC t.psw = decide ((s.source src wb).toNat ≤ (s.operand dst wb).toNat))

/-- DADD on every operand, digit by digit, with the carries between the digits (42_arithmetic_logic.md R209 to R212).
For digits above 9 this is the algorithm as R210 writes it (assumption log entry 10). -/
def Obligations.DecimalAddDigitByDigit : Prop :=
  ∀ (src : Source) (wb : Width) (dst : Reg) (s : State), ∃ t, ∃ carry : Nat → Nat,
    exec (.dadd src wb dst) s = .next t ∧
    let v : Word := match src with
      | .reg r => s.x r
      | .const k => if s.k k = 0x0010 then 0x0016 else if s.k k = 0x0020 then 0x0032 else s.k k
    let sum := fun i => nibble (s.x dst).toNat i + nibble v.toNat i + carry i
    let n := wb.bits / 4
    carry 0 = 0 ∧
    (∀ i, i < n →
      carry (i + 1) = (if sum i > 9 then 1 else 0) ∧
      nibble (t.x dst).toNat i = (if sum i > 9 then sum i - 10 else sum i) % 16) ∧
    (wb = .byte → (t.x dst).extractLsb' 8 8 = (s.x dst).extractLsb' 8 8) ∧ (∀ q, q ≠ dst → t.x q = s.x q) ∧
    pswC t.psw = decide (carry n = 1) ∧ pswZ t.psw = decide (t.operand dst wb = 0) ∧
    otherFlagsKept [0, 1] s.psw t.psw ∧ onlyRegistersAndPsw s t

/-- DADD of two registers that hold decimal digits is the decimal sum, its carry the decimal carry
(42_arithmetic_logic.md R210, R211). -/
def Obligations.DecimalAddOfDecimalDigits : Prop :=
  ∀ (r : Reg) (wb : Width) (dst : Reg) (s : State),
    let n := wb.bits / 4
    let a := (s.operand dst wb).toNat
    let b := (s.operand r wb).toNat
    decimalValid n a → decimalValid n b →
    ∃ t, exec (.dadd (.reg r) wb dst) s = .next t ∧
      decimalValid n (t.operand dst wb).toNat ∧
      decimalValue n (t.operand dst wb).toNat = (decimalValue n a + decimalValue n b) % 10 ^ n ∧
      pswC t.psw = decide (10 ^ n ≤ decimalValue n a + decimalValue n b)

/-- XOR, AND, OR, BIT, BIC and BIS, bit by bit (42_arithmetic_logic.md R214 to R219). -/
def Obligations.LogicalInstructions : Prop :=
  combinesAs .xor (fun d s => d != s) true ∧
  combinesAs .and (fun d s => d && s) true ∧
  combinesAs .or (fun d s => d || s) true ∧
  combinesAs .bit (fun d s => d && s) false ∧
  combinesAs .bic (fun d s => d && !s) true ∧
  combinesAs .bis (fun d s => d || s) true

/-- ADD then SUB of an operand that the destination does not supply gives the destination back, in both widths, the
zero flag telling whether it was 0 and the sign flag its sign (95_test_vectors.md S2, as 90_conflicts.md C6 keeps it;
42_arithmetic_logic.md R205, R207). -/
def Obligations.SubUndoesAdd : Prop :=
  ∀ (src : Source) (wb : Width) (dst : Reg) (s : State), src ≠ .reg dst →
    ∃ t u, exec (.add src wb dst) s = .next t ∧ exec (.sub src wb dst) t = .next u ∧ u.bank0 = s.bank0 ∧
      pswZ u.psw = decide (s.operand dst wb = 0) ∧ pswN u.psw = (s.operand dst wb).msb

/-! Moves, swaps and shifts. -/

/-- MOV, SWAP, SWPB and SXT (43_register_manipulation.md R240 to R242, R245, R246); none writes a flag. -/
def Obligations.MovesAndSwaps : Prop :=
  (∀ (wb : Width) (src dst : Reg) (s : State), ∃ t, exec (.mov wb src dst) s = .next t ∧
    writesResult s t wb dst (s.operand src wb).toNat ∧ t = { s with bank0 := t.bank0 }) ∧
  (∀ (src dst : Reg) (s : State), ∃ t, exec (.swap src dst) s = .next t ∧
    t.x dst = s.x src ∧ t.x src = s.x dst ∧ (∀ q, q ≠ src → q ≠ dst → t.x q = s.x q) ∧
    t = { s with bank0 := t.bank0 }) ∧
  (∀ (dst : Reg) (s : State), ∃ t, exec (.swpb dst) s = .next t ∧
    (t.x dst).toNat = (s.x dst).toNat % 256 * 256 + (s.x dst).toNat / 256 ∧ (∀ q, q ≠ dst → t.x q = s.x q) ∧
    t = { s with bank0 := t.bank0 }) ∧
  (∀ (dst : Reg) (s : State), ∃ t, exec (.sxt dst) s = .next t ∧
    (t.x dst).toInt = ((s.x dst).extractLsb' 0 8).toInt ∧ (∀ q, q ≠ dst → t.x q = s.x q) ∧
    t = { s with bank0 := t.bank0 })

/-- SRA halves the signed value toward minus infinity, RRC shifts the old carry in at the top; both put the bit shifted
out in C and set Z and N from the result (43_register_manipulation.md R243, R244). -/
def Obligations.ShiftsByOne : Prop :=
  (∀ (wb : Width) (dst : Reg) (s : State), ∃ t, exec (.sra wb dst) s = .next t ∧
    (t.operand dst wb).toInt = (s.operand dst wb).toInt / 2 ∧ (∀ q, q ≠ dst → t.x q = s.x q) ∧
    (wb = .byte → (t.x dst).extractLsb' 8 8 = (s.x dst).extractLsb' 8 8) ∧
    pswC t.psw = (s.x dst).getLsbD 0 ∧ pswZ t.psw = decide (t.operand dst wb = 0) ∧
    pswN t.psw = (s.operand dst wb).msb ∧ otherFlagsKept [0, 1, 2] s.psw t.psw ∧ onlyRegistersAndPsw s t) ∧
  (∀ (wb : Width) (dst : Reg) (s : State), ∃ t, exec (.rrc wb dst) s = .next t ∧
    (t.operand dst wb).toNat = (s.operand dst wb).toNat / 2 + (s.psw.getLsbD 0).toNat * 2 ^ (wb.bits - 1) ∧
    (∀ q, q ≠ dst → t.x q = s.x q) ∧
    (wb = .byte → (t.x dst).extractLsb' 8 8 = (s.x dst).extractLsb' 8 8) ∧
    pswC t.psw = (s.x dst).getLsbD 0 ∧ pswZ t.psw = decide (t.operand dst wb = 0) ∧
    pswN t.psw = s.psw.getLsbD 0 ∧ otherFlagsKept [0, 1, 2] s.psw t.psw ∧ onlyRegistersAndPsw s t)

/-- The register and the carry form a ring of W + 1 bits: 17 rotations of a word and 9 of a byte give both back, and
nothing but Z and N has changed (43_register_manipulation.md R244). -/
def Obligations.RotateThroughCarryPeriod : Prop :=
  ∀ (wb : Width) (dst : Reg) (s : State), ∃ t,
    execTimes (.rrc wb dst) (wb.bits + 1) s = .next t ∧ t.bank0 = s.bank0 ∧ pswC t.psw = pswC s.psw ∧
    otherFlagsKept [1, 2] s.psw t.psw ∧ onlyRegistersAndPsw s t

/-- SWPB twice gives the state back, and SXT twice is SXT once (43_register_manipulation.md R245, R246). -/
def Obligations.SwapBytesTwiceAndSignExtendTwice : Prop :=
  (∀ (dst : Reg) (s : State), execTimes (.swpb dst) 2 s = .next s) ∧
  (∀ (dst : Reg) (s : State), execTimes (.sxt dst) 2 s = execTimes (.sxt dst) 1 s)

/-! Register initialisation. -/

/-- MOVL, MOVLZ, MOVLS and MOVH: the decoding of the word with each immediate and destination, the register written, and
nothing else changed (47_register_init.md R320 to R324; that no flag is written is the spec's decision D14,
42_arithmetic_logic.md R204). -/
def Obligations.RegisterInitialisation : Prop :=
  ∀ (b : Byte) (dst : Reg) (s : State),
    decode (0b01100#5 ++ b ++ dst.toBits) = .movl b dst ∧ decode (0b01101#5 ++ b ++ dst.toBits) = .movlz b dst ∧
    decode (0b01110#5 ++ b ++ dst.toBits) = .movls b dst ∧ decode (0b01111#5 ++ b ++ dst.toBits) = .movh b dst ∧
    (∃ t, exec (.movl b dst) s = .next t ∧ onlyRegister s t dst ((s.x dst).extractLsb' 8 8 ++ b) ∧
      t = { s with bank0 := t.bank0 }) ∧
    (∃ t, exec (.movlz b dst) s = .next t ∧ onlyRegister s t dst (0x00#8 ++ b) ∧ t = { s with bank0 := t.bank0 }) ∧
    (∃ t, exec (.movls b dst) s = .next t ∧ onlyRegister s t dst (0xFF#8 ++ b) ∧ t = { s with bank0 := t.bank0 }) ∧
    (∃ t, exec (.movh b dst) s = .next t ∧ onlyRegister s t dst (b ++ (s.x dst).extractLsb' 0 8) ∧
      t = { s with bank0 := t.bank0 })

/-- MOVLZ, MOVL or MOVLS of the low byte and MOVH of the high byte, executed one after the other, leave the register
at the value whatever it held before, and change nothing else (47_register_init.md R325). The program counter is left
out: F0 advances it between the two (R325). -/
def Obligations.TwoBytesLoadAnyWord : Prop :=
  ∀ (v : Word) (d : Reg) (s : State), d ≠ .r7 →
    ∀ low ∈ [Instr.movlz (v.extractLsb' 0 8) d, .movl (v.extractLsb' 0 8) d, .movls (v.extractLsb' 0 8) d],
      andThen (exec low s) (exec (.movh (v.extractLsb' 8 8) d)) = .next { s with bank0 := s.bank0.set d v }

/-! Status and conditional execution. -/

/-- SETCC and CLRCC: the decoding of the word with each mask, and the flags whose mask bit is 1 set or cleared, every
other PSW bit as it was, and nothing else changed (44_status.md R261, R262). -/
def Obligations.SetAndClearFlags : Prop :=
  ∀ (m : BitVec 5) (s : State),
    decode (0b01001101101#11 ++ m) = .setcc (m.setWidth 8) ∧ decode (0b01001101110#11 ++ m) = .clrcc (m.setWidth 8) ∧
    (∃ t, exec (.setcc (m.setWidth 8)) s = .next t ∧
      (∀ n, n < 16 → t.psw.getLsbD n = (s.psw.getLsbD n || m.getLsbD n)) ∧ t = { s with psw := t.psw }) ∧
    (∃ t, exec (.clrcc (m.setWidth 8)) s = .next t ∧
      (∀ n, n < 16 → t.psw.getLsbD n = (s.psw.getLsbD n && !m.getLsbD n)) ∧ t = { s with psw := t.psw })

/-- NOP, CEX and the INVALID words change nothing at E0 (48_nop_invalid.md R330, R331; 45_cex.md R274). -/
def Obligations.NoEffectAtExecute : Prop :=
  ∀ s : State,
    exec .nop s = .next s ∧ (∀ c tc fc, exec (.cex c tc fc) s = .next s) ∧
    exec .invalidFn2 s = .next s ∧ exec .invalidFn5 s = .next s ∧ exec .invalidFn6 s = .next s ∧
    exec .invalidFn7 s = .next s ∧ exec .invalidSel4 s = .next s ∧ exec .invalidSel7 s = .next s ∧
    exec .invalidHigh4E s = .next s ∧ exec .invalidHigh54 s = .next s

/-- The sixteen condition codes by number, their complements, and what each says after a CMP that set the flags from
the destination operand `d` and the source operand `b` (45_cex.md R272; the codes are the spec's decision D11,
assumption log entry 9). -/
def Obligations.ConditionCodes : Prop :=
  (∀ p : Word,
    let C := p.getLsbD 0; let Z := p.getLsbD 1; let N := p.getLsbD 2; let V := p.getLsbD 4
    (List.range 16).map (fun n => condHolds (Cond.ofBits (BitVec.ofNat 4 n)) p) =
      [Z, !Z, C, !C, N, !N, V, !V, C && !Z, !C || Z, N == V, N != V, !Z && (N == V), Z || (N != V), true, false]) ∧
  (∀ (p : Word) (k : Nat), k < 8 →
    condHolds (Cond.ofBits (BitVec.ofNat 4 (2 * k + 1))) p = !condHolds (Cond.ofBits (BitVec.ofNat 4 (2 * k))) p) ∧
  (∀ (src : Source) (wb : Width) (dst : Reg) (s : State), ∃ t,
    exec (.cmp src wb dst) s = .next t ∧
    let d := s.operand dst wb; let b := s.source src wb
    let exact := d.toInt - b.toInt
    condHolds .eq t.psw = decide (d = b) ∧ condHolds .ne t.psw = decide (d ≠ b) ∧
    condHolds .cs t.psw = decide (b.toNat ≤ d.toNat) ∧ condHolds .cc t.psw = decide (d.toNat < b.toNat) ∧
    condHolds .mi t.psw = (d - b).msb ∧ condHolds .pl t.psw = !(d - b).msb ∧
    condHolds .vs t.psw = decide (exact < -(2 ^ (wb.bits - 1)) ∨ 2 ^ (wb.bits - 1) ≤ exact) ∧
    condHolds .vc t.psw = decide (-(2 ^ (wb.bits - 1)) ≤ exact ∧ exact < 2 ^ (wb.bits - 1)) ∧
    condHolds .hi t.psw = decide (b.toNat < d.toNat) ∧ condHolds .ls t.psw = decide (d.toNat ≤ b.toNat) ∧
    condHolds .ge t.psw = decide (b.toInt ≤ d.toInt) ∧ condHolds .lt t.psw = decide (d.toInt < b.toInt) ∧
    condHolds .gt t.psw = decide (b.toInt < d.toInt) ∧ condHolds .le t.psw = decide (d.toInt ≤ b.toInt) ∧
    condHolds .tr t.psw = true ∧ condHolds .fl t.psw = false)

/-- The window of a CEX gates the next `tc + fc` words: under a true predicate the first `tc` run and the next `fc` are
skipped, under a false one the reverse; it is open until the last of them and then Disabled (45_cex.md R270, R271,
R273). -/
def Obligations.WindowGatesBothArms : Prop :=
  ∀ (cc : Cond) (tc fc : BitVec 3) (psw : Word),
    let w := openWindow cc tc fc psw
    let true_ := tc.toNat
    let false_ := fc.toNat
    (windowRun (true_ + false_) w).1 =
      (if condHolds cc psw then List.replicate true_ Act.run ++ List.replicate false_ Act.skip
      else List.replicate true_ Act.skip ++ List.replicate false_ Act.run) ∧
    (∀ n, n < true_ + false_ → (windowRun n w).2.status ≠ .disabled) ∧
    (windowRun (true_ + false_) w).2 = { cc := cc, status := .disabled, tc := 0, fc := 0 }

/-- The document's test of CEX: two words run and one is bubbled under a true predicate, with the window's state after
each; under a false one two are bubbled and one runs (45_cex.md R278, which the spec derives from R271 and R273). -/
def Obligations.WindowOfTwoAndOne : Prop :=
  ∀ (cc : Cond) (psw : Word),
    (condHolds cc psw = true →
      let w := openWindow cc 2 1 psw
      w = ⟨cc, .predicateTrue, 2, 1⟩ ∧
      windowStep w = (.run, ⟨cc, .predicateTrue, 1, 1⟩) ∧
      windowStep ⟨cc, .predicateTrue, 1, 1⟩ = (.run, ⟨cc, .predicateTrue, 0, 1⟩) ∧
      windowStep ⟨cc, .predicateTrue, 0, 1⟩ = (.skip, ⟨cc, .disabled, 0, 0⟩)) ∧
    (condHolds cc psw = false →
      let w := openWindow cc 2 1 psw
      windowStep w = (.skip, ⟨cc, .predicateFalse, 1, 1⟩) ∧
      windowStep ⟨cc, .predicateFalse, 1, 1⟩ = (.skip, ⟨cc, .predicateFalse, 0, 1⟩) ∧
      windowStep ⟨cc, .predicateFalse, 0, 1⟩ = (.run, ⟨cc, .disabled, 0, 0⟩))

/-- D0 of a CEX word (45_cex.md R271, R275; 40_pipeline_step.md R137): whether no window is open or the word is in the
running arm of one, DEC holds the CEX and the window is the new instruction's, its predicate read from the PSW of this
D0; no other state changes but the `invalid` output, which is 0. -/
def Obligations.CexOpensItsWindowInDecode : Prop :=
  ∀ (cc : Cond) (tc fc : BitVec 3) (s : State), s.decodeBubble = false →
    (s.cex.status = .disabled ∨ windowAct s.cex = .run) → s.ir = encode (.cex cc tc fc) →
    stageD0 s =
      { s with
        dec := .cex cc tc fc
        invalid := none
        cex :=
          { cc := cc, tc := tc.setWidth 4, fc := fc.setWidth 4
            status :=
              if tc.toNat + fc.toNat = 0 then .disabled
              else if condHolds cc s.psw then .predicateTrue else .predicateFalse } }

/-- D0 on a word that a taken branch squashes or a window skips: DEC is NOP and the matching E0 will do nothing, the
word is not classified (no report, no window opened), and a squashed word uses up no count (40_pipeline_step.md R137,
R143; 45_cex.md R273, R276). -/
def Obligations.SquashedAndSkippedWords : Prop :=
  ∀ s : State,
    (s.decodeBubble = true →
      stageD0 s = { s with dec := .nop, decodeBubble := false, executeBubble := true, invalid := none }) ∧
    (s.decodeBubble = false → s.cex.status ≠ .disabled → windowAct s.cex = .skip →
      stageD0 s = { s with dec := .nop, executeBubble := true, invalid := none, cex := windowNext s.cex })

/-- D0 of a word that is decoded, with no window open or in the running arm of one (40_pipeline_step.md R137;
48_nop_invalid.md R331; 60_exceptions.md R341): DEC holds its decoding, the `invalid` output carries the word exactly
when it is INVALID, an open window has used up one count, and, but for the window of a CEX, nothing else changes. -/
def Obligations.InvalidWordIsReported : Prop :=
  ∀ s : State, s.decodeBubble = false → (s.cex.status = .disabled ∨ windowAct s.cex = .run) →
    let report := if (decode s.ir).isInvalid then some s.ir else none
    let window := if s.cex.status = .disabled then s.cex else windowNext s.cex
    (stageD0 s).dec = decode s.ir ∧ (stageD0 s).invalid = report ∧
    ((∀ cc tc fc, decode s.ir ≠ .cex cc tc fc) →
      stageD0 s = { s with dec := decode s.ir, invalid := report, cex := window })

/-! Loads and stores. -/

/-- E0 of LD and LDR: the effective address, the update of the address register and the request; nothing else changes
(46_load_store.md R291 to R294). -/
def Obligations.LoadsPostTheirRequest : Prop :=
  (∀ (prpo dec inc : Bool) (wb : Width) (src dst : Reg) (s : State), ∃ t,
    exec (.ld prpo dec inc wb src dst) s = .next t ∧
    let moved := s.x src + BitVec.ofInt 16 (adjustment dec inc wb)
    onlyRegister s t src moved ∧ t.dmar = (if prpo then moved else s.x src) ∧
    t.dctrl = (if wb = .byte then .rdB else .rdW) ∧ t.lsd = dst ∧
    t = { s with bank0 := t.bank0, dmar := t.dmar, dctrl := t.dctrl, lsd := t.lsd }) ∧
  (∀ (off : Word) (wb : Width) (src dst : Reg) (s : State),
    exec (.ldr off wb src dst) s =
      .next { s with dmar := s.x src + off, dctrl := (if wb = .byte then .rdB else .rdW), lsd := dst })

/-- E0 of ST and STR: the data sampled before the address register is updated, the effective address and the request;
nothing else changes, no byte of memory among it (46_load_store.md R291 to R293, R295). -/
def Obligations.StoresPostTheirRequest : Prop :=
  (∀ (prpo dec inc : Bool) (wb : Width) (src dst : Reg) (s : State), ∃ t,
    exec (.st prpo dec inc wb src dst) s = .next t ∧
    let moved := s.x dst + BitVec.ofInt 16 (adjustment dec inc wb)
    onlyRegister s t dst moved ∧ t.dmar = (if prpo then moved else s.x dst) ∧
    t.dmbr.toNat = (if wb = .byte then (s.x src).toNat % 256 else (s.x src).toNat) ∧
    t.dctrl = (if wb = .byte then .wrB else .wrW) ∧
    t = { s with bank0 := t.bank0, dmar := t.dmar, dmbr := t.dmbr, dctrl := t.dctrl }) ∧
  (∀ (off : Word) (wb : Width) (src dst : Reg) (s : State), ∃ t,
    exec (.str off wb src dst) s = .next t ∧ t.dmar = s.x dst + off ∧
    t.dmbr.toNat = (if wb = .byte then (s.x src).toNat % 256 else (s.x src).toNat) ∧
    t.dctrl = (if wb = .byte then .wrB else .wrW) ∧
    t = { s with dmar := t.dmar, dmbr := t.dmbr, dctrl := t.dctrl })

/-- M and E1 of a pending read (40_pipeline_step.md R140, R141; 46_load_store.md R296): M puts the data in DMBR and
leaves the tag, E1 writes the destination, a byte load keeping its high byte, and clears the tag. -/
def Obligations.PendingReadReachesRegister : Prop :=
  ∀ s : State,
    (s.dctrl = .rdW → ∃ t, stageM .truncate s = .next t ∧
      t = { s with dmbr := Memory.read s.dmem ((s.dmar &&& 0xFFFE).toNat + 1) ++
              Memory.read s.dmem (s.dmar &&& 0xFFFE).toNat } ∧
      onlyRegister t (stageE1 t) s.lsd t.dmbr ∧ stageE1 t = { t with bank0 := (stageE1 t).bank0, dctrl := .none }) ∧
    (s.dctrl = .rdB → ∃ t, stageM .truncate s = .next t ∧
      t = { s with dmbr := 0#8 ++ Memory.read s.dmem s.dmar.toNat } ∧
      onlyRegister t (stageE1 t) s.lsd ((t.x s.lsd).extractLsb' 8 8 ++ Memory.read s.dmem s.dmar.toNat) ∧
      stageE1 t = { t with bank0 := (stageE1 t).bank0, dctrl := .none })

/-- LD and LDR to the end: after M and E1 the destination holds the data bank's value at the effective address, a byte
load keeping the high byte the register had before E1; no byte of memory changes and no register but the address
register and the destination does (46_load_store.md R291 to R294, R296, R297, R299; 20_memory.md R67). -/
def Obligations.LoadedValueReachesRegister : Prop :=
  ∀ (s : State) (wb : Width) (src dst : Reg) (i : Instr) (ea : Word),
    ((∃ prpo dec inc, i = .ld prpo dec inc wb src dst ∧ ea = indexedAddress prpo dec inc wb (s.x src)) ∨
      (∃ off, i = .ldr off wb src dst ∧ ea = s.relativeAddress src off)) →
    ∃ t, andThen (exec i s) (stageM .truncate) = .next t ∧
      (match wb with
        | .word =>
          (stageE1 t).x dst =
            Memory.read s.dmem ((ea &&& 0xFFFE).toNat + 1) ++ Memory.read s.dmem (ea &&& 0xFFFE).toNat
        | .byte => (stageE1 t).x dst = (t.x dst).extractLsb' 8 8 ++ Memory.read s.dmem ea.toNat) ∧
      (∀ q, q ≠ src → q ≠ dst → (stageE1 t).x q = s.x q) ∧ (stageE1 t).dctrl = .none ∧
      (stageE1 t).dmem = s.dmem ∧ (stageE1 t).imem = s.imem ∧ (stageE1 t).psw = s.psw

/-- M of a pending write (40_pipeline_step.md R141; 20_memory.md R63, R68): the bytes of the word at `DMAR & 0xFFFE`, or
the one byte at DMAR, receive the data; every other byte of the data bank reads as before; the tag is cleared, nothing
else changes. -/
def Obligations.PendingWriteReachesMemory : Prop :=
  ∀ s : State, Memory.wf s.dmem = true →
    (s.dctrl = .wrW → ∃ t, stageM .truncate s = .next t ∧
      let k := (s.dmar &&& 0xFFFE).toNat
      Memory.read t.dmem k = s.dmbr.extractLsb' 0 8 ∧ Memory.read t.dmem (k + 1) = s.dmbr.extractLsb' 8 8 ∧
      (∀ a, a ≠ k → a ≠ k + 1 → Memory.read t.dmem a = Memory.read s.dmem a) ∧
      t = { s with dmem := t.dmem, dctrl := .none }) ∧
    (s.dctrl = .wrB → ∃ t, stageM .truncate s = .next t ∧
      let k := s.dmar.toNat
      Memory.read t.dmem k = s.dmbr.extractLsb' 0 8 ∧
      (∀ a, a ≠ k → Memory.read t.dmem a = Memory.read s.dmem a) ∧
      t = { s with dmem := t.dmem, dctrl := .none })

/-- ST and STR to the end: after M, the bytes stored to hold the data register's value at E0 and every other byte of
the data bank reads as before (46_load_store.md R291 to R296, R298, R300; 20_memory.md R68). `indexedAddress` and
`State.relativeAddress` are the meanings' own effective addresses. -/
def Obligations.StoredBytesAndNoOthers : Prop :=
  ∀ (s : State), Memory.wf s.dmem = true →
    ∀ (wb : Width) (src dst : Reg) (i : Instr) (ea : Word),
      ((∃ prpo dec inc, i = .st prpo dec inc wb src dst ∧ ea = indexedAddress prpo dec inc wb (s.x dst)) ∨
        (∃ off, i = .str off wb src dst ∧ ea = s.relativeAddress dst off)) →
      ∃ t, andThen (exec i s) (stageM .truncate) = .next t ∧
        (∀ a, (match wb with
            | .word => a ≠ (ea &&& 0xFFFE).toNat ∧ a ≠ (ea &&& 0xFFFE).toNat + 1
            | .byte => a ≠ ea.toNat) → Memory.read t.dmem a = Memory.read s.dmem a) ∧
        (match wb with
          | .word =>
            Memory.read t.dmem (ea &&& 0xFFFE).toNat = (s.x src).extractLsb' 0 8 ∧
            Memory.read t.dmem ((ea &&& 0xFFFE).toNat + 1) = (s.x src).extractLsb' 8 8
          | .byte => Memory.read t.dmem ea.toNat = (s.x src).extractLsb' 0 8) ∧
        t.dctrl = .none ∧ t.imem = s.imem ∧ t.psw = s.psw ∧ ∀ q, q ≠ dst → t.x q = s.x q

/-- ST or STR, then LD or LDR at the same effective address (70_reset_and_hazards.md R395; 20_memory.md R72). The
store's E0 runs in `s` and its M leaves `t`; the load's E0 runs in any state `v` with the data bank of `t`, since F0,
D0, F1 and E1, which come between, write no memory; its M leaves `u`. After its E1 the destination holds the stored
value: the whole word, the byte at that address of a stored word, the stored byte, or the word around a stored byte, in
which the other byte is the one the data bank held. A byte load keeps the high byte of the destination. The second part
is the law of the banks beneath, whatever writes them: a word reads back after a word write, a byte after a byte write,
and a word read after a byte write has the new byte in place (20_memory.md R63, R67, R68). -/
def Obligations.LoadAfterStoreReturnsTheValue : Prop :=
  (∀ (s : State) (i : Instr) (wst : Width) (src : Reg) (ea : Word), Memory.wf s.dmem = true → isStore i wst src s ea →
    ∃ t, andThen (exec i s) (stageM .truncate) = .next t ∧
      ∀ (v : State) (j : Instr) (wld : Width) (dst : Reg), v.dmem = t.dmem → isLoad j wld dst v ea →
        ∃ u, andThen (exec j v) (stageM .truncate) = .next u ∧ (stageE1 u).dctrl = .none ∧ (stageE1 u).dmem = t.dmem ∧
          let low := (s.x src).extractLsb' 0 8
          let high := (s.x src).extractLsb' 8 8
          let base := (ea &&& 0xFFFE).toNat
          (stageE1 u).x dst =
            match wst, wld with
            | .word, .word => s.x src
            | .word, .byte => (u.x dst).extractLsb' 8 8 ++ (if ea.getLsbD 0 then high else low)
            | .byte, .byte => (u.x dst).extractLsb' 8 8 ++ low
            | .byte, .word =>
              if ea.getLsbD 0 then low ++ Memory.read s.dmem base else Memory.read s.dmem (base + 1) ++ low) ∧
  (∀ (m : Memory) (a v : Word), Memory.wf m = true →
    Memory.readAt (Memory.writeAt m .word a v) .word a = v ∧
    Memory.readAt (Memory.writeAt m .byte a v) .byte a = v &&& 0x00FF ∧
    Memory.readAt (Memory.writeAt m .byte a v) .word a =
      (if a.getLsbD 0 then v.extractLsb' 0 8 ++ (Memory.readAt m .word a).extractLsb' 0 8
      else (Memory.readAt m .word a).extractLsb' 8 8 ++ v.extractLsb' 0 8))

/-! The half-cycle. -/

/-- A step runs the decoded instruction: at an odd half-cycle with no bubble, the step is `exec` of DEC on the state
that F1 and E1 leave, then the clock and the checks (40_pipeline_step.md R135, R138 to R140, R146, R147). -/
def Obligations.StepRunsTheDecodedInstruction : Prop :=
  ∀ (s t : State), s.inputs = [] → s.ctl.fsm = .running → s.ctl.clock % 2 = 1 → s.executeBubble = false →
    exec s.dec (stageE1 { s with
      imbr := Memory.readWord s.imem s.imar, ir := Memory.readWord s.imem s.imar, invalid := none }) = .next t →
    step s = .next (endChecks true (tickClock t))

/-- A step decodes the fetched word and fetches at the program counter: at an even half-cycle with no bubble and no
window, DEC becomes the decoding of IR, IMAR the program counter and the program counter two more; the other registers
are untouched (40_pipeline_step.md R135 to R137). -/
def Obligations.StepDecodesTheFetchedWord : Prop :=
  ∀ s : State, s.inputs = [] → s.ctl.fsm = .running → s.ctl.clock % 2 = 0 → s.decodeBubble = false →
    s.cex.status = .disabled →
    ∃ t, step s = .next t ∧ t.dec = decode s.ir ∧ t.imar = s.pc ∧ t.pc = s.pc + 2 ∧
      (∀ q, q ≠ .r7 → t.x q = s.x q) ∧ t.psw = s.psw ∧ t.imem = s.imem ∧ t.ctl.clock = s.ctl.clock + 1

/-- F1 in a step: at an odd half-cycle IMBR and IR receive the word of the instruction bank at IMAR
(40_pipeline_step.md R139; 20_memory.md R66), whatever E0 does. -/
def Obligations.StepFetchesAtImar : Prop :=
  ∀ s : State, s.inputs = [] → s.ctl.fsm = .running → s.ctl.clock % 2 = 1 →
    ∃ t, step s = .next t ∧
      t.ir = Memory.read s.imem ((s.imar &&& 0xFFFE).toNat + 1) ++ Memory.read s.imem (s.imar &&& 0xFFFE).toNat ∧
      t.imbr = t.ir ∧ t.imem = s.imem ∧ t.dmem = s.dmem ∧ t.ctl.clock = s.ctl.clock + 1

/-- The start of a program (70_reset_and_hazards.md R382; 40_pipeline_step.md R134): from reset with any contents of the
banks, `set_start_address(S)`, `run()` and three half-cycles bring the word at S to DEC with the program counter at
S + 4, and the fourth half-cycle executes it. S = 0xFFFE is left out because the breakpoint at 0x0000, live after
reset, suspends that run (60_exceptions.md R350). -/
def Obligations.FirstInstructionAfterStart : Prop :=
  ∀ (imem dmem : Memory) (start : Word), start ≠ 0xFFFE →
    ∃ u, core.run 5
        { State.reset with imem := imem, dmem := dmem, inputs := [.cmd (.setStartAddress start), .cmd .run] } =
        .next u ∧
      u.dec = decode (Memory.readWord imem start) ∧ u.pc = start + 4 ∧ u.imar = start + 2 ∧ u.ctl.clock = 3 ∧
      u.ctl.fsm = .running ∧ u.executeBubble = false ∧ (∀ q, q ≠ .r7 → u.x q = 0) ∧ u.psw = 0 ∧
      ∃ t, exec u.dec (stageE1 { u with
          imbr := Memory.readWord imem (start + 2), ir := Memory.readWord imem (start + 2), invalid := none }) = .next t ∧
        step u = .next (endChecks true (tickClock t))

/-- The pipeline is the sequential machine (40_pipeline_step.md R151): at the start of an even half-cycle of a program
that does not redirect R7 other than by branches, one cycle is one turn of the sequential machine, or no turn when it
is the bubble after a taken branch, and the report on `invalid` is the sequential machine's. -/
def Obligations.PipelineRefinesSequentialMachine : Prop :=
  ∀ s : State, undisturbed s → cycleStart s → (s.decodeBubble = false → redirectsPc (decode s.ir) = false) →
    ∃ t u, step s = .next t ∧ step t = .next u ∧ cycleStart u ∧
      t.invalid = (if s.decodeBubble then none else s.sequential.next.report) ∧
      u.sequential = (if s.decodeBubble then s.sequential else { s.sequential.next with report := none })

/-- A write to R7 at E0 by an instruction that is no branch has one delay slot (70_reset_and_hazards.md R392; that no
squash follows is the spec's decision D20, assumption log entry 7). For each instruction that R392 lists, with T the
program counter its E0 leaves: the word already fetched is decoded next with no bubble while F0 fetches at T, and its E0
meets T + 2 in R7 (unless E1 completes a load into R7 there, R393) while F1 brings in the word from T. The premise on
the breakpoint leaves out a suspension between the two (40_pipeline_step.md R147). The second part says it of MOV with
the value written out: T is the source register (43_register_manipulation.md R241). -/
def Obligations.WriteToPcHasOneDelaySlot : Prop :=
  (∀ s : State, undisturbed s → s.ctl.clock % 2 = 1 → s.executeBubble = false → s.decodeBubble = false →
    s.cex.status = .disabled → writesPcAtE0 s.dec = true →
    ∃ m, exec s.dec s.atExecute = .next m ∧ (m.pc ≠ s.ctl.breakpoint →
      ∃ t u n, step s = .next t ∧ t.pc = m.pc ∧ t.decodeBubble = false ∧
        step t = .next u ∧ u.dec = decode (Memory.readWord s.imem s.imar) ∧ u.executeBubble = false ∧
        u.imar = m.pc ∧ u.pc = m.pc + 2 ∧ u.atExecute.ir = Memory.readWord s.imem m.pc ∧
        (u.loadsIntoPc = false → u.atExecute.pc = m.pc + 2) ∧
        exec u.dec u.atExecute = .next n ∧ step u = .next (endChecks true (tickClock n)))) ∧
  (∀ (s : State) (src : Reg), undisturbed s → s.ctl.clock % 2 = 1 → s.executeBubble = false → s.decodeBubble = false →
    s.cex.status = .disabled → s.dctrl = .none → s.dec = .mov .word src .r7 → s.x src ≠ s.ctl.breakpoint →
    ∃ t u, step s = .next t ∧ t.pc = s.x src ∧ step t = .next u ∧
      u.dec = decode (Memory.readWord s.imem s.imar) ∧ u.executeBubble = false ∧ u.imar = s.x src ∧
      u.pc = s.x src + 2)

/-- A load into R7 has two delay slots (70_reset_and_hazards.md R393). The load's E0 leaves `m`, with the program
counter at A + 4. The word from A + 2 is decoded while F0 fetches at A + 4; in the next odd half-cycle E1 puts the
loaded value in R7 (a byte load in the low byte of A + 6) before the E0 of that word, which meets `e`. When that E0
leaves R7 alone and takes no branch, the word from A + 4 is decoded too, with no bubble, while F0 fetches at the loaded
value, and executed while F1 brings in the word from there. The premises on the breakpoint leave out a suspension
between. -/
def Obligations.LoadIntoPcHasTwoDelaySlots : Prop :=
  ∀ s : State, undisturbed s → s.ctl.clock % 2 = 1 → s.executeBubble = false → s.decodeBubble = false →
    s.cex.status = .disabled → loadsPc s.dec = true →
    ∃ m, exec s.dec s.atExecute = .next m ∧ (m.dctrl = .rdW ∨ m.dctrl = .rdB) ∧ (m.pc ≠ s.ctl.breakpoint →
      ∃ t u n, step s = .next t ∧ step t = .next u ∧ u.dec = decode (Memory.readWord s.imem s.imar) ∧
        u.executeBubble = false ∧ u.imar = m.pc ∧ u.pc = m.pc + 2 ∧
        let word := Memory.readWord s.imem m.pc
        let loaded :=
          if m.dctrl = .rdB then (m.pc + 2).extractLsb' 8 8 ++ Memory.readByte s.dmem m.dmar
          else Memory.readWord s.dmem m.dmar
        let e := { u with
          imbr := word, ir := word, invalid := none, bank0 := u.bank0.set .r7 loaded, dctrl := .none }
        exec u.dec e = .next n ∧ step u = .next (endChecks true (tickClock n)) ∧
        (n.pc = loaded → n.decodeBubble = false → u.cex.status = .disabled → loaded ≠ s.ctl.breakpoint →
          ∃ v w, step u = .next v ∧ v.pc = loaded ∧ step v = .next w ∧ w.dec = decode word ∧ w.executeBubble = false ∧
            w.imar = loaded ∧ w.pc = loaded + 2 ∧ w.atExecute.ir = Memory.readWord s.imem loaded ∧
            (w.loadsIntoPc = false → w.atExecute.pc = loaded + 2) ∧
            ∃ k, exec w.dec w.atExecute = .next k ∧ step w = .next (endChecks true (tickClock k))))

/-- Load-use (70_reset_and_hazards.md R394; 40_pipeline_step.md R140, R142): in the odd half-cycle in which E1 completes
a word or byte load, the instruction in DEC, whichever it is, executes on the state `e` in which the load's destination
already holds the loaded value, a byte load keeping its high byte. The last clause says it of a MOV from that register.
-/
def Obligations.NextInstructionReadsLoadedValue : Prop :=
  ∀ s : State, s.inputs = [] → s.ctl.fsm = .running → s.ctl.clock % 2 = 1 → s.executeBubble = false →
    (s.dctrl = .rdW ∨ s.dctrl = .rdB) →
    let loaded :=
      if s.dctrl = .rdB then (s.x s.lsd).extractLsb' 8 8 ++ s.dmbr.extractLsb' 0 8 else s.dmbr
    let word := Memory.readWord s.imem s.imar
    let e := { s with imbr := word, ir := word, invalid := none, bank0 := s.bank0.set s.lsd loaded, dctrl := .none }
    e.x s.lsd = loaded ∧
    (∃ n, exec s.dec e = .next n ∧ step s = .next (endChecks true (tickClock n))) ∧
    ∀ d, s.dec = .mov .word s.lsd d →
      ∃ t, step s = .next t ∧ t.x d = loaded ∧ t.x s.lsd = loaded ∧ t.dctrl = .none

/-- No step stops: the hardware raises no synchronous exception (60_exceptions.md R340, R346), and with MISALIGNED_WORD
= truncate the model has no other stop. -/
def Obligations.NoStepStops : Prop := ∀ s : State, ∃ t, step s = .next t

/-- MISALIGNED_WORD (20_memory.md R65): under `truncate` a word access reads and writes the aligned word; under `fault`
a step stops at the M or F1 that presents an odd address; when the addresses presented are even the two agree.
That the machine runs `truncate` is the spec's decision D3 (assumption log entry 5). -/
def Obligations.MisalignedWordParameter : Prop :=
  (∀ (m : Memory) (a v : Word), Memory.readWord m a = Memory.readWord m (a &&& 0xFFFE) ∧
    Memory.writeWord m a v = Memory.writeWord m (a &&& 0xFFFE) v) ∧
  (∀ s : State, s.inputs = [] → s.ctl.fsm = .running → s.ctl.clock % 2 = 0 → (s.dctrl = .rdW ∨ s.dctrl = .wrW) →
    s.dmar.getLsbD 0 = true →
    advance .fault s = .fault .misalignedData ∧ ∃ t, advance .truncate s = .next t ∧ t.dmar = s.dmar) ∧
  (∀ s : State, s.inputs = [] → s.ctl.fsm = .running → s.ctl.clock % 2 = 1 → s.imar.getLsbD 0 = true →
    advance .fault s = .fault .misalignedFetch ∧ ∃ t, advance .truncate s = .next t ∧ t.imar = s.imar) ∧
  (∀ s : State, accessesAligned s → advance .fault s = advance .truncate s)

/-! Invariants. -/

/-- Every step keeps the state sound: canonical memory banks, the constant bank, the reserved and priority bits of the
PSW, the conditional-execution state, the hazard flags, the decode latch and the controller (10_state.md R22, R30, R33;
20_memory.md R60; 40_pipeline_step.md R132, R141, R143, R147; 45_cex.md R270). -/
def Obligations.StepKeepsSound : Prop := ∀ s t : State, Sound s → step s = .next t → Sound t

/-- The state after reset is sound. -/
def Obligations.ResetIsSound : Prop := Sound State.reset

/-- The values after reset that the table of 10_state.md R55 gives, by the spec's decision D4 (assumption log entry 4).
What the memory banks hold is no rule of the spec and is not stated here. -/
def Obligations.ResetValues : Prop :=
  let s := State.reset
  (∀ r, s.x r = 0) ∧ [Reg.r0, .r1, .r2, .r3, .r4, .r5, .r6, .r7].map s.k = [0, 1, 2, 4, 8, 16, 32, 0xFFFF] ∧
  s.psw = 0 ∧ s.imar = 0 ∧ s.imbr = 0 ∧ s.ir = 0 ∧ s.dmar = 0 ∧ s.dmbr = 0 ∧ s.dctrl = .none ∧ s.dec = .nop ∧
  s.lsd = .r0 ∧ s.decodeBubble = false ∧ s.executeBubble = false ∧
  s.cex = { cc := .eq, status := .disabled, tc := 0, fc := 0 } ∧
  s.ctl = { fsm := .idle, clock := 0, breakpoint := 0, singleStep := false, stopOnClock := false,
            userInterrupt := false, hasStarted := false, stepOnce := false, stopReq := false, startAddress := 0 }

/-- `rst` puts the block in the reset state from any state, Halted included, and leaves both memory banks unchanged
(70_reset_and_hazards.md R380). That it also clears `reply` and `invalid` and keeps the events still to come is the
model's inference (assumption log entry 21, DEDUCED). -/
def Obligations.ResetInputRestoresReset : Prop :=
  ∀ (s : State) (rest : List Input), s.inputs = .rst :: rest →
    step s = .next { State.reset with imem := s.imem, dmem := s.dmem, inputs := rest }

/-- A half-cycle never changes the instruction bank, so no store is ever fetched (20_memory.md R62, R75;
70_reset_and_hazards.md R399). -/
def Obligations.CoreNeverWritesInstructionBank : Prop :=
  ∀ s t : State, (s.inputs = [] ∨ s.inputs.head? = some .tick) → step s = .next t → t.imem = s.imem

/-- No half-cycle changes PSW bits 15 to 5: the current priority, the fault bit, the unused bits and the previous
priority (10_state.md R30, R33; 60_exceptions.md R348). -/
def Obligations.PriorityAndFaultBitsNeverChange : Prop :=
  ∀ s t : State, (s.inputs = [] ∨ s.inputs.head? = some .tick) → WellFormed s.dec → step s = .next t →
    pswCur t.psw = pswCur s.psw ∧ pswFlt t.psw = pswFlt s.psw ∧ pswPrv t.psw = pswPrv s.psw ∧
    t.psw.extractLsb' 9 4 = s.psw.extractLsb' 9 4

/-! The controller and the host. -/

/-- In Idle, Suspended and Halted a tick changes no state, be it the tick of an empty list of events or one that stands
in the list and is taken from it (40_pipeline_step.md R132). The list is the model's own (assumption log entry 1). -/
def Obligations.NoHalfCycleUnlessRunning : Prop :=
  ∀ s : State, s.ctl.fsm ≠ .running →
    (s.inputs = [] → step s = .next s) ∧
    (∀ rest, s.inputs = .tick :: rest → step s = .next { s with inputs := rest })

/-- The first entry into Running copies the start address into the program counter, sets `has_started`, clears
`user_interrupt` and, for `step()`, sets `step_once`; nothing else changes (40_pipeline_step.md R134; that the copy is
made at this moment is the spec's decision D31). The reply and the list of events are the model's own. -/
def Obligations.StartCopiesStartAddress : Prop :=
  ∀ (s : State) (rest : List Input) (c : Command), s.ctl.fsm = .idle → s.inputs = .cmd c :: rest →
    c = .run ∨ c = .step →
    step s = .next { s with
      bank0 := s.bank0.set .r7 s.ctl.startAddress
      reply := .none
      inputs := rest
      ctl := { s.ctl with
        fsm := .running, hasStarted := true, userInterrupt := false,
        stepOnce := if c = .step then true else s.ctl.stepOnce } }

/-- Resuming before an even half-cycle, by `run()` with single-step on or by `step()` with it on or off, and
stop-on-clock off, performs exactly one even and one odd half-cycle and suspends again; resuming clears
`user_interrupt`, `step()` sets `step_once` and `run()` clears it, and the suspension clears it again
(40_pipeline_step.md R147, R148). That the resume also clears the reply is the model's choice (assumption log entry
16), and the list of events is the model's own. -/
def Obligations.SingleStepRunsOnePair : Prop :=
  ∀ (s : State) (c : Command), s.ctl.fsm = .suspended → s.inputs = [.cmd c] →
    (c = .run ∧ s.ctl.singleStep = true) ∨ c = .step →
    s.ctl.clock % 2 = 0 → s.ctl.stopOnClock = false → s.ctl.stopReq = false →
    ∃ t u v, step s = .next t ∧
      t = { s with
        reply := .none
        inputs := []
        ctl := { s.ctl with fsm := .running, userInterrupt := false, stepOnce := decide (c = .step) } } ∧
      step t = .next u ∧ u.ctl.fsm = .running ∧ u.ctl.clock = s.ctl.clock + 1 ∧
      step u = .next v ∧ v.ctl.fsm = .suspended ∧ v.ctl.stepOnce = false ∧ v.ctl.clock = s.ctl.clock + 2

/-- The checks at the end of a half-cycle, in their order: which state the controller ends in, and that a suspension
clears `step_once` and nothing else (40_pipeline_step.md R147). -/
def Obligations.EndOfHalfCycleChecks : Prop :=
  ∀ (odd : Bool) (s : State), s.ctl.fsm = .running →
    let stepping := s.ctl.singleStep = true ∨ s.ctl.stepOnce = true
    (s.ctl.stopReq = true → endChecks odd s = s.halt) ∧
    (s.ctl.stopReq = false →
      ((stepping ∧ (s.ctl.stopOnClock = true ∨ odd = true)) ∨ (odd = true ∧ s.pc = s.ctl.breakpoint) ∨
        s.ctl.userInterrupt = true) →
      endChecks odd s = { s with ctl := { s.ctl with fsm := .suspended, stepOnce := false } }) ∧
    (s.ctl.stopReq = false → ¬(stepping ∧ (s.ctl.stopOnClock = true ∨ odd = true)) →
      ¬(odd = true ∧ s.pc = s.ctl.breakpoint) → s.ctl.userInterrupt = false → endChecks odd s = s)

/-- A raised interrupt suspends a running controller at the end of the next half-cycle, whose stages are performed in
full, and stays recorded; a pending stop halts it instead (40_pipeline_step.md R147, R149; 60_exceptions.md R344). -/
def Obligations.InterruptSuspendsAfterHalfCycle : Prop :=
  ∀ s : State, s.ctl.fsm = .running → s.inputs = [.irq] →
    ∃ t u, step s = .next t ∧ t = { s with inputs := [], ctl := { s.ctl with userInterrupt := true } } ∧
      step t = .next u ∧ u.ctl.clock = s.ctl.clock + 1 ∧ u.ctl.userInterrupt = true ∧
      u.ctl.fsm = (if s.ctl.stopReq then .halted else .suspended)

/-- While Running the host may only raise the interrupt and request a stop: every other command is rejected and changes
no state (10_state.md R53; 40_pipeline_step.md R133). That a rejected command is dropped and answered `rejected` is the
model's choice (assumption log entry 13). -/
def Obligations.CommandsRejectedWhileRunning : Prop :=
  ∀ (s : State) (c : Command) (rest : List Input), s.ctl.fsm = .running → s.inputs = .cmd c :: rest →
    c ≠ .raiseInterrupt → c ≠ .stop → step s = .next { s with reply := .rejected, inputs := rest }

/-- Halted is left only by `rst`: every other event leaves the controller in Halted. No tick and no command changes the
architectural state, which can still be read (40_pipeline_step.md R133, R149). `irq`, `raise_interrupt()` and `stop()`
are recorded in their flags, as in every controller state, and change nothing else (10_state.md R52, R53;
60_exceptions.md R344; assumption log entries 12 and 15). The reply is the model's own (assumption log entry 16), and so
is the list of events (entry 1). -/
def Obligations.HaltedIsLeftOnlyByReset : Prop :=
  ∀ s : State, s.ctl.fsm = .halted → s.inputs.head? ≠ some .rst →
    ∃ t, step s = .next t ∧ t.ctl.fsm = .halted ∧
      t = { s with
        reply := t.reply
        inputs := s.inputs.tail
        ctl := { s.ctl with
          userInterrupt :=
            if s.inputs.head? = some .irq ∨ s.inputs.head? = some (.cmd .raiseInterrupt) then true
            else s.ctl.userInterrupt
          stopReq := if s.inputs.head? = some (.cmd .stop) then true else s.ctl.stopReq } } ∧
      (∀ r, s.inputs.head? = some (.cmd (.readRegister r)) → t.reply = .value (s.x r)) ∧
      (∀ bank wb a, s.inputs.head? = some (.cmd (.readMemory bank wb a)) →
        t.reply = .value (Memory.readAt (s.bankOf bank) wb a))

/-- The commands of 10_state.md R52 where the controller accepts them (R53), each with what it does and nothing else but
the reply and the list of events: set_start_address, set_breakpoint, the two toggles, read_register, write_register,
read_memory, clear_psw, raise_interrupt and stop in Idle and Suspended, run and step in Suspended (40_pipeline_step.md
R133, R148, R149), raise_interrupt and stop while Running. That a command clears the reply of the one before it is the
model's choice (assumption log entry 16), and so is the width a memory command names (entry 11); that `stop()` outside
Running also leaves `stop_req` set is entry 15. First entry into Running and write_memory have their own statements. -/
def Obligations.HostWritesTakeEffect : Prop :=
  ∀ (s : State) (rest : List Input) (c : Command), s.inputs = .cmd c :: rest →
    (s.ctl.fsm = .idle ∨ s.ctl.fsm = .suspended →
      (∀ a, c = .setStartAddress a →
        step s = .next { s with ctl := { s.ctl with startAddress := a }, reply := .none, inputs := rest }) ∧
      (∀ a, c = .setBreakpoint a →
        step s = .next { s with ctl := { s.ctl with breakpoint := a }, reply := .none, inputs := rest }) ∧
      (c = .toggleSingleStep →
        step s = .next { s with
          ctl := { s.ctl with singleStep := !s.ctl.singleStep }, reply := .none, inputs := rest }) ∧
      (c = .toggleStopOnClock →
        step s = .next { s with
          ctl := { s.ctl with stopOnClock := !s.ctl.stopOnClock }, reply := .none, inputs := rest }) ∧
      (∀ r, c = .readRegister r → step s = .next { s with reply := .value (s.x r), inputs := rest }) ∧
      (∀ r v, c = .writeRegister r v →
        ∃ t, step s = .next t ∧ onlyRegister s t r v ∧
          t = { s with bank0 := t.bank0, reply := .none, inputs := rest }) ∧
      (∀ bank a, c = .readMemory bank .word a →
        let k := (a &&& 0xFFFE).toNat
        step s = .next { s with
          reply := .value (Memory.read (s.bankOf bank) (k + 1) ++ Memory.read (s.bankOf bank) k), inputs := rest }) ∧
      (∀ bank a, c = .readMemory bank .byte a →
        step s = .next { s with reply := .value (0#8 ++ Memory.read (s.bankOf bank) a.toNat), inputs := rest }) ∧
      (c = .clearPsw → step s = .next { s with psw := 0, reply := .none, inputs := rest }) ∧
      (c = .raiseInterrupt →
        step s = .next { s with ctl := { s.ctl with userInterrupt := true }, reply := .none, inputs := rest }) ∧
      (c = .stop →
        step s = .next { s with
          ctl := { s.ctl with fsm := .halted, stopReq := true }, reply := .none, inputs := rest })) ∧
    (s.ctl.fsm = .suspended → c = .run ∨ c = .step →
      step s = .next { s with
        ctl := { s.ctl with fsm := .running, userInterrupt := false, stepOnce := decide (c = .step) }
        reply := .none
        inputs := rest }) ∧
    (s.ctl.fsm = .running →
      (c = .raiseInterrupt →
        step s = .next { s with ctl := { s.ctl with userInterrupt := true }, reply := .none, inputs := rest }) ∧
      (c = .stop →
        step s = .next { s with ctl := { s.ctl with stopReq := true }, reply := .none, inputs := rest }))

/-- `write_memory` in Idle and Suspended stores the bytes of the word at `a & 0xFFFE`, or the one byte at `a`, in the
bank it names; every other byte of that bank, and the other bank, read as before, and nothing else changes (10_state.md
R52, R53; 20_memory.md R63, R68). That it names a width, and that an odd word address reaches the aligned word, is the
model's choice (assumption log entry 11); the cleared reply is entry 16. -/
def Obligations.HostMemoryWrites : Prop :=
  ∀ (s : State) (rest : List Input) (bank : MemBank) (wb : Width) (a v : Word),
    s.ctl.fsm = .idle ∨ s.ctl.fsm = .suspended → s.inputs = .cmd (.writeMemory bank wb a v) :: rest →
    Memory.wf (s.bankOf bank) = true →
    ∃ t, step s = .next t ∧
      (match wb with
        | .word =>
          let k := (a &&& 0xFFFE).toNat
          Memory.read (t.bankOf bank) k = v.extractLsb' 0 8 ∧
          Memory.read (t.bankOf bank) (k + 1) = v.extractLsb' 8 8 ∧
          ∀ n, n ≠ k → n ≠ k + 1 → Memory.read (t.bankOf bank) n = Memory.read (s.bankOf bank) n
        | .byte =>
          Memory.read (t.bankOf bank) a.toNat = v.extractLsb' 0 8 ∧
          ∀ n, n ≠ a.toNat → Memory.read (t.bankOf bank) n = Memory.read (s.bankOf bank) n) ∧
      (∀ other, other ≠ bank → t.bankOf other = s.bankOf other) ∧
      t = { s with imem := t.imem, dmem := t.dmem, reply := .none, inputs := rest }
end

