-- ==== Sys2Proof/Laws/Decode.lean ====
section
/-! SUPPORT. The codes of the fields and their readings are inverse to each other (30_encoding.md R92). -/

namespace Sys2Proof

@[simp] theorem Reg.ofBits_toBits (r : Reg) : Reg.ofBits r.toBits = r := by cases r <;> rfl

@[simp] theorem Reg.toBits_ofBits (b : BitVec 3) : (Reg.ofBits b).toBits = b := by
  revert b
  decide

@[simp] theorem Cond.ofBits_toBits (c : Cond) : Cond.ofBits c.toBits = c := by cases c <;> rfl

@[simp] theorem Cond.toBits_ofBits (b : BitVec 4) : (Cond.ofBits b).toBits = b := by
  revert b
  decide

@[simp] theorem Width.ofBit_toBit (wb : Width) : Width.ofBit (wb.toBit.getLsbD 0) = wb := by cases wb <;> rfl

@[simp] theorem Width.toBit_ofBit (b : Bool) : (Width.ofBit b).toBit = BitVec.ofBool b := by cases b <;> rfl

@[simp] theorem Source.ofBits_bits (s : Source) : Source.ofBits (s.rcBit.getLsbD 0) s.srcBits = s := by
  cases s <;> simp [Source.ofBits, Source.rcBit, Source.srcBits]

@[simp] theorem Source.rcBit_ofBits (rc : Bool) (b : BitVec 3) : (Source.ofBits rc b).rcBit = BitVec.ofBool rc := by
  cases rc <;> rfl

@[simp] theorem Source.srcBits_ofBits (rc : Bool) (b : BitVec 3) : (Source.ofBits rc b).srcBits = b := by
  cases rc <;> simp [Source.ofBits, Source.srcBits]

/-- The bytes of a word put together are the word (20_memory.md R63). -/
theorem bytes_of_word (w : Word) : w.extractLsb' 8 8 ++ w.extractLsb' 0 8 = w := by
  apply BitVec.eq_of_getLsbD_eq
  intro i hi
  simp only [BitVec.getLsbD_append, BitVec.getLsbD_extractLsb']
  by_cases h : i < 8
  · simp [h]
  · have h1 : i - 8 < 8 := by omega
    have h2 : 8 + (i - 8) = i := by omega
    simp [h, h1, h2]

/-- Two bytes of a word decode to the word's instruction (30_encoding.md R90). -/
theorem decodeBytes_word (w : Word) (rest : List Byte) :
    decodeBytes (w.extractLsb' 0 8 :: w.extractLsb' 8 8 :: rest) = .ok (decode w, rest) := by
  rw [decodeBytes, bytes_of_word]

end Sys2Proof
end

