-- ==== Sys2Proof/Laws/Flags.lean ====
section
/-! SUPPORT. The fields of the PSW after each write of a flag, the adder on numbers, and what each flag computation
leaves alone (10_state.md R30, R31; 42_arithmetic_logic.md R201 to R204). -/

namespace Sys2Proof.Machine

/-- Writing a bit gives that bit its value and leaves every other bit. -/
theorem putBit_getLsbD (p : Word) (n : Nat) (b : Bool) (k : Nat) (hn : n < 16) :
    (putBit p n b).getLsbD k = if k = n then b else p.getLsbD k := by
  have hone : ∀ j, (1#16 <<< n).getLsbD j = decide (j = n) := by
    intro j
    simp only [BitVec.getLsbD_shiftLeft, BitVec.getLsbD_one]
    by_cases h : j = n
    · subst h
      simp [hn]
    · by_cases h1 : j < n
      · simp [h1, h]
      · have : ¬ j - n = 0 := by omega
        simp [h, this]
  unfold putBit
  by_cases hk : k = n
  · subst hk
    cases b <;> simp only [hone, decide_true, Bool.or_true, if_true, BitVec.getLsbD_or, Bool.false_eq_true, if_false,
      BitVec.getLsbD_and, BitVec.getLsbD_not, Bool.not_true, Bool.and_false]
  · by_cases h16 : k < 16
    · cases b <;> simp only [hone, hk, h16, decide_true, decide_false, Bool.or_false, if_true, BitVec.getLsbD_or,
        Bool.false_eq_true, if_false, BitVec.getLsbD_and, BitVec.getLsbD_not, Bool.not_false, Bool.and_true]
    · have hp : ∀ q : Word, q.getLsbD k = false := fun q => BitVec.getLsbD_of_ge q k (Nat.le_of_not_lt h16)
      rw [if_neg hk, hp, hp]

@[simp] theorem pswC_putC (p : Word) (b : Bool) : pswC (putC p b) = b :=
  putBit_getLsbD p 0 b 0 (by decide)
@[simp] theorem pswC_putZ (p : Word) (b : Bool) : pswC (putZ p b) = pswC p :=
  putBit_getLsbD p 1 b 0 (by decide)
@[simp] theorem pswC_putN (p : Word) (b : Bool) : pswC (putN p b) = pswC p :=
  putBit_getLsbD p 2 b 0 (by decide)
@[simp] theorem pswC_putV (p : Word) (b : Bool) : pswC (putV p b) = pswC p :=
  putBit_getLsbD p 4 b 0 (by decide)
@[simp] theorem pswZ_putC (p : Word) (b : Bool) : pswZ (putC p b) = pswZ p :=
  putBit_getLsbD p 0 b 1 (by decide)
@[simp] theorem pswZ_putZ (p : Word) (b : Bool) : pswZ (putZ p b) = b :=
  putBit_getLsbD p 1 b 1 (by decide)
@[simp] theorem pswZ_putN (p : Word) (b : Bool) : pswZ (putN p b) = pswZ p :=
  putBit_getLsbD p 2 b 1 (by decide)
@[simp] theorem pswZ_putV (p : Word) (b : Bool) : pswZ (putV p b) = pswZ p :=
  putBit_getLsbD p 4 b 1 (by decide)
@[simp] theorem pswN_putC (p : Word) (b : Bool) : pswN (putC p b) = pswN p :=
  putBit_getLsbD p 0 b 2 (by decide)
@[simp] theorem pswN_putZ (p : Word) (b : Bool) : pswN (putZ p b) = pswN p :=
  putBit_getLsbD p 1 b 2 (by decide)
@[simp] theorem pswN_putN (p : Word) (b : Bool) : pswN (putN p b) = b :=
  putBit_getLsbD p 2 b 2 (by decide)
@[simp] theorem pswN_putV (p : Word) (b : Bool) : pswN (putV p b) = pswN p :=
  putBit_getLsbD p 4 b 2 (by decide)
@[simp] theorem pswV_putC (p : Word) (b : Bool) : pswV (putC p b) = pswV p :=
  putBit_getLsbD p 0 b 4 (by decide)
@[simp] theorem pswV_putZ (p : Word) (b : Bool) : pswV (putZ p b) = pswV p :=
  putBit_getLsbD p 1 b 4 (by decide)
@[simp] theorem pswV_putN (p : Word) (b : Bool) : pswV (putN p b) = pswV p :=
  putBit_getLsbD p 2 b 4 (by decide)
@[simp] theorem pswV_putV (p : Word) (b : Bool) : pswV (putV p b) = b :=
  putBit_getLsbD p 4 b 4 (by decide)

/-! Each flag computation: the flags it writes and the bits it keeps. -/

/-- `flagsZN` writes Z and N and keeps every other bit. -/
theorem flagsZN_spec {n : Nat} (p : Word) (r : BitVec n) :
    pswZ (flagsZN p r) = (r == 0#n) ∧ pswN (flagsZN p r) = r.msb ∧
    ∀ k, k ≠ 1 → k ≠ 2 → (flagsZN p r).getLsbD k = p.getLsbD k := by
  refine ⟨by simp [flagsZN], by simp [flagsZN], fun k h1 h2 => ?_⟩
  simp [flagsZN, putN, putZ, putBit_getLsbD, h1, h2]

/-- `flagsAdd` writes C, V, Z and N and keeps every other bit. -/
theorem flagsAdd_spec {n : Nat} (p : Word) (b d r : BitVec n) :
    pswC (flagsAdd p b d r) = carryTable b.msb d.msb r.msb ∧
    pswV (flagsAdd p b d r) = overflowTable b.msb d.msb r.msb ∧
    pswZ (flagsAdd p b d r) = (r == 0#n) ∧ pswN (flagsAdd p b d r) = r.msb ∧
    ∀ k, k ≠ 0 → k ≠ 1 → k ≠ 2 → k ≠ 4 → (flagsAdd p b d r).getLsbD k = p.getLsbD k := by
  refine ⟨by simp [flagsAdd], by simp [flagsAdd], by simp [flagsAdd, flagsZN], by simp [flagsAdd, flagsZN], ?_⟩
  intro k h0 h1 h2 h4
  simp [flagsAdd, flagsZN, putV, putC, putN, putZ, putBit_getLsbD, h0, h1, h2, h4]

/-- `flagsShift` writes C, Z and N and keeps every other bit. -/
theorem flagsShift_spec {n : Nat} (p : Word) (out : Bool) (r : BitVec n) :
    pswC (flagsShift p out r) = out ∧ pswZ (flagsShift p out r) = (r == 0#n) ∧ pswN (flagsShift p out r) = r.msb ∧
    ∀ k, k ≠ 0 → k ≠ 1 → k ≠ 2 → (flagsShift p out r).getLsbD k = p.getLsbD k := by
  refine ⟨by simp [flagsShift, flagsZN], by simp [flagsShift, flagsZN], by simp [flagsShift, flagsZN], ?_⟩
  intro k h0 h1 h2
  simp [flagsShift, flagsZN, putC, putN, putZ, putBit_getLsbD, h0, h1, h2]

/-- `flagsDecimal` writes C and Z and keeps every other bit. -/
theorem flagsDecimal_spec {n : Nat} (p : Word) (carry : Bool) (r : BitVec n) :
    pswC (flagsDecimal p carry r) = carry ∧ pswZ (flagsDecimal p carry r) = (r == 0#n) ∧
    ∀ k, k ≠ 0 → k ≠ 1 → (flagsDecimal p carry r).getLsbD k = p.getLsbD k := by
  refine ⟨by simp [flagsDecimal], by simp [flagsDecimal], fun k h0 h1 => ?_⟩
  simp [flagsDecimal, putC, putZ, putBit_getLsbD, h0, h1]

/-- PSW bits 15 to 5 survive a write of a flag (10_state.md R33). -/
theorem putBit_reserved (p : Word) (n : Nat) (b : Bool) (hn : n < 5) :
    putBit p n b &&& 0xFFE0#16 = p &&& 0xFFE0#16 := by
  apply BitVec.eq_of_getLsbD_eq
  intro k hk
  rw [BitVec.getLsbD_and, BitVec.getLsbD_and, putBit_getLsbD p n b k (by omega)]
  by_cases h : k = n
  · have : ∀ j, j < 5 → (0xFFE0#16).getLsbD j = false := by decide
    rw [this k (by omega), Bool.and_false, Bool.and_false]
  · rw [if_neg h]

theorem flagsZN_reserved {n : Nat} (p : Word) (r : BitVec n) : flagsZN p r &&& 0xFFE0#16 = p &&& 0xFFE0#16 := by
  simp [flagsZN, putN, putZ, putBit_reserved]

theorem flagsAdd_reserved {n : Nat} (p : Word) (b d r : BitVec n) :
    flagsAdd p b d r &&& 0xFFE0#16 = p &&& 0xFFE0#16 := by
  simp [flagsAdd, putC, putV, putBit_reserved, flagsZN_reserved]

theorem flagsShift_reserved {n : Nat} (p : Word) (out : Bool) (r : BitVec n) :
    flagsShift p out r &&& 0xFFE0#16 = p &&& 0xFFE0#16 := by
  simp [flagsShift, putC, putBit_reserved, flagsZN_reserved]

theorem flagsDecimal_reserved {n : Nat} (p : Word) (c : Bool) (r : BitVec n) :
    flagsDecimal p c r &&& 0xFFE0#16 = p &&& 0xFFE0#16 := by
  simp [flagsDecimal, putC, putZ, putBit_reserved]

/-! The adder (R201). -/

/-- The (W+1)-bit sum does not wrap. -/
theorem sumWide_toNat {n : Nat} (d b : BitVec n) (cin : Bool) :
    (sumWide d b cin).toNat = (d.toNat + b.toNat + cin.toNat) % 2 ^ (n + 1) := by
  have hc : cin.toNat ≤ 1 := by cases cin <;> decide
  simp only [sumWide, BitVec.toNat_add, BitVec.toNat_setWidth, BitVec.toNat_ofBool]
  rw [Nat.mod_eq_of_lt (Nat.lt_of_lt_of_le d.isLt (Nat.pow_le_pow_right (by decide) (Nat.le_succ n))),
    Nat.mod_eq_of_lt (Nat.lt_of_lt_of_le b.isLt (Nat.pow_le_pow_right (by decide) (Nat.le_succ n)))]
  simp only [Nat.mod_add_mod, Nat.add_mod_mod]

/-- The result of the adder modulo 2^W. -/
theorem addResult_toNat {n : Nat} (d b : BitVec n) (cin : Bool) :
    (addResult d b cin).toNat = (d.toNat + b.toNat + cin.toNat) % 2 ^ n := by
  rw [addResult, BitVec.toNat_setWidth, sumWide_toNat, Nat.mod_mod_of_dvd]
  exact ⟨2, by rw [Nat.pow_succ]⟩

/-- The result of the adder as modular arithmetic. -/
theorem addResult_eq {n : Nat} (d b : BitVec n) (cin : Bool) :
    addResult d b cin = d + b + (BitVec.ofBool cin).setWidth n := by
  apply BitVec.eq_of_toNat_eq
  simp [addResult_toNat, BitVec.toNat_add, BitVec.toNat_setWidth]

end Sys2Proof.Machine
end

