-- ==== Sys2Proof/Laws/Registers.lean ====
section
/-! SUPPORT. Reading and writing registers, the low bits of a register and the merge of a byte result. -/

namespace Sys2Proof.Machine

/-! The eight slots of a bank. -/

@[simp] theorem Bank.get_set_same (b : Bank) (r : Reg) (v : Word) : (b.set r v).get r = v := by
  cases r <;> rfl

@[simp] theorem Bank.get_set_other (b : Bank) (r q : Reg) (v : Word) (h : q ≠ r) :
    (b.set r v).get q = b.get q := by
  cases r <;> cases q <;> first | rfl | exact absurd rfl h

theorem Bank.get_set (b : Bank) (r q : Reg) (v : Word) :
    (b.set r v).get q = if q = r then v else b.get q := by
  cases r <;> cases q <;> rfl

@[simp] theorem Bank.set_get (b : Bank) (r : Reg) : b.set r (b.get r) = b := by cases r <;> rfl

@[simp] theorem Bank.set_set (b : Bank) (r : Reg) (v w : Word) : (b.set r v).set r w = b.set r w := by
  cases r <;> rfl

theorem Bank.set_comm (b : Bank) (r q : Reg) (v w : Word) (h : r ≠ q) :
    (b.set r v).set q w = (b.set q w).set r v := by
  cases r <;> cases q <;> first | rfl | exact absurd rfl h

/-- Two banks that read alike are equal. -/
theorem Bank.eq_of_get (a b : Bank) (h : ∀ r, a.get r = b.get r) : a = b := by
  cases a
  cases b
  have h0 := h .r0
  have h1 := h .r1
  have h2 := h .r2
  have h3 := h .r3
  have h4 := h .r4
  have h5 := h .r5
  have h6 := h .r6
  have h7 := h .r7
  simp only [Bank.get] at h0 h1 h2 h3 h4 h5 h6 h7
  simp only [h0, h1, h2, h3, h4, h5, h6, h7]

/-! Registers of the state. -/

@[simp] theorem State.x_setX_same (s : State) (r : Reg) (v : Word) : (s.setX r v).x r = v :=
  Bank.get_set_same s.bank0 r v

@[simp] theorem State.x_setX_other (s : State) (r q : Reg) (v : Word) (h : q ≠ r) : (s.setX r v).x q = s.x q :=
  Bank.get_set_other s.bank0 r q v h

@[simp] theorem State.x_setPsw (s : State) (r : Reg) (v : Word) : (s.setPsw v).x r = s.x r := rfl

theorem State.x_eq (s : State) (r : Reg) : s.x r = s.bank0.get r := rfl

@[simp] theorem State.pc_setPsw (s : State) (v : Word) : (s.setPsw v).pc = s.pc := rfl

@[simp] theorem State.pc_setX_r7 (s : State) (v : Word) : (s.setX .r7 v).pc = v := rfl

/-! The low bits and the merge (42_arithmetic_logic.md R200). -/

@[simp] theorem lowBits_word (v : Word) : lowBits .word v = v := BitVec.setWidth_eq v

theorem lowBits_byte (v : Word) : lowBits .byte v = v.extractLsb' 0 8 := by
  apply BitVec.eq_of_getLsbD_eq
  intro i hi
  have hi : i < 8 := hi
  simp [lowBits, hi]

theorem lowBits_getLsbD (wb : Width) (v : Word) (n : Nat) :
    (lowBits wb v).getLsbD n = (decide (n < wb.bits) && v.getLsbD n) := by
  simp [lowBits]

theorem mergeBits_word (old : Word) (v : BitVec 16) : mergeBits .word old v = v := rfl

theorem mergeBits_byte (old : Word) (v : BitVec 8) : mergeBits .byte old v = old.extractLsb' 8 8 ++ v := rfl

/-- A merged result reads back as the result. -/
@[simp] theorem lowBits_mergeBits (wb : Width) (old : Word) (v : BitVec wb.bits) :
    lowBits wb (mergeBits wb old v) = v := by
  cases wb with
  | word => exact lowBits_word v
  | byte =>
    apply BitVec.eq_of_getLsbD_eq
    intro i hi
    have hi : i < 8 := hi
    simp only [lowBits_getLsbD, mergeBits, BitVec.getLsbD_append]
    simp [hi]

/-- Below the width a merged result reads as the result, above it as the old value. -/
theorem mergeBits_getLsbD (wb : Width) (old : Word) (v : BitVec wb.bits) (n : Nat) :
    (mergeBits wb old v).getLsbD n = if n < wb.bits then v.getLsbD n else old.getLsbD n := by
  cases wb with
  | word =>
    by_cases h : n < 16
    · simp [mergeBits, h]
    · simp [mergeBits, h, BitVec.getLsbD_of_ge _ _ (Nat.le_of_not_lt h)]
  | byte =>
    simp only [mergeBits, BitVec.getLsbD_append, BitVec.getLsbD_extractLsb']
    by_cases h : n < 8
    · simp [h]
    · by_cases h2 : n < 16
      · have : n - 8 < 8 := by omega
        have e : 8 + (n - 8) = n := by omega
        simp [h, this, e]
      · have : ¬ n - 8 < 8 := by omega
        simp [h, this, BitVec.getLsbD_of_ge old n (by omega)]

/-- A byte result keeps the high byte of the register (42_arithmetic_logic.md R200). -/
theorem mergeBits_byte_high (old : Word) (v : BitVec 8) :
    (mergeBits .byte old v).extractLsb' 8 8 = old.extractLsb' 8 8 := by
  apply BitVec.eq_of_getLsbD_eq
  intro i hi
  simp only [BitVec.getLsbD_extractLsb', mergeBits_getLsbD]
  simp

/-- Writing back what the register already holds changes nothing. -/
@[simp] theorem mergeBits_lowBits (wb : Width) (v : Word) : mergeBits wb v (lowBits wb v) = v := by
  apply BitVec.eq_of_getLsbD_eq
  intro i _
  rw [mergeBits_getLsbD, lowBits_getLsbD]
  by_cases h : i < wb.bits <;> simp [h]

/-- The second write-back of a width decides. -/
@[simp] theorem mergeBits_mergeBits (wb : Width) (old : Word) (v w : BitVec wb.bits) :
    mergeBits wb (mergeBits wb old v) w = mergeBits wb old w := by
  apply BitVec.eq_of_getLsbD_eq
  intro i _
  simp only [mergeBits_getLsbD]
  by_cases h : i < wb.bits <;> simp [h]

/-- What a write-back does (42_arithmetic_logic.md R200): the operand reads as the result, the high byte of a byte
result stays, and every other register is as it was. -/
theorem State.writeBack_spec (s : State) (wb : Width) (r : Reg) (v : BitVec wb.bits) :
    lowBits wb ((s.writeBack wb r v).x r) = v ∧
    (wb = .byte → ((s.writeBack wb r v).x r).extractLsb' 8 8 = (s.x r).extractLsb' 8 8) ∧
    (∀ q, q ≠ r → (s.writeBack wb r v).x q = s.x q) ∧
    s.writeBack wb r v = { s with bank0 := (s.writeBack wb r v).bank0 } := by
  refine ⟨?_, ?_, ?_, rfl⟩
  · rw [State.writeBack, State.x_setX_same, lowBits_mergeBits]
  · rintro rfl
    rw [State.writeBack, State.x_setX_same, mergeBits_byte_high]
  · intro q hq
    exact State.x_setX_other s r q _ hq

@[simp] theorem State.x_writeBack_same (s : State) (wb : Width) (r : Reg) (v : BitVec wb.bits) :
    (s.writeBack wb r v).x r = mergeBits wb (s.x r) v := State.x_setX_same s r _

@[simp] theorem State.x_writeBack_other (s : State) (wb : Width) (r q : Reg) (v : BitVec wb.bits) (h : q ≠ r) :
    (s.writeBack wb r v).x q = s.x q := State.x_setX_other s r q _ h

end Sys2Proof.Machine
end

