-- ==== Sys2Proof/Laws/State.lean ====
section
/-! SUPPORT. One lemma per field per update of the state, true by definition, so that no later proof unfolds a record
update. -/

namespace Sys2Proof.Machine

variable (s : State)

/-! `State.setX`. -/

@[simp] theorem State.setX_bank0 (r : Reg) (v : Word) : (s.setX r v).bank0 = s.bank0.set r v := rfl
@[simp] theorem State.setX_bank1 (r : Reg) (v : Word) : (s.setX r v).bank1 = s.bank1 := rfl
@[simp] theorem State.setX_psw (r : Reg) (v : Word) : (s.setX r v).psw = s.psw := rfl
@[simp] theorem State.setX_imar (r : Reg) (v : Word) : (s.setX r v).imar = s.imar := rfl
@[simp] theorem State.setX_imbr (r : Reg) (v : Word) : (s.setX r v).imbr = s.imbr := rfl
@[simp] theorem State.setX_ir (r : Reg) (v : Word) : (s.setX r v).ir = s.ir := rfl
@[simp] theorem State.setX_dmar (r : Reg) (v : Word) : (s.setX r v).dmar = s.dmar := rfl
@[simp] theorem State.setX_dmbr (r : Reg) (v : Word) : (s.setX r v).dmbr = s.dmbr := rfl
@[simp] theorem State.setX_dctrl (r : Reg) (v : Word) : (s.setX r v).dctrl = s.dctrl := rfl
@[simp] theorem State.setX_dec (r : Reg) (v : Word) : (s.setX r v).dec = s.dec := rfl
@[simp] theorem State.setX_lsd (r : Reg) (v : Word) : (s.setX r v).lsd = s.lsd := rfl
@[simp] theorem State.setX_decodeBubble (r : Reg) (v : Word) : (s.setX r v).decodeBubble = s.decodeBubble := rfl
@[simp] theorem State.setX_executeBubble (r : Reg) (v : Word) : (s.setX r v).executeBubble = s.executeBubble := rfl
@[simp] theorem State.setX_cex (r : Reg) (v : Word) : (s.setX r v).cex = s.cex := rfl
@[simp] theorem State.setX_ctl (r : Reg) (v : Word) : (s.setX r v).ctl = s.ctl := rfl
@[simp] theorem State.setX_imem (r : Reg) (v : Word) : (s.setX r v).imem = s.imem := rfl
@[simp] theorem State.setX_dmem (r : Reg) (v : Word) : (s.setX r v).dmem = s.dmem := rfl
@[simp] theorem State.setX_invalid (r : Reg) (v : Word) : (s.setX r v).invalid = s.invalid := rfl
@[simp] theorem State.setX_reply (r : Reg) (v : Word) : (s.setX r v).reply = s.reply := rfl
@[simp] theorem State.setX_inputs (r : Reg) (v : Word) : (s.setX r v).inputs = s.inputs := rfl

/-! `State.setPsw`. -/

@[simp] theorem State.setPsw_bank0 (v : Word) : (s.setPsw v).bank0 = s.bank0 := rfl
@[simp] theorem State.setPsw_bank1 (v : Word) : (s.setPsw v).bank1 = s.bank1 := rfl
@[simp] theorem State.setPsw_psw (v : Word) : (s.setPsw v).psw = v := rfl
@[simp] theorem State.setPsw_imar (v : Word) : (s.setPsw v).imar = s.imar := rfl
@[simp] theorem State.setPsw_imbr (v : Word) : (s.setPsw v).imbr = s.imbr := rfl
@[simp] theorem State.setPsw_ir (v : Word) : (s.setPsw v).ir = s.ir := rfl
@[simp] theorem State.setPsw_dmar (v : Word) : (s.setPsw v).dmar = s.dmar := rfl
@[simp] theorem State.setPsw_dmbr (v : Word) : (s.setPsw v).dmbr = s.dmbr := rfl
@[simp] theorem State.setPsw_dctrl (v : Word) : (s.setPsw v).dctrl = s.dctrl := rfl
@[simp] theorem State.setPsw_dec (v : Word) : (s.setPsw v).dec = s.dec := rfl
@[simp] theorem State.setPsw_lsd (v : Word) : (s.setPsw v).lsd = s.lsd := rfl
@[simp] theorem State.setPsw_decodeBubble (v : Word) : (s.setPsw v).decodeBubble = s.decodeBubble := rfl
@[simp] theorem State.setPsw_executeBubble (v : Word) : (s.setPsw v).executeBubble = s.executeBubble := rfl
@[simp] theorem State.setPsw_cex (v : Word) : (s.setPsw v).cex = s.cex := rfl
@[simp] theorem State.setPsw_ctl (v : Word) : (s.setPsw v).ctl = s.ctl := rfl
@[simp] theorem State.setPsw_imem (v : Word) : (s.setPsw v).imem = s.imem := rfl
@[simp] theorem State.setPsw_dmem (v : Word) : (s.setPsw v).dmem = s.dmem := rfl
@[simp] theorem State.setPsw_invalid (v : Word) : (s.setPsw v).invalid = s.invalid := rfl
@[simp] theorem State.setPsw_reply (v : Word) : (s.setPsw v).reply = s.reply := rfl
@[simp] theorem State.setPsw_inputs (v : Word) : (s.setPsw v).inputs = s.inputs := rfl

/-! `State.writeBack`. -/

@[simp] theorem State.writeBack_bank0 (wb : Width) (r : Reg) (v : BitVec wb.bits) : (s.writeBack wb r v).bank0 =
    s.bank0.set r (mergeBits wb (s.x r) v) := rfl
@[simp] theorem State.writeBack_bank1 (wb : Width) (r : Reg) (v : BitVec wb.bits) : (s.writeBack wb r v).bank1 =
    s.bank1 := rfl
@[simp] theorem State.writeBack_psw (wb : Width) (r : Reg) (v : BitVec wb.bits) : (s.writeBack wb r v).psw =
    s.psw := rfl
@[simp] theorem State.writeBack_imar (wb : Width) (r : Reg) (v : BitVec wb.bits) : (s.writeBack wb r v).imar =
    s.imar := rfl
@[simp] theorem State.writeBack_imbr (wb : Width) (r : Reg) (v : BitVec wb.bits) : (s.writeBack wb r v).imbr =
    s.imbr := rfl
@[simp] theorem State.writeBack_ir (wb : Width) (r : Reg) (v : BitVec wb.bits) : (s.writeBack wb r v).ir = s.ir := rfl
@[simp] theorem State.writeBack_dmar (wb : Width) (r : Reg) (v : BitVec wb.bits) : (s.writeBack wb r v).dmar =
    s.dmar := rfl
@[simp] theorem State.writeBack_dmbr (wb : Width) (r : Reg) (v : BitVec wb.bits) : (s.writeBack wb r v).dmbr =
    s.dmbr := rfl
@[simp] theorem State.writeBack_dctrl (wb : Width) (r : Reg) (v : BitVec wb.bits) : (s.writeBack wb r v).dctrl =
    s.dctrl := rfl
@[simp] theorem State.writeBack_dec (wb : Width) (r : Reg) (v : BitVec wb.bits) : (s.writeBack wb r v).dec =
    s.dec := rfl
@[simp] theorem State.writeBack_lsd (wb : Width) (r : Reg) (v : BitVec wb.bits) : (s.writeBack wb r v).lsd =
    s.lsd := rfl
@[simp] theorem State.writeBack_decodeBubble (wb : Width) (r : Reg) (v : BitVec wb.bits) : (s.writeBack wb r v).decodeBubble =
    s.decodeBubble := rfl
@[simp] theorem State.writeBack_executeBubble (wb : Width) (r : Reg) (v : BitVec wb.bits) : (s.writeBack wb r v).executeBubble =
    s.executeBubble := rfl
@[simp] theorem State.writeBack_cex (wb : Width) (r : Reg) (v : BitVec wb.bits) : (s.writeBack wb r v).cex =
    s.cex := rfl
@[simp] theorem State.writeBack_ctl (wb : Width) (r : Reg) (v : BitVec wb.bits) : (s.writeBack wb r v).ctl =
    s.ctl := rfl
@[simp] theorem State.writeBack_imem (wb : Width) (r : Reg) (v : BitVec wb.bits) : (s.writeBack wb r v).imem =
    s.imem := rfl
@[simp] theorem State.writeBack_dmem (wb : Width) (r : Reg) (v : BitVec wb.bits) : (s.writeBack wb r v).dmem =
    s.dmem := rfl
@[simp] theorem State.writeBack_invalid (wb : Width) (r : Reg) (v : BitVec wb.bits) : (s.writeBack wb r v).invalid =
    s.invalid := rfl
@[simp] theorem State.writeBack_reply (wb : Width) (r : Reg) (v : BitVec wb.bits) : (s.writeBack wb r v).reply =
    s.reply := rfl
@[simp] theorem State.writeBack_inputs (wb : Width) (r : Reg) (v : BitVec wb.bits) : (s.writeBack wb r v).inputs =
    s.inputs := rfl

/-! `State.postRead`. -/

@[simp] theorem State.postRead_bank0 (wb : Width) (ea : Word) (r : Reg) : (s.postRead wb ea r).bank0 = s.bank0 := rfl
@[simp] theorem State.postRead_bank1 (wb : Width) (ea : Word) (r : Reg) : (s.postRead wb ea r).bank1 = s.bank1 := rfl
@[simp] theorem State.postRead_psw (wb : Width) (ea : Word) (r : Reg) : (s.postRead wb ea r).psw = s.psw := rfl
@[simp] theorem State.postRead_imar (wb : Width) (ea : Word) (r : Reg) : (s.postRead wb ea r).imar = s.imar := rfl
@[simp] theorem State.postRead_imbr (wb : Width) (ea : Word) (r : Reg) : (s.postRead wb ea r).imbr = s.imbr := rfl
@[simp] theorem State.postRead_ir (wb : Width) (ea : Word) (r : Reg) : (s.postRead wb ea r).ir = s.ir := rfl
@[simp] theorem State.postRead_dmar (wb : Width) (ea : Word) (r : Reg) : (s.postRead wb ea r).dmar = ea := rfl
@[simp] theorem State.postRead_dmbr (wb : Width) (ea : Word) (r : Reg) : (s.postRead wb ea r).dmbr = s.dmbr := rfl
@[simp] theorem State.postRead_dctrl (wb : Width) (ea : Word) (r : Reg) : (s.postRead wb ea r).dctrl =
    (match wb with | .word => .rdW | .byte => .rdB) := rfl
@[simp] theorem State.postRead_dec (wb : Width) (ea : Word) (r : Reg) : (s.postRead wb ea r).dec = s.dec := rfl
@[simp] theorem State.postRead_lsd (wb : Width) (ea : Word) (r : Reg) : (s.postRead wb ea r).lsd = r := rfl
@[simp] theorem State.postRead_decodeBubble (wb : Width) (ea : Word) (r : Reg) : (s.postRead wb ea r).decodeBubble =
    s.decodeBubble := rfl
@[simp] theorem State.postRead_executeBubble (wb : Width) (ea : Word) (r : Reg) : (s.postRead wb ea r).executeBubble =
    s.executeBubble := rfl
@[simp] theorem State.postRead_cex (wb : Width) (ea : Word) (r : Reg) : (s.postRead wb ea r).cex = s.cex := rfl
@[simp] theorem State.postRead_ctl (wb : Width) (ea : Word) (r : Reg) : (s.postRead wb ea r).ctl = s.ctl := rfl
@[simp] theorem State.postRead_imem (wb : Width) (ea : Word) (r : Reg) : (s.postRead wb ea r).imem = s.imem := rfl
@[simp] theorem State.postRead_dmem (wb : Width) (ea : Word) (r : Reg) : (s.postRead wb ea r).dmem = s.dmem := rfl
@[simp] theorem State.postRead_invalid (wb : Width) (ea : Word) (r : Reg) : (s.postRead wb ea r).invalid =
    s.invalid := rfl
@[simp] theorem State.postRead_reply (wb : Width) (ea : Word) (r : Reg) : (s.postRead wb ea r).reply = s.reply := rfl
@[simp] theorem State.postRead_inputs (wb : Width) (ea : Word) (r : Reg) : (s.postRead wb ea r).inputs =
    s.inputs := rfl

/-! `State.postWrite`. -/

@[simp] theorem State.postWrite_bank0 (wb : Width) (ea v : Word) : (s.postWrite wb ea v).bank0 = s.bank0 := rfl
@[simp] theorem State.postWrite_bank1 (wb : Width) (ea v : Word) : (s.postWrite wb ea v).bank1 = s.bank1 := rfl
@[simp] theorem State.postWrite_psw (wb : Width) (ea v : Word) : (s.postWrite wb ea v).psw = s.psw := rfl
@[simp] theorem State.postWrite_imar (wb : Width) (ea v : Word) : (s.postWrite wb ea v).imar = s.imar := rfl
@[simp] theorem State.postWrite_imbr (wb : Width) (ea v : Word) : (s.postWrite wb ea v).imbr = s.imbr := rfl
@[simp] theorem State.postWrite_ir (wb : Width) (ea v : Word) : (s.postWrite wb ea v).ir = s.ir := rfl
@[simp] theorem State.postWrite_dmar (wb : Width) (ea v : Word) : (s.postWrite wb ea v).dmar = ea := rfl
@[simp] theorem State.postWrite_dmbr (wb : Width) (ea v : Word) : (s.postWrite wb ea v).dmbr =
    (match wb with | .word => v | .byte => (v.extractLsb' 0 8).setWidth 16) := rfl
@[simp] theorem State.postWrite_dctrl (wb : Width) (ea v : Word) : (s.postWrite wb ea v).dctrl =
    (match wb with | .word => .wrW | .byte => .wrB) := rfl
@[simp] theorem State.postWrite_dec (wb : Width) (ea v : Word) : (s.postWrite wb ea v).dec = s.dec := rfl
@[simp] theorem State.postWrite_lsd (wb : Width) (ea v : Word) : (s.postWrite wb ea v).lsd = s.lsd := rfl
@[simp] theorem State.postWrite_decodeBubble (wb : Width) (ea v : Word) : (s.postWrite wb ea v).decodeBubble =
    s.decodeBubble := rfl
@[simp] theorem State.postWrite_executeBubble (wb : Width) (ea v : Word) : (s.postWrite wb ea v).executeBubble =
    s.executeBubble := rfl
@[simp] theorem State.postWrite_cex (wb : Width) (ea v : Word) : (s.postWrite wb ea v).cex = s.cex := rfl
@[simp] theorem State.postWrite_ctl (wb : Width) (ea v : Word) : (s.postWrite wb ea v).ctl = s.ctl := rfl
@[simp] theorem State.postWrite_imem (wb : Width) (ea v : Word) : (s.postWrite wb ea v).imem = s.imem := rfl
@[simp] theorem State.postWrite_dmem (wb : Width) (ea v : Word) : (s.postWrite wb ea v).dmem = s.dmem := rfl
@[simp] theorem State.postWrite_invalid (wb : Width) (ea v : Word) : (s.postWrite wb ea v).invalid = s.invalid := rfl
@[simp] theorem State.postWrite_reply (wb : Width) (ea v : Word) : (s.postWrite wb ea v).reply = s.reply := rfl
@[simp] theorem State.postWrite_inputs (wb : Width) (ea v : Word) : (s.postWrite wb ea v).inputs = s.inputs := rfl

/-! `State.branchTo`. -/

@[simp] theorem State.branchTo_bank0 (off : Word) : (s.branchTo off).bank0 = s.bank0.set .r7 (s.pc + off) := rfl
@[simp] theorem State.branchTo_bank1 (off : Word) : (s.branchTo off).bank1 = s.bank1 := rfl
@[simp] theorem State.branchTo_psw (off : Word) : (s.branchTo off).psw = s.psw := rfl
@[simp] theorem State.branchTo_imar (off : Word) : (s.branchTo off).imar = s.imar := rfl
@[simp] theorem State.branchTo_imbr (off : Word) : (s.branchTo off).imbr = s.imbr := rfl
@[simp] theorem State.branchTo_ir (off : Word) : (s.branchTo off).ir = s.ir := rfl
@[simp] theorem State.branchTo_dmar (off : Word) : (s.branchTo off).dmar = s.dmar := rfl
@[simp] theorem State.branchTo_dmbr (off : Word) : (s.branchTo off).dmbr = s.dmbr := rfl
@[simp] theorem State.branchTo_dctrl (off : Word) : (s.branchTo off).dctrl = s.dctrl := rfl
@[simp] theorem State.branchTo_dec (off : Word) : (s.branchTo off).dec = s.dec := rfl
@[simp] theorem State.branchTo_lsd (off : Word) : (s.branchTo off).lsd = s.lsd := rfl
@[simp] theorem State.branchTo_decodeBubble (off : Word) : (s.branchTo off).decodeBubble = true := rfl
@[simp] theorem State.branchTo_executeBubble (off : Word) : (s.branchTo off).executeBubble = s.executeBubble := rfl
@[simp] theorem State.branchTo_cex (off : Word) : (s.branchTo off).cex = s.cex := rfl
@[simp] theorem State.branchTo_ctl (off : Word) : (s.branchTo off).ctl = s.ctl := rfl
@[simp] theorem State.branchTo_imem (off : Word) : (s.branchTo off).imem = s.imem := rfl
@[simp] theorem State.branchTo_dmem (off : Word) : (s.branchTo off).dmem = s.dmem := rfl
@[simp] theorem State.branchTo_invalid (off : Word) : (s.branchTo off).invalid = s.invalid := rfl
@[simp] theorem State.branchTo_reply (off : Word) : (s.branchTo off).reply = s.reply := rfl
@[simp] theorem State.branchTo_inputs (off : Word) : (s.branchTo off).inputs = s.inputs := rfl

/-! `stageF0`. -/

@[simp] theorem stageF0_bank0 : (stageF0 s).bank0 = s.bank0.set .r7 (s.pc + 2) := rfl
@[simp] theorem stageF0_bank1 : (stageF0 s).bank1 = s.bank1 := rfl
@[simp] theorem stageF0_psw : (stageF0 s).psw = s.psw := rfl
@[simp] theorem stageF0_imar : (stageF0 s).imar = s.pc := rfl
@[simp] theorem stageF0_imbr : (stageF0 s).imbr = s.imbr := rfl
@[simp] theorem stageF0_ir : (stageF0 s).ir = s.ir := rfl
@[simp] theorem stageF0_dmar : (stageF0 s).dmar = s.dmar := rfl
@[simp] theorem stageF0_dmbr : (stageF0 s).dmbr = s.dmbr := rfl
@[simp] theorem stageF0_dctrl : (stageF0 s).dctrl = s.dctrl := rfl
@[simp] theorem stageF0_dec : (stageF0 s).dec = s.dec := rfl
@[simp] theorem stageF0_lsd : (stageF0 s).lsd = s.lsd := rfl
@[simp] theorem stageF0_decodeBubble : (stageF0 s).decodeBubble = s.decodeBubble := rfl
@[simp] theorem stageF0_executeBubble : (stageF0 s).executeBubble = s.executeBubble := rfl
@[simp] theorem stageF0_cex : (stageF0 s).cex = s.cex := rfl
@[simp] theorem stageF0_ctl : (stageF0 s).ctl = s.ctl := rfl
@[simp] theorem stageF0_imem : (stageF0 s).imem = s.imem := rfl
@[simp] theorem stageF0_dmem : (stageF0 s).dmem = s.dmem := rfl
@[simp] theorem stageF0_invalid : (stageF0 s).invalid = s.invalid := rfl
@[simp] theorem stageF0_reply : (stageF0 s).reply = s.reply := rfl
@[simp] theorem stageF0_inputs : (stageF0 s).inputs = s.inputs := rfl

/-! `bubbleDecode`. -/

@[simp] theorem bubbleDecode_bank0 : (bubbleDecode s).bank0 = s.bank0 := rfl
@[simp] theorem bubbleDecode_bank1 : (bubbleDecode s).bank1 = s.bank1 := rfl
@[simp] theorem bubbleDecode_psw : (bubbleDecode s).psw = s.psw := rfl
@[simp] theorem bubbleDecode_imar : (bubbleDecode s).imar = s.imar := rfl
@[simp] theorem bubbleDecode_imbr : (bubbleDecode s).imbr = s.imbr := rfl
@[simp] theorem bubbleDecode_ir : (bubbleDecode s).ir = s.ir := rfl
@[simp] theorem bubbleDecode_dmar : (bubbleDecode s).dmar = s.dmar := rfl
@[simp] theorem bubbleDecode_dmbr : (bubbleDecode s).dmbr = s.dmbr := rfl
@[simp] theorem bubbleDecode_dctrl : (bubbleDecode s).dctrl = s.dctrl := rfl
@[simp] theorem bubbleDecode_dec : (bubbleDecode s).dec = .nop := rfl
@[simp] theorem bubbleDecode_lsd : (bubbleDecode s).lsd = s.lsd := rfl
@[simp] theorem bubbleDecode_decodeBubble : (bubbleDecode s).decodeBubble = s.decodeBubble := rfl
@[simp] theorem bubbleDecode_executeBubble : (bubbleDecode s).executeBubble = true := rfl
@[simp] theorem bubbleDecode_cex : (bubbleDecode s).cex = s.cex := rfl
@[simp] theorem bubbleDecode_ctl : (bubbleDecode s).ctl = s.ctl := rfl
@[simp] theorem bubbleDecode_imem : (bubbleDecode s).imem = s.imem := rfl
@[simp] theorem bubbleDecode_dmem : (bubbleDecode s).dmem = s.dmem := rfl
@[simp] theorem bubbleDecode_invalid : (bubbleDecode s).invalid = none := rfl
@[simp] theorem bubbleDecode_reply : (bubbleDecode s).reply = s.reply := rfl
@[simp] theorem bubbleDecode_inputs : (bubbleDecode s).inputs = s.inputs := rfl

/-! `acceptDecode`. -/

@[simp] theorem acceptDecode_bank0 : (acceptDecode s).bank0 = s.bank0 := rfl
@[simp] theorem acceptDecode_bank1 : (acceptDecode s).bank1 = s.bank1 := rfl
@[simp] theorem acceptDecode_psw : (acceptDecode s).psw = s.psw := rfl
@[simp] theorem acceptDecode_imar : (acceptDecode s).imar = s.imar := rfl
@[simp] theorem acceptDecode_imbr : (acceptDecode s).imbr = s.imbr := rfl
@[simp] theorem acceptDecode_ir : (acceptDecode s).ir = s.ir := rfl
@[simp] theorem acceptDecode_dmar : (acceptDecode s).dmar = s.dmar := rfl
@[simp] theorem acceptDecode_dmbr : (acceptDecode s).dmbr = s.dmbr := rfl
@[simp] theorem acceptDecode_dctrl : (acceptDecode s).dctrl = s.dctrl := rfl
@[simp] theorem acceptDecode_dec : (acceptDecode s).dec = decode s.ir := rfl
@[simp] theorem acceptDecode_lsd : (acceptDecode s).lsd = s.lsd := rfl
@[simp] theorem acceptDecode_decodeBubble : (acceptDecode s).decodeBubble = s.decodeBubble := rfl
@[simp] theorem acceptDecode_executeBubble : (acceptDecode s).executeBubble = s.executeBubble := rfl
@[simp] theorem acceptDecode_cex : (acceptDecode s).cex = windowAfterDecode (decode s.ir) s.cex s.psw := rfl
@[simp] theorem acceptDecode_ctl : (acceptDecode s).ctl = s.ctl := rfl
@[simp] theorem acceptDecode_imem : (acceptDecode s).imem = s.imem := rfl
@[simp] theorem acceptDecode_dmem : (acceptDecode s).dmem = s.dmem := rfl
@[simp] theorem acceptDecode_invalid : (acceptDecode s).invalid =
    (if (decode s.ir).isInvalid then some s.ir else none) := rfl
@[simp] theorem acceptDecode_reply : (acceptDecode s).reply = s.reply := rfl
@[simp] theorem acceptDecode_inputs : (acceptDecode s).inputs = s.inputs := rfl

/-! `tickClock`. -/

@[simp] theorem tickClock_bank0 : (tickClock s).bank0 = s.bank0 := rfl
@[simp] theorem tickClock_bank1 : (tickClock s).bank1 = s.bank1 := rfl
@[simp] theorem tickClock_psw : (tickClock s).psw = s.psw := rfl
@[simp] theorem tickClock_imar : (tickClock s).imar = s.imar := rfl
@[simp] theorem tickClock_imbr : (tickClock s).imbr = s.imbr := rfl
@[simp] theorem tickClock_ir : (tickClock s).ir = s.ir := rfl
@[simp] theorem tickClock_dmar : (tickClock s).dmar = s.dmar := rfl
@[simp] theorem tickClock_dmbr : (tickClock s).dmbr = s.dmbr := rfl
@[simp] theorem tickClock_dctrl : (tickClock s).dctrl = s.dctrl := rfl
@[simp] theorem tickClock_dec : (tickClock s).dec = s.dec := rfl
@[simp] theorem tickClock_lsd : (tickClock s).lsd = s.lsd := rfl
@[simp] theorem tickClock_decodeBubble : (tickClock s).decodeBubble = s.decodeBubble := rfl
@[simp] theorem tickClock_executeBubble : (tickClock s).executeBubble = s.executeBubble := rfl
@[simp] theorem tickClock_cex : (tickClock s).cex = s.cex := rfl
@[simp] theorem tickClock_ctl : (tickClock s).ctl = { s.ctl with clock := s.ctl.clock + 1 } := rfl
@[simp] theorem tickClock_imem : (tickClock s).imem = s.imem := rfl
@[simp] theorem tickClock_dmem : (tickClock s).dmem = s.dmem := rfl
@[simp] theorem tickClock_invalid : (tickClock s).invalid = s.invalid := rfl
@[simp] theorem tickClock_reply : (tickClock s).reply = s.reply := rfl
@[simp] theorem tickClock_inputs : (tickClock s).inputs = s.inputs := rfl

/-! `State.suspend`. -/

@[simp] theorem State.suspend_bank0 : (s.suspend).bank0 = s.bank0 := rfl
@[simp] theorem State.suspend_bank1 : (s.suspend).bank1 = s.bank1 := rfl
@[simp] theorem State.suspend_psw : (s.suspend).psw = s.psw := rfl
@[simp] theorem State.suspend_imar : (s.suspend).imar = s.imar := rfl
@[simp] theorem State.suspend_imbr : (s.suspend).imbr = s.imbr := rfl
@[simp] theorem State.suspend_ir : (s.suspend).ir = s.ir := rfl
@[simp] theorem State.suspend_dmar : (s.suspend).dmar = s.dmar := rfl
@[simp] theorem State.suspend_dmbr : (s.suspend).dmbr = s.dmbr := rfl
@[simp] theorem State.suspend_dctrl : (s.suspend).dctrl = s.dctrl := rfl
@[simp] theorem State.suspend_dec : (s.suspend).dec = s.dec := rfl
@[simp] theorem State.suspend_lsd : (s.suspend).lsd = s.lsd := rfl
@[simp] theorem State.suspend_decodeBubble : (s.suspend).decodeBubble = s.decodeBubble := rfl
@[simp] theorem State.suspend_executeBubble : (s.suspend).executeBubble = s.executeBubble := rfl
@[simp] theorem State.suspend_cex : (s.suspend).cex = s.cex := rfl
@[simp] theorem State.suspend_ctl : (s.suspend).ctl = { s.ctl with fsm := .suspended, stepOnce := false } := rfl
@[simp] theorem State.suspend_imem : (s.suspend).imem = s.imem := rfl
@[simp] theorem State.suspend_dmem : (s.suspend).dmem = s.dmem := rfl
@[simp] theorem State.suspend_invalid : (s.suspend).invalid = s.invalid := rfl
@[simp] theorem State.suspend_reply : (s.suspend).reply = s.reply := rfl
@[simp] theorem State.suspend_inputs : (s.suspend).inputs = s.inputs := rfl

/-! `State.halt`. -/

@[simp] theorem State.halt_bank0 : (s.halt).bank0 = s.bank0 := rfl
@[simp] theorem State.halt_bank1 : (s.halt).bank1 = s.bank1 := rfl
@[simp] theorem State.halt_psw : (s.halt).psw = s.psw := rfl
@[simp] theorem State.halt_imar : (s.halt).imar = s.imar := rfl
@[simp] theorem State.halt_imbr : (s.halt).imbr = s.imbr := rfl
@[simp] theorem State.halt_ir : (s.halt).ir = s.ir := rfl
@[simp] theorem State.halt_dmar : (s.halt).dmar = s.dmar := rfl
@[simp] theorem State.halt_dmbr : (s.halt).dmbr = s.dmbr := rfl
@[simp] theorem State.halt_dctrl : (s.halt).dctrl = s.dctrl := rfl
@[simp] theorem State.halt_dec : (s.halt).dec = s.dec := rfl
@[simp] theorem State.halt_lsd : (s.halt).lsd = s.lsd := rfl
@[simp] theorem State.halt_decodeBubble : (s.halt).decodeBubble = s.decodeBubble := rfl
@[simp] theorem State.halt_executeBubble : (s.halt).executeBubble = s.executeBubble := rfl
@[simp] theorem State.halt_cex : (s.halt).cex = s.cex := rfl
@[simp] theorem State.halt_ctl : (s.halt).ctl = { s.ctl with fsm := .halted } := rfl
@[simp] theorem State.halt_imem : (s.halt).imem = s.imem := rfl
@[simp] theorem State.halt_dmem : (s.halt).dmem = s.dmem := rfl
@[simp] theorem State.halt_invalid : (s.halt).invalid = s.invalid := rfl
@[simp] theorem State.halt_reply : (s.halt).reply = s.reply := rfl
@[simp] theorem State.halt_inputs : (s.halt).inputs = s.inputs := rfl

/-! `State.resume`. -/

@[simp] theorem State.resume_bank0 (once : Bool) : (s.resume once).bank0 = s.bank0 := rfl
@[simp] theorem State.resume_bank1 (once : Bool) : (s.resume once).bank1 = s.bank1 := rfl
@[simp] theorem State.resume_psw (once : Bool) : (s.resume once).psw = s.psw := rfl
@[simp] theorem State.resume_imar (once : Bool) : (s.resume once).imar = s.imar := rfl
@[simp] theorem State.resume_imbr (once : Bool) : (s.resume once).imbr = s.imbr := rfl
@[simp] theorem State.resume_ir (once : Bool) : (s.resume once).ir = s.ir := rfl
@[simp] theorem State.resume_dmar (once : Bool) : (s.resume once).dmar = s.dmar := rfl
@[simp] theorem State.resume_dmbr (once : Bool) : (s.resume once).dmbr = s.dmbr := rfl
@[simp] theorem State.resume_dctrl (once : Bool) : (s.resume once).dctrl = s.dctrl := rfl
@[simp] theorem State.resume_dec (once : Bool) : (s.resume once).dec = s.dec := rfl
@[simp] theorem State.resume_lsd (once : Bool) : (s.resume once).lsd = s.lsd := rfl
@[simp] theorem State.resume_decodeBubble (once : Bool) : (s.resume once).decodeBubble = s.decodeBubble := rfl
@[simp] theorem State.resume_executeBubble (once : Bool) : (s.resume once).executeBubble = s.executeBubble := rfl
@[simp] theorem State.resume_cex (once : Bool) : (s.resume once).cex = s.cex := rfl
@[simp] theorem State.resume_ctl (once : Bool) : (s.resume once).ctl =
    { s.ctl with fsm := .running, userInterrupt := false, stepOnce := once } := rfl
@[simp] theorem State.resume_imem (once : Bool) : (s.resume once).imem = s.imem := rfl
@[simp] theorem State.resume_dmem (once : Bool) : (s.resume once).dmem = s.dmem := rfl
@[simp] theorem State.resume_invalid (once : Bool) : (s.resume once).invalid = s.invalid := rfl
@[simp] theorem State.resume_reply (once : Bool) : (s.resume once).reply = s.reply := rfl
@[simp] theorem State.resume_inputs (once : Bool) : (s.resume once).inputs = s.inputs := rfl

/-! `State.start`. -/

@[simp] theorem State.start_bank0 (once : Bool) : (s.start once).bank0 = s.bank0.set .r7 s.ctl.startAddress := rfl
@[simp] theorem State.start_bank1 (once : Bool) : (s.start once).bank1 = s.bank1 := rfl
@[simp] theorem State.start_psw (once : Bool) : (s.start once).psw = s.psw := rfl
@[simp] theorem State.start_imar (once : Bool) : (s.start once).imar = s.imar := rfl
@[simp] theorem State.start_imbr (once : Bool) : (s.start once).imbr = s.imbr := rfl
@[simp] theorem State.start_ir (once : Bool) : (s.start once).ir = s.ir := rfl
@[simp] theorem State.start_dmar (once : Bool) : (s.start once).dmar = s.dmar := rfl
@[simp] theorem State.start_dmbr (once : Bool) : (s.start once).dmbr = s.dmbr := rfl
@[simp] theorem State.start_dctrl (once : Bool) : (s.start once).dctrl = s.dctrl := rfl
@[simp] theorem State.start_dec (once : Bool) : (s.start once).dec = s.dec := rfl
@[simp] theorem State.start_lsd (once : Bool) : (s.start once).lsd = s.lsd := rfl
@[simp] theorem State.start_decodeBubble (once : Bool) : (s.start once).decodeBubble = s.decodeBubble := rfl
@[simp] theorem State.start_executeBubble (once : Bool) : (s.start once).executeBubble = s.executeBubble := rfl
@[simp] theorem State.start_cex (once : Bool) : (s.start once).cex = s.cex := rfl
@[simp] theorem State.start_ctl (once : Bool) : (s.start once).ctl =
    { s.ctl with fsm := .running, hasStarted := true, userInterrupt := false, stepOnce := once || s.ctl.stepOnce } := rfl
@[simp] theorem State.start_imem (once : Bool) : (s.start once).imem = s.imem := rfl
@[simp] theorem State.start_dmem (once : Bool) : (s.start once).dmem = s.dmem := rfl
@[simp] theorem State.start_invalid (once : Bool) : (s.start once).invalid = s.invalid := rfl
@[simp] theorem State.start_reply (once : Bool) : (s.start once).reply = s.reply := rfl
@[simp] theorem State.start_inputs (once : Bool) : (s.start once).inputs = s.inputs := rfl

/-! `State.answer`. -/

@[simp] theorem State.answer_bank0 (r : Reply) : (s.answer r).bank0 = s.bank0 := rfl
@[simp] theorem State.answer_bank1 (r : Reply) : (s.answer r).bank1 = s.bank1 := rfl
@[simp] theorem State.answer_psw (r : Reply) : (s.answer r).psw = s.psw := rfl
@[simp] theorem State.answer_imar (r : Reply) : (s.answer r).imar = s.imar := rfl
@[simp] theorem State.answer_imbr (r : Reply) : (s.answer r).imbr = s.imbr := rfl
@[simp] theorem State.answer_ir (r : Reply) : (s.answer r).ir = s.ir := rfl
@[simp] theorem State.answer_dmar (r : Reply) : (s.answer r).dmar = s.dmar := rfl
@[simp] theorem State.answer_dmbr (r : Reply) : (s.answer r).dmbr = s.dmbr := rfl
@[simp] theorem State.answer_dctrl (r : Reply) : (s.answer r).dctrl = s.dctrl := rfl
@[simp] theorem State.answer_dec (r : Reply) : (s.answer r).dec = s.dec := rfl
@[simp] theorem State.answer_lsd (r : Reply) : (s.answer r).lsd = s.lsd := rfl
@[simp] theorem State.answer_decodeBubble (r : Reply) : (s.answer r).decodeBubble = s.decodeBubble := rfl
@[simp] theorem State.answer_executeBubble (r : Reply) : (s.answer r).executeBubble = s.executeBubble := rfl
@[simp] theorem State.answer_cex (r : Reply) : (s.answer r).cex = s.cex := rfl
@[simp] theorem State.answer_ctl (r : Reply) : (s.answer r).ctl = s.ctl := rfl
@[simp] theorem State.answer_imem (r : Reply) : (s.answer r).imem = s.imem := rfl
@[simp] theorem State.answer_dmem (r : Reply) : (s.answer r).dmem = s.dmem := rfl
@[simp] theorem State.answer_invalid (r : Reply) : (s.answer r).invalid = s.invalid := rfl
@[simp] theorem State.answer_reply (r : Reply) : (s.answer r).reply = r := rfl
@[simp] theorem State.answer_inputs (r : Reply) : (s.answer r).inputs = s.inputs := rfl

/-! `State.raiseInterrupt`. -/

@[simp] theorem State.raiseInterrupt_bank0 : (s.raiseInterrupt).bank0 = s.bank0 := rfl
@[simp] theorem State.raiseInterrupt_bank1 : (s.raiseInterrupt).bank1 = s.bank1 := rfl
@[simp] theorem State.raiseInterrupt_psw : (s.raiseInterrupt).psw = s.psw := rfl
@[simp] theorem State.raiseInterrupt_imar : (s.raiseInterrupt).imar = s.imar := rfl
@[simp] theorem State.raiseInterrupt_imbr : (s.raiseInterrupt).imbr = s.imbr := rfl
@[simp] theorem State.raiseInterrupt_ir : (s.raiseInterrupt).ir = s.ir := rfl
@[simp] theorem State.raiseInterrupt_dmar : (s.raiseInterrupt).dmar = s.dmar := rfl
@[simp] theorem State.raiseInterrupt_dmbr : (s.raiseInterrupt).dmbr = s.dmbr := rfl
@[simp] theorem State.raiseInterrupt_dctrl : (s.raiseInterrupt).dctrl = s.dctrl := rfl
@[simp] theorem State.raiseInterrupt_dec : (s.raiseInterrupt).dec = s.dec := rfl
@[simp] theorem State.raiseInterrupt_lsd : (s.raiseInterrupt).lsd = s.lsd := rfl
@[simp] theorem State.raiseInterrupt_decodeBubble : (s.raiseInterrupt).decodeBubble = s.decodeBubble := rfl
@[simp] theorem State.raiseInterrupt_executeBubble : (s.raiseInterrupt).executeBubble = s.executeBubble := rfl
@[simp] theorem State.raiseInterrupt_cex : (s.raiseInterrupt).cex = s.cex := rfl
@[simp] theorem State.raiseInterrupt_ctl : (s.raiseInterrupt).ctl = { s.ctl with userInterrupt := true } := rfl
@[simp] theorem State.raiseInterrupt_imem : (s.raiseInterrupt).imem = s.imem := rfl
@[simp] theorem State.raiseInterrupt_dmem : (s.raiseInterrupt).dmem = s.dmem := rfl
@[simp] theorem State.raiseInterrupt_invalid : (s.raiseInterrupt).invalid = s.invalid := rfl
@[simp] theorem State.raiseInterrupt_reply : (s.raiseInterrupt).reply = s.reply := rfl
@[simp] theorem State.raiseInterrupt_inputs : (s.raiseInterrupt).inputs = s.inputs := rfl

/-! `State.requestStop`. -/

@[simp] theorem State.requestStop_bank0 : (s.requestStop).bank0 = s.bank0 := rfl
@[simp] theorem State.requestStop_bank1 : (s.requestStop).bank1 = s.bank1 := rfl
@[simp] theorem State.requestStop_psw : (s.requestStop).psw = s.psw := rfl
@[simp] theorem State.requestStop_imar : (s.requestStop).imar = s.imar := rfl
@[simp] theorem State.requestStop_imbr : (s.requestStop).imbr = s.imbr := rfl
@[simp] theorem State.requestStop_ir : (s.requestStop).ir = s.ir := rfl
@[simp] theorem State.requestStop_dmar : (s.requestStop).dmar = s.dmar := rfl
@[simp] theorem State.requestStop_dmbr : (s.requestStop).dmbr = s.dmbr := rfl
@[simp] theorem State.requestStop_dctrl : (s.requestStop).dctrl = s.dctrl := rfl
@[simp] theorem State.requestStop_dec : (s.requestStop).dec = s.dec := rfl
@[simp] theorem State.requestStop_lsd : (s.requestStop).lsd = s.lsd := rfl
@[simp] theorem State.requestStop_decodeBubble : (s.requestStop).decodeBubble = s.decodeBubble := rfl
@[simp] theorem State.requestStop_executeBubble : (s.requestStop).executeBubble = s.executeBubble := rfl
@[simp] theorem State.requestStop_cex : (s.requestStop).cex = s.cex := rfl
@[simp] theorem State.requestStop_ctl : (s.requestStop).ctl = { s.ctl with stopReq := true } := rfl
@[simp] theorem State.requestStop_imem : (s.requestStop).imem = s.imem := rfl
@[simp] theorem State.requestStop_dmem : (s.requestStop).dmem = s.dmem := rfl
@[simp] theorem State.requestStop_invalid : (s.requestStop).invalid = s.invalid := rfl
@[simp] theorem State.requestStop_reply : (s.requestStop).reply = s.reply := rfl
@[simp] theorem State.requestStop_inputs : (s.requestStop).inputs = s.inputs := rfl

/-! `State.adjustAddress`. -/

@[simp] theorem State.adjustAddress_bank0 (ra : Reg) (dec inc : Bool) (wb : Width) :
    (s.adjustAddress ra dec inc wb).bank0 = s.bank0.set ra (s.x ra + addressAdjust dec inc wb) := by
  unfold State.adjustAddress
  split
  · next h =>
    have e : s.x ra + 0 = s.bank0.get ra := BitVec.add_zero _
    rw [h, e, Bank.set_get]
  · rfl
@[simp] theorem State.adjustAddress_bank1 (ra : Reg) (dec inc : Bool) (wb : Width) :
    (s.adjustAddress ra dec inc wb).bank1 = s.bank1 := by unfold State.adjustAddress; split <;> rfl
@[simp] theorem State.adjustAddress_psw (ra : Reg) (dec inc : Bool) (wb : Width) :
    (s.adjustAddress ra dec inc wb).psw = s.psw := by unfold State.adjustAddress; split <;> rfl
@[simp] theorem State.adjustAddress_imar (ra : Reg) (dec inc : Bool) (wb : Width) :
    (s.adjustAddress ra dec inc wb).imar = s.imar := by unfold State.adjustAddress; split <;> rfl
@[simp] theorem State.adjustAddress_imbr (ra : Reg) (dec inc : Bool) (wb : Width) :
    (s.adjustAddress ra dec inc wb).imbr = s.imbr := by unfold State.adjustAddress; split <;> rfl
@[simp] theorem State.adjustAddress_ir (ra : Reg) (dec inc : Bool) (wb : Width) :
    (s.adjustAddress ra dec inc wb).ir = s.ir := by unfold State.adjustAddress; split <;> rfl
@[simp] theorem State.adjustAddress_dmar (ra : Reg) (dec inc : Bool) (wb : Width) :
    (s.adjustAddress ra dec inc wb).dmar = s.dmar := by unfold State.adjustAddress; split <;> rfl
@[simp] theorem State.adjustAddress_dmbr (ra : Reg) (dec inc : Bool) (wb : Width) :
    (s.adjustAddress ra dec inc wb).dmbr = s.dmbr := by unfold State.adjustAddress; split <;> rfl
@[simp] theorem State.adjustAddress_dctrl (ra : Reg) (dec inc : Bool) (wb : Width) :
    (s.adjustAddress ra dec inc wb).dctrl = s.dctrl := by unfold State.adjustAddress; split <;> rfl
@[simp] theorem State.adjustAddress_dec (ra : Reg) (dec inc : Bool) (wb : Width) :
    (s.adjustAddress ra dec inc wb).dec = s.dec := by unfold State.adjustAddress; split <;> rfl
@[simp] theorem State.adjustAddress_lsd (ra : Reg) (dec inc : Bool) (wb : Width) :
    (s.adjustAddress ra dec inc wb).lsd = s.lsd := by unfold State.adjustAddress; split <;> rfl
@[simp] theorem State.adjustAddress_decodeBubble (ra : Reg) (dec inc : Bool) (wb : Width) :
    (s.adjustAddress ra dec inc wb).decodeBubble = s.decodeBubble := by unfold State.adjustAddress; split <;> rfl
@[simp] theorem State.adjustAddress_executeBubble (ra : Reg) (dec inc : Bool) (wb : Width) :
    (s.adjustAddress ra dec inc wb).executeBubble = s.executeBubble := by unfold State.adjustAddress; split <;> rfl
@[simp] theorem State.adjustAddress_cex (ra : Reg) (dec inc : Bool) (wb : Width) :
    (s.adjustAddress ra dec inc wb).cex = s.cex := by unfold State.adjustAddress; split <;> rfl
@[simp] theorem State.adjustAddress_ctl (ra : Reg) (dec inc : Bool) (wb : Width) :
    (s.adjustAddress ra dec inc wb).ctl = s.ctl := by unfold State.adjustAddress; split <;> rfl
@[simp] theorem State.adjustAddress_imem (ra : Reg) (dec inc : Bool) (wb : Width) :
    (s.adjustAddress ra dec inc wb).imem = s.imem := by unfold State.adjustAddress; split <;> rfl
@[simp] theorem State.adjustAddress_dmem (ra : Reg) (dec inc : Bool) (wb : Width) :
    (s.adjustAddress ra dec inc wb).dmem = s.dmem := by unfold State.adjustAddress; split <;> rfl
@[simp] theorem State.adjustAddress_invalid (ra : Reg) (dec inc : Bool) (wb : Width) :
    (s.adjustAddress ra dec inc wb).invalid = s.invalid := by unfold State.adjustAddress; split <;> rfl
@[simp] theorem State.adjustAddress_reply (ra : Reg) (dec inc : Bool) (wb : Width) :
    (s.adjustAddress ra dec inc wb).reply = s.reply := by unfold State.adjustAddress; split <;> rfl
@[simp] theorem State.adjustAddress_inputs (ra : Reg) (dec inc : Bool) (wb : Width) :
    (s.adjustAddress ra dec inc wb).inputs = s.inputs := by unfold State.adjustAddress; split <;> rfl

/-! The stages in sequence. -/

@[simp] theorem andThen_next (s : State) (f : State → Result) : andThen (.next s) f = f s := rfl
@[simp] theorem andThen_fault (e : Fault) (f : State → Result) : andThen (.fault e) f = .fault e := rfl
@[simp] theorem andThen_refused (e : Refusal) (f : State → Result) : andThen (.refused e) f = .refused e := rfl

/-- What a sequence of two stages answers a next state from. -/
theorem andThen_eq_next {r : Result} {f : State → Result} {t : State} (h : andThen r f = .next t) :
    ∃ u, r = .next u ∧ f u = .next t := by
  cases r with
  | next u => exact ⟨u, rfl, h⟩
  | fault e => cases h
  | refused e => cases h

end Sys2Proof.Machine
end

