-- ==== Sys2Proof/Laws/Exec.lean ====
section
/-! SUPPORT. What the shared operations of the meanings do, said once each, and what no instruction can do. -/

namespace Sys2Proof.Machine

/-! The shared operations. -/

/-- An add-class operation: the flags, and the result written back when kept (42_arithmetic_logic.md R200 to R203). -/
theorem addClass_spec (keep : Bool) (wb : Width) (dst : Reg) (b : BitVec wb.bits) (cin : Bool) (s : State) :
    (addClass keep wb dst b cin s).psw = flagsAdd s.psw b (s.operand dst wb) (addResult (s.operand dst wb) b cin) ∧
    (addClass keep wb dst b cin s).bank0 =
      (if keep then s.bank0.set dst (mergeBits wb (s.x dst) (addResult (s.operand dst wb) b cin)) else s.bank0) ∧
    addClass keep wb dst b cin s =
      { s with bank0 := (addClass keep wb dst b cin s).bank0, psw := (addClass keep wb dst b cin s).psw } := by
  cases keep <;> exact ⟨rfl, rfl, rfl⟩

/-- A logical operation: Z and N, and the result written back when kept (42_arithmetic_logic.md R202, R214 to R219). -/
theorem logicClass_spec (keep : Bool) (wb : Width) (dst : Reg) (r : BitVec wb.bits) (s : State) :
    (logicClass keep wb dst r s).psw = flagsZN s.psw r ∧
    (logicClass keep wb dst r s).bank0 = (if keep then s.bank0.set dst (mergeBits wb (s.x dst) r) else s.bank0) ∧
    logicClass keep wb dst r s =
      { s with bank0 := (logicClass keep wb dst r s).bank0, psw := (logicClass keep wb dst r s).psw } := by
  cases keep <;> exact ⟨rfl, rfl, rfl⟩

/-- The bits of the result of a shift by one: each bit the one above it, the new top bit `top`
(43_register_manipulation.md R243, R244). -/
theorem shiftResult_getLsbD {n : Nat} (top : Bool) (d : BitVec n) (k : Nat) :
    ((BitVec.cons top d).extractLsb' 1 n).getLsbD k =
      if k < n then (if k + 1 = n then top else d.getLsbD (k + 1)) else false := by
  rw [BitVec.getLsbD_extractLsb', BitVec.getLsbD_cons, Nat.add_comm 1 k]
  by_cases h : k < n <;> simp [h]

/-- A shift by one: the carry, Z, N and the register (43_register_manipulation.md R243, R244). -/
theorem shiftRight_spec (top : Bool) (wb : Width) (dst : Reg) (s : State) :
    (shiftRight top wb dst s).psw =
      flagsShift s.psw ((s.operand dst wb).getLsbD 0)
        ((BitVec.cons top (s.operand dst wb)).extractLsb' 1 wb.bits) ∧
    (shiftRight top wb dst s).bank0 =
      s.bank0.set dst (mergeBits wb (s.x dst) ((BitVec.cons top (s.operand dst wb)).extractLsb' 1 wb.bits)) ∧
    shiftRight top wb dst s =
      { s with bank0 := (shiftRight top wb dst s).bank0, psw := (shiftRight top wb dst s).psw } :=
  ⟨rfl, rfl, rfl⟩

/-- A conditional branch answers the branch or the state it met (41_branch.md R182). -/
theorem branchWhen_spec (taken : Bool) (off : Word) (s : State) :
    branchWhen taken off s = .next (if taken then s.branchTo off else s) := rfl

/-- A taken branch writes the program counter and the squash flag (41_branch.md R192). -/
theorem branchTo_eq (s : State) (off : Word) :
    s.branchTo off = { s with bank0 := s.bank0.set .r7 (s.pc + off), decodeBubble := true } := rfl

/-- The update of an address register changes that register and nothing else (46_load_store.md R292). -/
theorem adjustAddress_eq (s : State) (ra : Reg) (dec inc : Bool) (wb : Width) :
    s.adjustAddress ra dec inc wb = { s with bank0 := s.bank0.set ra (s.x ra + addressAdjust dec inc wb) } := by
  have h : ∀ a b : State, a.bank0 = b.bank0 → { a with bank0 := b.bank0 } = b → a = b := by
    rintro ⟨⟩ ⟨⟩ h1 h2
    cases h1
    exact h2
  refine h _ _ (State.adjustAddress_bank0 s ra dec inc wb) ?_
  unfold State.adjustAddress
  split <;> rfl

/-! Every instruction. -/

/-- What E0 of no instruction changes: the constant bank, the fetch latches, the decode latch, E0's own bubble flag, the
window, the controller, both memory banks, the outputs and the events (40_pipeline_step.md R138). -/
structure ExecFrame (s t : State) : Prop where
  bank1 : t.bank1 = s.bank1
  imar : t.imar = s.imar
  imbr : t.imbr = s.imbr
  ir : t.ir = s.ir
  dec : t.dec = s.dec
  executeBubble : t.executeBubble = s.executeBubble
  cex : t.cex = s.cex
  ctl : t.ctl = s.ctl
  imem : t.imem = s.imem
  dmem : t.dmem = s.dmem
  invalid : t.invalid = s.invalid
  reply : t.reply = s.reply
  inputs : t.inputs = s.inputs

/-- A state that differs in bank 0, the PSW, the data latches or the squash flag alone is in the frame. -/
theorem ExecFrame.of_eq {s t : State}
    (h : t = { s with
      bank0 := t.bank0, psw := t.psw, dmar := t.dmar, dmbr := t.dmbr, dctrl := t.dctrl, lsd := t.lsd,
      decodeBubble := t.decodeBubble }) : ExecFrame s t := by
  constructor <;> rw [h]

/-- Every instruction answers a next state, and one that keeps the frame (60_exceptions.md R340). -/
theorem exec_next_frame (i : Instr) (s : State) : ∃ t, exec i s = .next t ∧ ExecFrame s t := by
  cases i <;>
    first
    | exact ⟨_, rfl, ExecFrame.of_eq rfl⟩
    | (refine ⟨_, rfl, ?_⟩
       first
       | (constructor <;> simp; done)
       | (split <;> exact ExecFrame.of_eq rfl))

/-- What an instruction answers keeps the frame. -/
theorem exec_frame {i : Instr} {s t : State} (h : exec i s = .next t) : ExecFrame s t := by
  obtain ⟨u, hu, hf⟩ := exec_next_frame i s
  rw [hu] at h
  cases h
  exact hf

end Sys2Proof.Machine
end

