-- ==== Sys2Proof/Laws/Memory.lean ====
section
/-! SUPPORT. Memory: a read after a write, and the canonical form that every memory operation keeps
(20_memory.md R60 to R69). -/

namespace Sys2Proof.Machine

/-! Canonical form. -/

theorem Memory.wfFrom_mono (m : Memory) {lo lo' : Nat} (h : lo' ≤ lo) (hm : Memory.wfFrom lo m = true) :
    Memory.wfFrom lo' m = true := by
  cases m with
  | nil => rfl
  | cons c m =>
    obtain ⟨k, v⟩ := c
    simp only [Memory.wfFrom, Bool.and_eq_true, decide_eq_true_eq] at hm ⊢
    exact ⟨⟨⟨by omega, hm.1.1.2⟩, hm.1.2⟩, hm.2⟩

/-- An address below every listed one reads as an unwritten byte. -/
theorem Memory.read_below (m : Memory) {lo a : Nat} (hm : Memory.wfFrom lo m = true) (ha : a < lo) :
    Memory.read m a = unwrittenByte := by
  induction m generalizing lo with
  | nil => rfl
  | cons c m ih =>
    obtain ⟨k, v⟩ := c
    simp only [Memory.wfFrom, Bool.and_eq_true, decide_eq_true_eq] at hm
    have hk : k ≠ a := by omega
    simp only [Memory.read, if_neg hk]
    exact ih hm.2 (by omega)

theorem Memory.wfFrom_write (m : Memory) {lo a : Nat} {b : Byte} (hm : Memory.wfFrom lo m = true) (h1 : lo ≤ a)
    (h2 : a < Config.memBytes) : Memory.wfFrom lo (Memory.write m a b) = true := by
  induction m generalizing lo with
  | nil =>
    by_cases hb : b = unwrittenByte <;> simp [Memory.write, Memory.wfFrom, hb, h1, h2]
  | cons c m ih =>
    obtain ⟨k, v⟩ := c
    have hm' := hm
    simp only [Memory.wfFrom, Bool.and_eq_true, decide_eq_true_eq] at hm
    obtain ⟨⟨⟨hlo, hk⟩, hv⟩, hrest⟩ := hm
    simp only [Memory.write]
    split
    · split
      · exact hm'
      · next hak hb => simp [Memory.wfFrom, *]
    · split
      · split
        · exact Memory.wfFrom_mono m (by omega) hrest
        · next ha hb =>
            subst ha
            simp [Memory.wfFrom, *]
      · simp only [Memory.wfFrom, Bool.and_eq_true, decide_eq_true_eq]
        exact ⟨⟨⟨hlo, hk⟩, hv⟩, ih hrest (by omega)⟩

/-! A read after a write. -/

/-- A write is read back at its address and nowhere else. -/
theorem Memory.read_write (m : Memory) {lo : Nat} (a k : Nat) (b : Byte) (hm : Memory.wfFrom lo m = true) :
    Memory.read (Memory.write m a b) k = if k = a then b else Memory.read m k := by
  induction m generalizing lo with
  | nil =>
    by_cases hb : b = unwrittenByte
    · simp [Memory.write, hb, Memory.read]
    · by_cases hk : a = k
      · simp [Memory.write, hb, Memory.read, hk]
      · simp [Memory.write, hb, Memory.read, hk, Ne.symm hk]
  | cons c m ih =>
    obtain ⟨x, v⟩ := c
    simp only [Memory.wfFrom, Bool.and_eq_true, decide_eq_true_eq] at hm
    simp only [Memory.write]
    split
    · next hax =>
      split
      · next hb =>
        by_cases hk : k = a
        · rw [if_pos hk, hb]
          simp only [Memory.read, if_neg (show x ≠ k by omega)]
          exact Memory.read_below m hm.2 (by omega)
        · rw [if_neg hk]
      · by_cases hk : a = k
        · simp [Memory.read, hk]
        · rw [if_neg (Ne.symm hk), Memory.read, if_neg hk]
    · split
      · next hax =>
        subst hax
        split
        · next hb =>
          by_cases hk : k = a
          · rw [if_pos hk, hb]
            exact Memory.read_below m hm.2 (by omega)
          · rw [if_neg hk, Memory.read, if_neg (Ne.symm hk)]
        · by_cases hk : a = k
          · simp [Memory.read, hk]
          · rw [if_neg (Ne.symm hk), Memory.read, if_neg hk, Memory.read, if_neg hk]
      · next hlt hne =>
        by_cases hx : x = k
        · have : k ≠ a := by omega
          simp [Memory.read, hx, this]
        · simp only [Memory.read, if_neg hx]
          exact ih hm.2

/-- The written byte reads back. -/
theorem Memory.read_write_same (m : Memory) (a : Nat) (b : Byte) (hm : Memory.wf m = true) :
    Memory.read (Memory.write m a b) a = b := by
  rw [Memory.read_write m a a b hm, if_pos rfl]

/-- Every other byte reads as before. -/
theorem Memory.read_write_other (m : Memory) (a k : Nat) (b : Byte) (hm : Memory.wf m = true) (h : k ≠ a) :
    Memory.read (Memory.write m a b) k = Memory.read m k := by
  rw [Memory.read_write m a k b hm, if_neg h]

/-- Two canonical banks that read alike are equal. -/
theorem Memory.eq_of_read (m n : Memory) (lo : Nat) (hm : Memory.wfFrom lo m = true) (hn : Memory.wfFrom lo n = true)
    (h : ∀ a, Memory.read m a = Memory.read n a) : m = n := by
  induction m generalizing lo n with
  | nil =>
    cases n with
    | nil => rfl
    | cons c n =>
      obtain ⟨k, v⟩ := c
      simp only [Memory.wfFrom, Bool.and_eq_true, decide_eq_true_eq] at hn
      have := h k
      simp only [Memory.read, if_pos] at this
      exact absurd this.symm hn.1.2
  | cons c m ih =>
    obtain ⟨k, v⟩ := c
    have hm' := hm
    simp only [Memory.wfFrom, Bool.and_eq_true, decide_eq_true_eq] at hm
    cases n with
    | nil =>
      have := h k
      simp only [Memory.read, if_pos] at this
      exact absurd this hm.1.2
    | cons d n =>
      obtain ⟨j, w⟩ := d
      have hn' := hn
      simp only [Memory.wfFrom, Bool.and_eq_true, decide_eq_true_eq] at hn
      have hkj : k = j := by
        rcases Nat.lt_trichotomy k j with hlt | heq | hgt
        · have hk := h k
          simp only [Memory.read, if_pos, if_neg (show j ≠ k by omega)] at hk
          rw [Memory.read_below n hn.2 (by omega)] at hk
          exact absurd hk hm.1.2
        · exact heq
        · have hj := h j
          simp only [Memory.read, if_pos, if_neg (show k ≠ j by omega)] at hj
          rw [Memory.read_below m hm.2 (by omega)] at hj
          exact absurd hj.symm hn.1.2
      subst hkj
      have hv : v = w := by simpa [Memory.read] using h k
      subst hv
      congr 1
      refine ih n (k + 1) hm.2 hn.2 fun a => ?_
      by_cases ha : k = a
      · subst ha
        rw [Memory.read_below m hm.2 (by omega), Memory.read_below n hn.2 (by omega)]
      · simpa [Memory.read, ha] using h a

/-! Words (20_memory.md R63 to R68). -/

theorem alignedAddr_toNat (a : Word) : (alignedAddr a).toNat = a.toNat / 2 * 2 := by
  have e : alignedAddr a = (a >>> 1) <<< 1 := by
    apply BitVec.eq_of_getLsbD_eq
    intro i hi
    simp only [alignedAddr, BitVec.getLsbD_and, BitVec.getLsbD_shiftLeft, BitVec.getLsbD_ushiftRight]
    have : ∀ j, j < 16 → (0xFFFE#16).getLsbD j = !decide (j < 1) := by decide
    rw [this i hi]
    by_cases h : i < 1
    · simp [h]
    · have : 1 + (i - 1) = i := by omega
      simp [h, hi, this]
  rw [e]
  have := a.isLt
  simp only [BitVec.toNat_shiftLeft, BitVec.toNat_ushiftRight, Nat.shiftRight_eq_div_pow, Nat.shiftLeft_eq]
  omega

/-- The byte above an aligned address is inside the bank (20_memory.md R65). -/
theorem alignedAddr_lt (a : Word) : (alignedAddr a).toNat + 1 < Config.memBytes := by
  have := a.isLt
  rw [alignedAddr_toNat, Config.memBytes]
  omega

@[simp] theorem alignedAddr_alignedAddr (a : Word) : alignedAddr (alignedAddr a) = alignedAddr a := by
  simp [alignedAddr, BitVec.and_assoc]

theorem Memory.wf_writeWord (m : Memory) (a v : Word) (hm : Memory.wf m = true) :
    Memory.wf (Memory.writeWord m a v) = true := by
  have := alignedAddr_lt a
  refine Memory.wfFrom_write _ (Memory.wfFrom_write _ hm ?_ ?_) ?_ ?_ <;> omega

theorem Memory.wf_writeByte (m : Memory) (a v : Word) (hm : Memory.wf m = true) :
    Memory.wf (Memory.writeByte m a v) = true :=
  Memory.wfFrom_write _ hm (Nat.zero_le _) a.isLt

/-- Every memory operation keeps the canonical form. -/
theorem Memory.wf_writeAt (m : Memory) (wb : Width) (a v : Word) (hm : Memory.wf m = true) :
    Memory.wf (Memory.writeAt m wb a v) = true := by
  cases wb with
  | word => exact Memory.wf_writeWord m a v hm
  | byte => exact Memory.wf_writeByte m a v hm

/-- The banks at reset are canonical. -/
theorem reset_memory_wf : Memory.wf State.reset.imem = true ∧ Memory.wf State.reset.dmem = true := ⟨rfl, rfl⟩

/-- What a word write stores, and that it stores nothing else (20_memory.md R63, R68). -/
theorem Memory.read_writeWord (m : Memory) (a v : Word) (k : Nat) (hm : Memory.wf m = true) :
    Memory.read (Memory.writeWord m a v) k =
      if k = (alignedAddr a).toNat + 1 then v.extractLsb' 8 8
      else if k = (alignedAddr a).toNat then v.extractLsb' 0 8 else Memory.read m k := by
  have h := alignedAddr_lt a
  have hw : Memory.wfFrom 0 (Memory.write m (alignedAddr a).toNat (v.extractLsb' 0 8)) = true :=
    Memory.wfFrom_write _ hm (Nat.zero_le _) (by omega)
  rw [Memory.writeWord, Memory.read_write _ _ _ _ hw, Memory.read_write _ _ _ _ hm]

/-- What a byte write stores, and that it stores nothing else (20_memory.md R68). -/
theorem Memory.read_writeByte (m : Memory) (a v : Word) (k : Nat) (hm : Memory.wf m = true) :
    Memory.read (Memory.writeByte m a v) k = if k = a.toNat then v.extractLsb' 0 8 else Memory.read m k :=
  Memory.read_write _ _ _ _ hm

/-- A word access uses the aligned address (20_memory.md R65). -/
theorem Memory.readWord_aligned (m : Memory) (a : Word) : Memory.readWord m (alignedAddr a) = Memory.readWord m a := by
  simp [Memory.readWord]

/-- Two words are equal when their bytes are. -/
theorem word_of_bytes (v : Word) : v.extractLsb' 8 8 ++ v.extractLsb' 0 8 = v := by
  apply BitVec.eq_of_getLsbD_eq
  intro i hi
  simp only [BitVec.getLsbD_append, BitVec.getLsbD_extractLsb']
  by_cases h : i < 8
  · simp [h]
  · have h1 : i - 8 < 8 := by omega
    have h2 : 8 + (i - 8) = i := by omega
    simp [h, h1, h2]

/-- A word reads back after its write (20_memory.md R63). -/
theorem Memory.readWord_writeWord (m : Memory) (a v : Word) (hm : Memory.wf m = true) :
    Memory.readWord (Memory.writeWord m a v) a = v := by
  rw [Memory.readWord, Memory.read_writeWord m a v _ hm, Memory.read_writeWord m a v _ hm, if_pos rfl,
    if_neg (by omega), if_pos rfl, word_of_bytes]

end Sys2Proof.Machine
end

