-- ==== Sys2Proof/Laws/Pipeline.lean ====
section
/-! SUPPORT. What each stage, a half-cycle and a step can do, said once each (40_pipeline_step.md R131 to R149). -/

namespace Sys2Proof.Machine

/-! The stages. -/

/-- Under `truncate` no word access stops (20_memory.md R65). -/
@[simp] theorem wordAccessFaults_truncate (a : Word) : wordAccessFaults .truncate a = false := rfl

@[simp] theorem misalignedWord_eq : misalignedWord = .truncate := rfl

/-- What M leaves under `truncate`, by the pending request (40_pipeline_step.md R141). -/
def afterM (s : State) : State :=
  match s.dctrl with
  | .none => s
  | .rdW => { s with dmbr := Memory.readAt s.dmem .word s.dmar }
  | .rdB => { s with dmbr := Memory.readAt s.dmem .byte s.dmar }
  | .wrW => { s with dmem := Memory.writeAt s.dmem .word s.dmar s.dmbr, dctrl := .none }
  | .wrB => { s with dmem := Memory.writeAt s.dmem .byte s.dmar s.dmbr, dctrl := .none }

theorem stageM_truncate (s : State) : stageM .truncate s = .next (afterM s) := by
  unfold stageM afterM
  cases s.dctrl <;> rfl

theorem afterM_none (s : State) (h : s.dctrl = .none) : afterM s = s := by simp [afterM, h]

theorem afterM_rdW (s : State) (h : s.dctrl = .rdW) : afterM s = { s with dmbr := Memory.readWord s.dmem s.dmar } := by
  simp [afterM, h, Memory.readAt]

theorem afterM_rdB (s : State) (h : s.dctrl = .rdB) :
    afterM s = { s with dmbr := (Memory.readByte s.dmem s.dmar).setWidth 16 } := by
  simp [afterM, h, Memory.readAt]

theorem afterM_wrW (s : State) (h : s.dctrl = .wrW) :
    afterM s = { s with dmem := Memory.writeWord s.dmem s.dmar s.dmbr, dctrl := .none } := by
  simp [afterM, h, Memory.writeAt]

theorem afterM_wrB (s : State) (h : s.dctrl = .wrB) :
    afterM s = { s with dmem := Memory.writeByte s.dmem s.dmar s.dmbr, dctrl := .none } := by
  simp [afterM, h, Memory.writeAt]

/-- What F1 leaves under `truncate` (40_pipeline_step.md R139). -/
def afterF1 (s : State) : State :=
  { s with imbr := Memory.readWord s.imem s.imar, ir := Memory.readWord s.imem s.imar, invalid := .none }

theorem stageF1_truncate (s : State) : stageF1 .truncate s = .next (afterF1 s) := rfl

/-- M writes the data register, the data bank and the request tag only. -/
theorem afterM_frame (s : State) :
    afterM s = { s with dmbr := (afterM s).dmbr, dmem := (afterM s).dmem, dctrl := (afterM s).dctrl } := by
  unfold afterM
  cases h : s.dctrl <;> simp [← h]

/-- After M no write request is pending, and a read request is pending exactly when it was. -/
theorem afterM_dctrl (s : State) :
    (afterM s).dctrl = match s.dctrl with | .rdW => .rdW | .rdB => .rdB | .none => .none | .wrW => .none | .wrB => .none := by
  unfold afterM
  cases h : s.dctrl <;> simp [h]

/-- M keeps the data bank canonical. -/
theorem afterM_wf (s : State) (h : Memory.wf s.dmem = true) : Memory.wf (afterM s).dmem = true := by
  have hw : ∀ wb, Memory.wf (Memory.writeAt s.dmem wb s.dmar s.dmbr) = true := fun wb => Memory.wf_writeAt _ _ _ _ h
  unfold afterM
  cases s.dctrl <;> simp [h, hw]

/-- E1 writes the destination of a load and clears the request, or does nothing (40_pipeline_step.md R140). -/
theorem stageE1_frame (s : State) :
    stageE1 s = { s with bank0 := (stageE1 s).bank0, dctrl := (stageE1 s).dctrl } := by
  unfold stageE1
  cases h : s.dctrl <;> simp [State.writeBack, State.setX]

theorem stageE1_none (s : State) (h : s.dctrl = .none) : stageE1 s = s := by
  unfold stageE1
  rw [h]

theorem stageE1_rdW (s : State) (h : s.dctrl = .rdW) :
    stageE1 s = { s with bank0 := s.bank0.set s.lsd s.dmbr, dctrl := .none } := by
  unfold stageE1
  rw [h]
  simp [State.writeBack, State.setX, mergeBits]

theorem stageE1_rdB (s : State) (h : s.dctrl = .rdB) :
    stageE1 s =
      { s with bank0 := s.bank0.set s.lsd ((s.x s.lsd).extractLsb' 8 8 ++ s.dmbr.extractLsb' 0 8), dctrl := .none } := by
  unfold stageE1
  rw [h]
  simp [State.writeBack, State.setX, mergeBits, lowBits_byte]

/-- The three things D0 can do (40_pipeline_step.md R137): squash the word, decode it, or, inside a window, use a count
and skip or decode it. -/
theorem stageD0_cases (s : State) :
    (s.decodeBubble = true ∧ stageD0 s = { bubbleDecode s with decodeBubble := false }) ∨
    (s.decodeBubble = false ∧ s.cex.status = .disabled ∧ stageD0 s = acceptDecode s) ∨
    (s.decodeBubble = false ∧ s.cex.status ≠ .disabled ∧ windowAct s.cex = .skip ∧
      stageD0 s = bubbleDecode { s with cex := windowNext s.cex }) ∨
    (s.decodeBubble = false ∧ s.cex.status ≠ .disabled ∧ windowAct s.cex = .run ∧
      stageD0 s = acceptDecode { s with cex := windowNext s.cex }) := by
  unfold stageD0
  cases hb : s.decodeBubble with
  | true => exact .inl ⟨rfl, rfl⟩
  | false =>
    by_cases hc : s.cex.status = .disabled
    · exact .inr (.inl ⟨rfl, hc, by simp [hc]⟩)
    · cases ha : windowAct s.cex
      · exact .inr (.inr (.inr ⟨rfl, hc, rfl, by simp [hc, windowStep, ha]⟩))
      · exact .inr (.inr (.inl ⟨rfl, hc, rfl, by simp [hc, windowStep, ha]⟩))

/-- D0 writes the decode latch, the hazard flags, the window and the report only. -/
theorem stageD0_frame (s : State) :
    stageD0 s =
      { s with
        dec := (stageD0 s).dec, decodeBubble := false, executeBubble := (stageD0 s).executeBubble
        cex := (stageD0 s).cex, invalid := (stageD0 s).invalid } := by
  rcases stageD0_cases s with ⟨hb, h⟩ | ⟨hb, _, h⟩ | ⟨hb, _, _, h⟩ | ⟨hb, _, _, h⟩ <;> rw [h] <;>
    simp [bubbleDecode, acceptDecode, hb]

/-- E0 clears its bubble flag, or performs the decoded instruction (40_pipeline_step.md R138). -/
theorem stageE0_next (s : State) :
    ∃ t, stageE0 s = .next t ∧
      ((s.executeBubble = true ∧ t = { s with executeBubble := false }) ∨
        (s.executeBubble = false ∧ exec s.dec s = .next t)) := by
  unfold stageE0
  cases h : s.executeBubble with
  | true => exact ⟨_, rfl, .inl ⟨rfl, rfl⟩⟩
  | false =>
    obtain ⟨t, ht, _⟩ := exec_next_frame s.dec s
    exact ⟨t, ht, .inr ⟨rfl, ht⟩⟩

/-- The checks at the end of a half-cycle leave the state, suspend the controller or halt it (40_pipeline_step.md
R147). -/
theorem endChecks_cases (odd : Bool) (s : State) :
    endChecks odd s = s ∨ endChecks odd s = s.suspend ∨ endChecks odd s = s.halt := by
  unfold endChecks
  dsimp only
  split
  · exact .inr (.inr rfl)
  · split
    · exact .inr (.inl rfl)
    · split
      · exact .inr (.inl rfl)
      · split
        · exact .inr (.inl rfl)
        · split
          · exact .inr (.inl rfl)
          · exact .inl rfl

/-- The checks write the controller's state and `step_once` only. -/
theorem endChecks_frame (odd : Bool) (s : State) :
    endChecks odd s =
      { s with ctl :=
          { s.ctl with fsm := (endChecks odd s).ctl.fsm, stepOnce := (endChecks odd s).ctl.stepOnce } } := by
  rcases endChecks_cases odd s with h | h | h <;> rw [h] <;> rfl

/-- With nothing due, the checks leave the state alone (40_pipeline_step.md R147). -/
theorem endChecks_quiet (odd : Bool) (s : State) (h1 : s.ctl.stopReq = false) (h2 : s.ctl.singleStep = false)
    (h3 : s.ctl.stepOnce = false) (h4 : s.ctl.userInterrupt = false)
    (h5 : odd = true → s.pc ≠ s.ctl.breakpoint) : endChecks odd s = s := by
  unfold endChecks
  cases odd
  · simp [h1, h2, h3, h4]
  · simp [h1, h2, h3, h4, h5 rfl]

/-! A half-cycle and a step. -/

theorem oddClock_iff (s : State) : oddClock s = true ↔ s.ctl.clock % 2 = 1 := by simp [oddClock]

theorem oddClock_false_iff (s : State) : oddClock s = false ↔ s.ctl.clock % 2 = 0 := by
  simp only [oddClock, beq_eq_false_iff_ne, ne_eq]
  omega

/-- An even half-cycle: M, F0, D0, the clock, the checks (40_pipeline_step.md R135). -/
theorem halfCycle_even (s : State) (h : oddClock s = false) :
    halfCycle .truncate s = .next (endChecks false (tickClock (stageD0 (stageF0 (afterM s))))) := by
  simp [halfCycle, h, evenStages, stageM_truncate]

/-- An odd half-cycle: F1, E1, E0, the clock, the checks (40_pipeline_step.md R135). -/
theorem halfCycle_odd (s t : State) (h : oddClock s = true) (ht : stageE0 (stageE1 (afterF1 s)) = .next t) :
    halfCycle .truncate s = .next (endChecks true (tickClock t)) := by
  simp [halfCycle, h, oddStages, stageF1_truncate, ht]

/-- A half-cycle always completes. -/
theorem halfCycle_next (s : State) : ∃ t, halfCycle .truncate s = .next t := by
  cases h : oddClock s with
  | false => exact ⟨_, halfCycle_even s h⟩
  | true =>
    obtain ⟨t, ht, _⟩ := stageE0_next (stageE1 (afterF1 s))
    exact ⟨_, halfCycle_odd s t h ht⟩

/-- With no event waiting a step is a tick. -/
theorem step_tick (s : State) (h : s.inputs = []) : step s = tick .truncate s := by
  simp [step, advance, h]

/-- With no event waiting and the controller Running a step is a half-cycle (40_pipeline_step.md R135). -/
theorem step_running (s : State) (h : s.inputs = []) (hr : s.ctl.fsm = .running) : step s = halfCycle .truncate s := by
  simp [step_tick s h, tick, hr]

/-- With an event waiting a step takes it (10_state.md R50). -/
theorem step_input (s : State) (e : Input) (rest : List Input) (h : s.inputs = e :: rest) :
    step s = inputEvent .truncate e { s with inputs := rest } := by
  simp [step, advance, h]

/-- What a step can be: a tick outside Running, an even or an odd half-cycle, `rst`, `irq` or a command. `u` is the
state without the event taken. -/
theorem step_cases {s t : State} (h : step s = .next t) :
    ∃ u, u = { s with inputs := s.inputs.tail } ∧
      ((u.ctl.fsm ≠ .running ∧ t = u) ∨
       (u.ctl.fsm = .running ∧ oddClock u = false ∧ t = endChecks false (tickClock (stageD0 (stageF0 (afterM u))))) ∨
       (u.ctl.fsm = .running ∧ oddClock u = true ∧
         ∃ v, stageE0 (stageE1 (afterF1 u)) = .next v ∧ t = endChecks true (tickClock v)) ∨
       t = u.resetBlock ∨ t = u.raiseInterrupt ∨ ∃ c, t = hostCommand c u) := by
  have htick : ∀ u : State, tick .truncate u = .next t →
      (u.ctl.fsm ≠ .running ∧ t = u) ∨
      (u.ctl.fsm = .running ∧ oddClock u = false ∧ t = endChecks false (tickClock (stageD0 (stageF0 (afterM u))))) ∨
      (u.ctl.fsm = .running ∧ oddClock u = true ∧
        ∃ v, stageE0 (stageE1 (afterF1 u)) = .next v ∧ t = endChecks true (tickClock v)) := by
    intro u hu
    unfold tick at hu
    cases hf : u.ctl.fsm <;> rw [hf] at hu
    case running =>
      cases ho : oddClock u with
      | false =>
        rw [halfCycle_even u ho] at hu
        cases hu
        exact .inr (.inl ⟨rfl, rfl, rfl⟩)
      | true =>
        obtain ⟨v, hv, _⟩ := stageE0_next (stageE1 (afterF1 u))
        rw [halfCycle_odd u v ho hv] at hu
        cases hu
        exact .inr (.inr ⟨rfl, rfl, v, hv, rfl⟩)
    all_goals
      cases hu
      exact .inl ⟨by simp, rfl⟩
  refine ⟨{ s with inputs := s.inputs.tail }, rfl, ?_⟩
  cases hi : s.inputs with
  | nil =>
    rw [step_tick s hi] at h
    have e : { s with inputs := ([] : List Input).tail } = s := by
      cases s
      cases hi
      rfl
    rw [e]
    rcases htick s h with h | h | h
    · exact .inl h
    · exact .inr (.inl h)
    · exact .inr (.inr (.inl h))
  | cons e rest =>
    rw [step_input s e rest hi] at h
    cases e with
    | tick =>
      rcases htick _ h with h | h | h
      · exact .inl h
      · exact .inr (.inl h)
      · exact .inr (.inr (.inl h))
    | rst =>
      cases h
      exact .inr (.inr (.inr (.inl rfl)))
    | irq =>
      cases h
      exact .inr (.inr (.inr (.inr (.inl rfl))))
    | cmd c =>
      cases h
      exact .inr (.inr (.inr (.inr (.inr ⟨c, rfl⟩))))

end Sys2Proof.Machine
end

