-- ==== Sys2Proof/Laws/HostPort.lean ====
section
/-! SUPPORT. What a host command can do, said once for each state of the controller (10_state.md R52, R53;
40_pipeline_step.md R133), and what the E0 of an odd half-cycle meets. -/

namespace Sys2Proof.Machine

/-! The shared operations of the commands. -/

@[simp] theorem State.answer_eq (s : State) (r : Reply) : s.answer r = { s with reply := r } := rfl

@[simp] theorem State.raiseInterrupt_eq (s : State) :
    s.raiseInterrupt = { s with ctl := { s.ctl with userInterrupt := true } } := rfl

@[simp] theorem State.requestStop_eq (s : State) :
    s.requestStop = { s with ctl := { s.ctl with stopReq := true } } := rfl

/-- A host write stores in the bank it names, in no other, and changes nothing else (10_state.md R52). -/
theorem State.hostWrite_spec (s : State) (bank : MemBank) (wb : Width) (a v : Word) :
    (s.hostWrite bank wb a v).bankOf bank = Memory.writeAt (s.bankOf bank) wb a v ∧
    (∀ other, other ≠ bank → (s.hostWrite bank wb a v).bankOf other = s.bankOf other) ∧
    s.hostWrite bank wb a v =
      { s with imem := (s.hostWrite bank wb a v).imem, dmem := (s.hostWrite bank wb a v).dmem } := by
  cases bank
  · exact ⟨rfl, fun other h => by cases other <;> first | exact absurd rfl h | rfl, rfl⟩
  · exact ⟨rfl, fun other h => by cases other <;> first | exact absurd rfl h | rfl, rfl⟩

/-- A host write keeps both banks canonical. -/
theorem State.hostWrite_wf (s : State) (bank : MemBank) (wb : Width) (a v : Word) (hi : Memory.wf s.imem = true)
    (hd : Memory.wf s.dmem = true) :
    Memory.wf (s.hostWrite bank wb a v).imem = true ∧ Memory.wf (s.hostWrite bank wb a v).dmem = true := by
  cases bank
  · exact ⟨Memory.wf_writeAt _ _ _ _ hi, hd⟩
  · exact ⟨hi, Memory.wf_writeAt _ _ _ _ hd⟩

/-! A command by the controller's state: the earlier reply is dropped, then the state decides. -/

theorem hostCommand_idle (c : Command) (s : State) (h : s.ctl.fsm = .idle) :
    hostCommand c s = acceptCommand (s.answer .none).start (s.answer .none) c := by simp [hostCommand, h]

theorem hostCommand_suspended (c : Command) (s : State) (h : s.ctl.fsm = .suspended) :
    hostCommand c s = acceptCommand (s.answer .none).resume (s.answer .none) c := by simp [hostCommand, h]

theorem hostCommand_running (c : Command) (s : State) (h : s.ctl.fsm = .running) :
    hostCommand c s = runningCommand (s.answer .none) c := by simp [hostCommand, h]

theorem hostCommand_halted (c : Command) (s : State) (h : s.ctl.fsm = .halted) :
    hostCommand c s = haltedCommand (s.answer .none) c := by simp [hostCommand, h]

/-- While Running and in Halted a command writes the two request flags and the reply only (10_state.md R53). -/
theorem flagCommand_frame (c : Command) (s t : State) (h : t = runningCommand s c ∨ t = haltedCommand s c) :
    t = { s with
      reply := t.reply
      ctl := { s.ctl with userInterrupt := t.ctl.userInterrupt, stopReq := t.ctl.stopReq } } := by
  rcases h with rfl | rfl <;> cases c <;> rfl

/-! What E0 meets in an odd half-cycle. -/

/-- F1, then E1 (40_pipeline_step.md R135, R139, R140). -/
theorem State.atExecute_eq (s : State) : s.atExecute = stageE1 (afterF1 s) := rfl

/-- With a read pending E0 meets the loaded value in the destination, a byte load keeping the high byte
(40_pipeline_step.md R140, R142). -/
theorem State.atExecute_pending (s : State) (h : s.dctrl = .rdW ∨ s.dctrl = .rdB) :
    s.atExecute =
      { afterF1 s with
        bank0 := s.bank0.set s.lsd
          (if s.dctrl = .rdB then (s.x s.lsd).extractLsb' 8 8 ++ s.dmbr.extractLsb' 0 8 else s.dmbr)
        dctrl := .none } := by
  rw [State.atExecute_eq]
  rcases h with h | h
  · rw [stageE1_rdW (afterF1 s) h]
    simp [afterF1, h]
  · rw [stageE1_rdB (afterF1 s) h]
    simp [afterF1, h]
    rfl

/-- With no read pending E1 does nothing. -/
theorem State.atExecute_quiet (s : State) (h1 : s.dctrl ≠ .rdW) (h2 : s.dctrl ≠ .rdB) : s.atExecute = afterF1 s := by
  rw [State.atExecute_eq]
  unfold stageE1
  cases h : s.dctrl <;> simp_all [afterF1]

/-- Unless a load into R7 completes, E0 meets the program counter F0 left. -/
theorem State.atExecute_pc (s : State) (h : s.loadsIntoPc = false) : s.atExecute.pc = s.pc := by
  by_cases hd : s.dctrl = .rdW ∨ s.dctrl = .rdB
  · have hl : Reg.r7 ≠ s.lsd := by
      intro e
      rcases hd with hd | hd <;> simp [State.loadsIntoPc, hd, ← e] at h
    rw [State.atExecute_pending s hd]
    simp [State.pc, State.x, hl]
  · rw [State.atExecute_quiet s (fun e => hd (.inl e)) (fun e => hd (.inr e))]
    rfl

end Sys2Proof.Machine
end

