-- ==== Sys2Proof/Laws/PerInstr.lean ====
section
/-! SUPPORT. A statement about every instruction as syntax, one lemma per constructor: its word lies in its row of the
opcode map (30_encoding.md R110, R111). -/

namespace Sys2Proof.Laws

/-- The word of the instruction lies in the row of the opcode map that its mnemonic names (R110, R111). -/
def EncodedRow.Statement (i : Instr) : Prop := encode i &&& rowMask i = rowMatch i

/-- A masked word, bit by bit. -/
theorem masked_of_bits (w m v : Word) (h : ∀ i, i < 16 → (w.getLsbD i && m.getLsbD i) = v.getLsbD i) : w &&& m = v := by
  apply BitVec.eq_of_getLsbD_eq
  intro i hi
  rw [BitVec.getLsbD_and, h i hi]

/-! The fixed bits of each format (R93 to R102). -/

theorem formatB10_row (c : BitVec 3) (off : Word) :
    formatB10 c off &&& 0xFC00#16 = 0b001#3 ++ c ++ 0#10 := by
  apply masked_of_bits
  intro i hi
  simp only [formatB10, BitVec.getLsbD_append]
  generalize off10Field off = a0
  rcases i with _ | _ | _ | _ | _ | _ | _ | _ | _ | _ | _ | _ | _ | _ | _ | _ | i <;> first | omega | simp

theorem formatA_row (opc : BitVec 4) (src : Source) (wb : Width) (dst : Reg) :
    formatA opc src wb dst &&& 0xFF00#16 = 0b0100#4 ++ opc ++ 0#8 := by
  apply masked_of_bits
  intro i hi
  simp only [formatA, BitVec.getLsbD_append]
  generalize src.rcBit = a0, wb.toBit = a1, src.srcBits = a2, dst.toBits = a3
  rcases i with _ | _ | _ | _ | _ | _ | _ | _ | _ | _ | _ | _ | _ | _ | _ | _ | i <;> first | omega | simp

theorem formatM_row (sel wb : BitVec 1) (src dst : Reg) :
    formatM sel wb src dst &&& 0xFF80#16 = 0b01001100#8 ++ sel ++ 0#7 := by
  apply masked_of_bits
  intro i hi
  simp only [formatM, BitVec.getLsbD_append]
  generalize src.toBits = a0, dst.toBits = a1
  rcases i with _ | _ | _ | _ | _ | _ | _ | _ | _ | _ | _ | _ | _ | _ | _ | _ | i <;> first | omega | simp

theorem formatS_row (wb : BitVec 1) (fn dst : BitVec 3) :
    formatS wb fn dst &&& 0xFFB8#16 = 0b01001101#8 ++ 0#2 ++ fn ++ 0#3 := by
  apply masked_of_bits
  intro i hi
  simp only [formatS, BitVec.getLsbD_append]
  rcases i with _ | _ | _ | _ | _ | _ | _ | _ | _ | _ | _ | _ | _ | _ | _ | _ | i <;> first | omega | simp

theorem formatC_row (sel : BitVec 3) (imm : Byte) :
    formatC sel imm &&& 0xFFE0#16 = 0b01001101#8 ++ sel ++ 0#5 := by
  apply masked_of_bits
  intro i hi
  simp only [formatC, BitVec.getLsbD_append]
  generalize imm.extractLsb' 0 5 = a0
  rcases i with _ | _ | _ | _ | _ | _ | _ | _ | _ | _ | _ | _ | _ | _ | _ | _ | i <;> first | omega | simp

theorem formatE_row (cc : Cond) (tc fc : BitVec 3) :
    formatE cc tc fc &&& 0xFC00#16 = 0b010100#6 ++ 0#10 := by
  apply masked_of_bits
  intro i hi
  simp only [formatE, BitVec.getLsbD_append]
  generalize cc.toBits = a0
  rcases i with _ | _ | _ | _ | _ | _ | _ | _ | _ | _ | _ | _ | _ | _ | _ | _ | i <;> first | omega | simp

theorem formatX_row (store : BitVec 1) (prpo dec inc : Bool) (wb : Width) (src dst : Reg) :
    formatX store prpo dec inc wb src dst &&& 0xFC00#16 = 0b01011#5 ++ store ++ 0#10 := by
  apply masked_of_bits
  intro i hi
  simp only [formatX, BitVec.getLsbD_append]
  generalize BitVec.ofBool prpo = a0, BitVec.ofBool dec = a1, BitVec.ofBool inc = a2, wb.toBit = a3, src.toBits = a4, dst.toBits = a5
  rcases i with _ | _ | _ | _ | _ | _ | _ | _ | _ | _ | _ | _ | _ | _ | _ | _ | i <;> first | omega | simp

theorem formatL_row (store : BitVec 1) (off : Word) (wb : Width) (src dst : Reg) :
    formatL store off wb src dst &&& 0xC000#16 = 1#1 ++ store ++ 0#14 := by
  apply masked_of_bits
  intro i hi
  simp only [formatL, BitVec.getLsbD_append]
  generalize off.extractLsb' 0 7 = a0, wb.toBit = a1, src.toBits = a2, dst.toBits = a3
  rcases i with _ | _ | _ | _ | _ | _ | _ | _ | _ | _ | _ | _ | _ | _ | _ | _ | i <;> first | omega | simp

theorem formatI_row (sel : BitVec 2) (imm : Byte) (dst : Reg) :
    formatI sel imm dst &&& 0xF800#16 = 0b011#3 ++ sel ++ 0#11 := by
  apply masked_of_bits
  intro i hi
  simp only [formatI, BitVec.getLsbD_append]
  generalize dst.toBits = a0
  rcases i with _ | _ | _ | _ | _ | _ | _ | _ | _ | _ | _ | _ | _ | _ | _ | _ | i <;> first | omega | simp

/-! One lemma per constructor. -/

theorem EncodedRow.nop : EncodedRow.Statement (.nop) := rfl
theorem EncodedRow.bl (off : Word) : EncodedRow.Statement (.bl off) := by
  apply masked_of_bits
  intro i hi
  simp only [encode, rowMask, rowMatch, BitVec.getLsbD_append]
  generalize off13Field off = a0
  rcases i with _ | _ | _ | _ | _ | _ | _ | _ | _ | _ | _ | _ | _ | _ | _ | _ | i <;> first | omega | simp
theorem EncodedRow.beq (off : Word) : EncodedRow.Statement (.beq off) := formatB10_row _ off
theorem EncodedRow.bne (off : Word) : EncodedRow.Statement (.bne off) := formatB10_row _ off
theorem EncodedRow.bc (off : Word) : EncodedRow.Statement (.bc off) := formatB10_row _ off
theorem EncodedRow.bnc (off : Word) : EncodedRow.Statement (.bnc off) := formatB10_row _ off
theorem EncodedRow.bn (off : Word) : EncodedRow.Statement (.bn off) := formatB10_row _ off
theorem EncodedRow.bge (off : Word) : EncodedRow.Statement (.bge off) := formatB10_row _ off
theorem EncodedRow.blt (off : Word) : EncodedRow.Statement (.blt off) := formatB10_row _ off
theorem EncodedRow.bra (off : Word) : EncodedRow.Statement (.bra off) := formatB10_row _ off
theorem EncodedRow.add (src : Source) (wb : Width) (dst : Reg) : EncodedRow.Statement (.add src wb dst) :=
  formatA_row _ src wb dst
theorem EncodedRow.addc (src : Source) (wb : Width) (dst : Reg) : EncodedRow.Statement (.addc src wb dst) :=
  formatA_row _ src wb dst
theorem EncodedRow.sub (src : Source) (wb : Width) (dst : Reg) : EncodedRow.Statement (.sub src wb dst) :=
  formatA_row _ src wb dst
theorem EncodedRow.subc (src : Source) (wb : Width) (dst : Reg) : EncodedRow.Statement (.subc src wb dst) :=
  formatA_row _ src wb dst
theorem EncodedRow.dadd (src : Source) (wb : Width) (dst : Reg) : EncodedRow.Statement (.dadd src wb dst) :=
  formatA_row _ src wb dst
theorem EncodedRow.cmp (src : Source) (wb : Width) (dst : Reg) : EncodedRow.Statement (.cmp src wb dst) :=
  formatA_row _ src wb dst
theorem EncodedRow.xor (src : Source) (wb : Width) (dst : Reg) : EncodedRow.Statement (.xor src wb dst) :=
  formatA_row _ src wb dst
theorem EncodedRow.and (src : Source) (wb : Width) (dst : Reg) : EncodedRow.Statement (.and src wb dst) :=
  formatA_row _ src wb dst
theorem EncodedRow.or (src : Source) (wb : Width) (dst : Reg) : EncodedRow.Statement (.or src wb dst) :=
  formatA_row _ src wb dst
theorem EncodedRow.bit (src : Source) (wb : Width) (dst : Reg) : EncodedRow.Statement (.bit src wb dst) :=
  formatA_row _ src wb dst
theorem EncodedRow.bic (src : Source) (wb : Width) (dst : Reg) : EncodedRow.Statement (.bic src wb dst) :=
  formatA_row _ src wb dst
theorem EncodedRow.bis (src : Source) (wb : Width) (dst : Reg) : EncodedRow.Statement (.bis src wb dst) :=
  formatA_row _ src wb dst
theorem EncodedRow.mov (wb : Width) (src dst : Reg) : EncodedRow.Statement (.mov wb src dst) :=
  formatM_row _ _ src dst
theorem EncodedRow.swap (src dst : Reg) : EncodedRow.Statement (.swap src dst) := formatM_row _ _ src dst
theorem EncodedRow.sra (wb : Width) (dst : Reg) : EncodedRow.Statement (.sra wb dst) := formatS_row _ _ _
theorem EncodedRow.rrc (wb : Width) (dst : Reg) : EncodedRow.Statement (.rrc wb dst) := formatS_row _ _ _
theorem EncodedRow.swpb (dst : Reg) : EncodedRow.Statement (.swpb dst) := formatS_row _ _ _
theorem EncodedRow.sxt (dst : Reg) : EncodedRow.Statement (.sxt dst) := formatS_row _ _ _
theorem EncodedRow.setcc (imm : Byte) : EncodedRow.Statement (.setcc imm) := formatC_row _ imm
theorem EncodedRow.clrcc (imm : Byte) : EncodedRow.Statement (.clrcc imm) := formatC_row _ imm
theorem EncodedRow.cex (cc : Cond) (tc fc : BitVec 3) : EncodedRow.Statement (.cex cc tc fc) := formatE_row cc tc fc
theorem EncodedRow.ld (prpo dec inc : Bool) (wb : Width) (src dst : Reg) : EncodedRow.Statement (.ld prpo dec inc wb src dst) :=
  formatX_row _ prpo dec inc wb src dst
theorem EncodedRow.st (prpo dec inc : Bool) (wb : Width) (src dst : Reg) : EncodedRow.Statement (.st prpo dec inc wb src dst) :=
  formatX_row _ prpo dec inc wb src dst
theorem EncodedRow.movl (imm : Byte) (dst : Reg) : EncodedRow.Statement (.movl imm dst) := formatI_row _ imm dst
theorem EncodedRow.movlz (imm : Byte) (dst : Reg) : EncodedRow.Statement (.movlz imm dst) := formatI_row _ imm dst
theorem EncodedRow.movls (imm : Byte) (dst : Reg) : EncodedRow.Statement (.movls imm dst) := formatI_row _ imm dst
theorem EncodedRow.movh (imm : Byte) (dst : Reg) : EncodedRow.Statement (.movh imm dst) := formatI_row _ imm dst
theorem EncodedRow.ldr (off : Word) (wb : Width) (src dst : Reg) : EncodedRow.Statement (.ldr off wb src dst) :=
  formatL_row _ off wb src dst
theorem EncodedRow.str (off : Word) (wb : Width) (src dst : Reg) : EncodedRow.Statement (.str off wb src dst) :=
  formatL_row _ off wb src dst
theorem EncodedRow.invalidFn2 : EncodedRow.Statement (.invalidFn2) := rfl
theorem EncodedRow.invalidFn5 : EncodedRow.Statement (.invalidFn5) := rfl
theorem EncodedRow.invalidFn6 : EncodedRow.Statement (.invalidFn6) := rfl
theorem EncodedRow.invalidFn7 : EncodedRow.Statement (.invalidFn7) := rfl
theorem EncodedRow.invalidSel4 : EncodedRow.Statement (.invalidSel4) := rfl
theorem EncodedRow.invalidSel7 : EncodedRow.Statement (.invalidSel7) := rfl
theorem EncodedRow.invalidHigh4E : EncodedRow.Statement (.invalidHigh4E) := rfl
theorem EncodedRow.invalidHigh54 : EncodedRow.Statement (.invalidHigh54) := rfl

end Sys2Proof.Laws
end

