-- ==== Sys2Proof/Tests/Slice0.lean ====
section
/-! SUPPORT. The model's own tests. Expected values come from the encodings and the worked examples of the rules of
spec/, named in each docstring, or are computed by hand from the rule. -/

namespace Sys2Proof.Tests

open Sys2Proof.Machine

/-! Ill-formed instructions are refused, one theorem per check of `wellFormed`, with the bounds beside them. -/

/-- BL: an odd displacement, a displacement out of range on either side, and displacement 0 (30_encoding.md R93, R105). -/
theorem test_wellFormed_bl :
    wellFormed (.bl 0x0001) = false ∧ wellFormed (.bl 0x1FFE) = false ∧ wellFormed (.bl 0xDFFC) = false ∧
    wellFormed (.bl 0xFFFE) = false ∧ wellFormed (.bl 0x1FFC) = true ∧ wellFormed (.bl 0xDFFE) = true := by decide

/-- A conditional branch: odd, and out of range on either side (30_encoding.md R105). -/
theorem test_wellFormed_branch :
    wellFormed (.beq 0x0001) = false ∧ wellFormed (.bne 0x03FE) = false ∧ wellFormed (.bra 0xFBFC) = false ∧
    wellFormed (.beq 0x03FC) = true ∧ wellFormed (.bra 0xFBFE) = true := by decide

/-- LDR and STR: -65 and +64 are out of range (30_encoding.md R106). -/
theorem test_wellFormed_relative :
    wellFormed (.ldr 0x0040 .word .r0 .r0) = false ∧ wellFormed (.str 0xFFBF .byte .r0 .r0) = false ∧
    wellFormed (.ldr 0x003F .word .r0 .r0) = true ∧ wellFormed (.str 0xFFC0 .byte .r0 .r0) = true := by decide

/-- SETCC and CLRCC: a mask of more than five bits (44_status.md R260). -/
theorem test_wellFormed_mask :
    wellFormed (.setcc 0x20) = false ∧ wellFormed (.clrcc 0xFF) = false ∧ wellFormed (.setcc 0x1F) = true := by decide

/-! One word for every constructor, written out from its encoding (30_encoding.md R93 to R103, R110, R111). -/

theorem test_decode_nop : decode 0b0000000000000000 = .nop := by decide
/-- 41_branch.md R183's example, and the two ends of its range. -/
theorem test_decode_bl :
    decode 0b0000000000000111 = .bl 0x000C ∧ decode 0b0001000000000000 = .bl 0xDFFE ∧
    decode 0b0000111111111111 = .bl 0x1FFC := by decide
theorem test_decode_beq : decode 0b0010000000000011 = .beq 0x0004 := by decide
theorem test_decode_bne : decode 0b0010011111111101 = .bne 0xFFF8 := by decide
theorem test_decode_bc : decode 0b0010100000000001 = .bc 0x0000 := by decide
theorem test_decode_bnc : decode 0b0010110000000001 = .bnc 0x0000 := by decide
theorem test_decode_bn : decode 0b0011001111111111 = .bn 0xFFFC := by decide
theorem test_decode_bge : decode 0b0011010000000010 = .bge 0x0002 := by decide
theorem test_decode_blt : decode 0b0011100000000010 = .blt 0x0002 := by decide
theorem test_decode_bra : decode 0b0011111111111101 = .bra 0xFFF8 := by decide
theorem test_decode_add : decode 0b0100000000010001 = .add (.reg .r2) .word .r1 := by decide
theorem test_decode_addc : decode 0b0100000111010011 = .addc (.const .r2) .byte .r3 := by decide
theorem test_decode_sub : decode 0b0100001010001000 = .sub (.const .r1) .word .r0 := by decide
theorem test_decode_subc : decode 0b0100001101111101 = .subc (.reg .r7) .byte .r5 := by decide
theorem test_decode_dadd : decode 0b0100010010001010 = .dadd (.const .r1) .word .r2 := by decide
theorem test_decode_cmp : decode 0b0100010110110001 = .cmp (.const .r6) .word .r1 := by decide
theorem test_decode_xor : decode 0b0100011000001000 = .xor (.reg .r1) .word .r0 := by decide
theorem test_decode_and : decode 0b0100011101011100 = .and (.reg .r3) .byte .r4 := by decide
theorem test_decode_or : decode 0b0100100010111110 = .or (.const .r7) .word .r6 := by decide
theorem test_decode_bit : decode 0b0100100111000010 = .bit (.const .r0) .byte .r2 := by decide
theorem test_decode_bic : decode 0b0100101001001010 = .bic (.reg .r1) .byte .r2 := by decide
theorem test_decode_bis : decode 0b0100101110110111 = .bis (.const .r6) .word .r7 := by decide
theorem test_decode_mov : decode 0b0100110001001000 = .mov .byte .r1 .r0 := by decide
/-- Bit 6 is ignored (30_encoding.md R112). -/
theorem test_decode_swap : decode 0b0100110010001000 = .swap .r1 .r0 ∧ decode 0b0100110011001000 = .swap .r1 .r0 := by
  decide
theorem test_decode_sra : decode 0b0100110101000101 = .sra .byte .r5 := by decide
theorem test_decode_rrc : decode 0b0100110100001000 = .rrc .word .r0 := by decide
theorem test_decode_swpb : decode 0b0100110100011001 = .swpb .r1 ∧ decode 0b0100110101011001 = .swpb .r1 := by decide
theorem test_decode_sxt : decode 0b0100110100100010 = .sxt .r2 ∧ decode 0b0100110101100010 = .sxt .r2 := by decide
theorem test_decode_setcc : decode 0b0100110110110111 = .setcc 0x17 := by decide
theorem test_decode_clrcc : decode 0b0100110111000001 = .clrcc 0x01 := by decide
theorem test_decode_cex : decode 0b0101001101010001 = .cex .le 2 1 := by decide
theorem test_decode_ld : decode 0b0101101100011000 = .ld true true false .word .r3 .r0 := by decide
theorem test_decode_st : decode 0b0101110011001010 = .st false false true .byte .r1 .r2 := by decide
theorem test_decode_movl : decode 0b0110011111111001 = .movl 0xFF .r1 := by decide
theorem test_decode_movlz : decode 0b0110100110100000 = .movlz 0x34 .r0 := by decide
theorem test_decode_movls : decode 0b0111010000000010 = .movls 0x80 .r2 := by decide
theorem test_decode_movh : decode 0b0111100010010000 = .movh 0x12 .r0 := by decide
theorem test_decode_ldr : decode 0b1001111110010100 = .ldr 0x003F .word .r2 .r4 := by decide
theorem test_decode_str : decode 0b1111111111010100 = .str 0xFFFF .byte .r2 .r4 := by decide
theorem test_decode_invalidFn2 : decode 0b0100110101010111 = .invalidFn2 := by decide
theorem test_decode_invalidFn5 : decode 0b0100110100101000 = .invalidFn5 := by decide
theorem test_decode_invalidFn6 : decode 0b0100110100110000 = .invalidFn6 := by decide
theorem test_decode_invalidFn7 : decode 0b0100110100111000 = .invalidFn7 := by decide
theorem test_decode_invalidSel4 : decode 0b0100110110011111 = .invalidSel4 := by decide
theorem test_decode_invalidSel7 : decode 0b0100110111100000 = .invalidSel7 := by decide
theorem test_decode_invalidHigh4E :
    decode 0b0100111000000000 = .invalidHigh4E ∧ decode 0b0100111111111111 = .invalidHigh4E := by decide
theorem test_decode_invalidHigh54 :
    decode 0b0101010000000000 = .invalidHigh54 ∧ decode 0b0101011111111111 = .invalidHigh54 := by decide

/-- The low byte is stored first (20_memory.md R63); one byte is no instruction. -/
theorem test_decodeBytes :
    decodeTableWord 16 0x4011 = some (.add (.reg .r2) .word .r1) ∧
    (decodeBytes [0x11, 0x40, 0xFF]).toOption = some (.add (.reg .r2) .word .r1, [0xFF]) ∧
    (decodeBytes [0x11]).toOption = none := by decide

/-! One step of each instruction. -/

/-- The next state, if there is one. -/
def after : Result → Option State
  | .next s => some s
  | .fault _ => none
  | .refused _ => none

/-- A state with R0 to R3, the PC and the PSW as given. -/
def start (r0 r1 r2 r3 pc psw : Word) : State :=
  { State.reset with bank0 := { Bank.zero with r0 := r0, r1 := r1, r2 := r2, r3 := r3, r7 := pc }, psw := psw }

/-- A register and the PSW after E0. -/
def regPsw (i : Instr) (s : State) (r : Reg) : Option (Word × Word) := (after (exec i s)).map fun t => (t.x r, t.psw)

/-- The program counter and the squash flag after E0. -/
def pcSquash (i : Instr) (s : State) : Option (Word × Bool) := (after (exec i s)).map fun t => (t.pc, t.decodeBubble)

/-- 41_branch.md R183's example. -/
theorem test_bl :
    pcSquash (.bl 0x000C) (start 0 0 0 0 0x1004 0) = some (0x1010, true) ∧
    (regPsw (.bl 0x000C) (start 0 0 0 0 0x1004 0) .r5) = some (0x1002, 0) := by decide
/-- R184's example, taken and not. -/
theorem test_beq :
    pcSquash (.beq 4) (start 0 0 0 0 0x0104 0x2) = some (0x0108, true) ∧
    pcSquash (.beq 4) (start 0 0 0 0 0x0104 0x1D) = some (0x0104, false) := by decide
/-- R185's example. -/
theorem test_bne :
    pcSquash (.bne 0xFFF8) (start 0 0 0 0 0x100C 0) = some (0x1004, true) ∧
    pcSquash (.bne 0xFFF8) (start 0 0 0 0 0x100C 2) = some (0x100C, false) := by decide
/-- R186's example. -/
theorem test_bc :
    pcSquash (.bc 0) (start 0 0 0 0 0x0204 1) = some (0x0204, true) ∧
    pcSquash (.bc 0) (start 0 0 0 0 0x0204 0x1E) = some (0x0204, false) := by decide
/-- R187's example. -/
theorem test_bnc :
    pcSquash (.bnc 0) (start 0 0 0 0 0x0204 0) = some (0x0204, true) ∧
    pcSquash (.bnc 0) (start 0 0 0 0 0x0204 1) = some (0x0204, false) := by decide
/-- R188's example. -/
theorem test_bn :
    pcSquash (.bn 0xFFFC) (start 0 0 0 0 0x0204 4) = some (0x0200, true) ∧
    pcSquash (.bn 0xFFFC) (start 0 0 0 0 0x0204 0x1B) = some (0x0204, false) := by decide
/-- R189's example. -/
theorem test_bge :
    pcSquash (.bge 2) (start 0 0 0 0 0x0204 0x14) = some (0x0206, true) ∧
    pcSquash (.bge 2) (start 0 0 0 0 0x0204 0x10) = some (0x0204, false) := by decide
/-- R190's example. -/
theorem test_blt :
    pcSquash (.blt 2) (start 0 0 0 0 0x0204 0x04) = some (0x0206, true) ∧
    pcSquash (.blt 2) (start 0 0 0 0 0x0204 0x14) = some (0x0204, false) := by decide
/-- R191's example. -/
theorem test_bra : pcSquash (.bra 0xFFF8) (start 0 0 0 0 0x100C 0) = some (0x1004, true) := by decide
/-- 0x7FFF + 1 overflows into the sign (42_arithmetic_logic.md R203); a byte result keeps the high byte (R200). -/
theorem test_add :
    regPsw (.add (.reg .r2) .word .r1) (start 0 0x7FFF 1 0 0 0) .r1 = some (0x8000, 0x14) ∧
    regPsw (.add (.reg .r2) .byte .r1) (start 0 0x12FF 1 0 0 0) .r1 = some (0x1200, 0x03) := by decide
theorem test_addc :
    regPsw (.addc (.const .r0) .word .r1) (start 0 0xFFFF 0 0 0 1) .r1 = some (0x0000, 0x03) := by decide
/-- R207's example and its corner case 0x0000 - 1. -/
theorem test_sub :
    regPsw (.sub (.const .r1) .word .r0) (start 5 0 0 0 0 0) .r0 = some (4, 0x01) ∧
    regPsw (.sub (.const .r1) .word .r0) (start 0 0 0 0 0 0) .r0 = some (0xFFFF, 0x04) := by decide
theorem test_subc :
    regPsw (.subc (.reg .r2) .word .r1) (start 0 5 3 0 0 0) .r1 = some (1, 0x01) ∧
    regPsw (.subc (.reg .r2) .word .r1) (start 0 5 3 0 0 1) .r1 = some (2, 0x01) := by decide
/-- R212's example, 9 + 1 in decimal digits; N and V stay (R211). -/
theorem test_dadd :
    regPsw (.dadd (.const .r1) .word .r2) (start 0 0 0x0009 0 0 0x17) .r2 = some (0x0010, 0x14) ∧
    regPsw (.dadd (.const .r5) .byte .r2) (start 0 0 0xAB84 0 0 0) .r2 = some (0xAB00, 0x03) := by decide
/-- 0x8000 against 1: no borrow, signed overflow; the register stays (R207, R213). -/
theorem test_cmp : regPsw (.cmp (.const .r1) .word .r0) (start 0x8000 0 0 0 0 0) .r0 = some (0x8000, 0x11) := by decide
/-- R214's example; C and V stay. -/
theorem test_xor : regPsw (.xor (.reg .r1) .word .r0) (start 0x00FF 0x0F0F 0 0 0 0x17) .r0 = some (0x0FF0, 0x11) := by
  decide
theorem test_and : regPsw (.and (.reg .r1) .byte .r0) (start 0x12F0 0xFF8F 0 0 0 0) .r0 = some (0x1280, 0x04) := by decide
theorem test_or : regPsw (.or (.reg .r1) .word .r0) (start 0x00F0 0x0F00 0 0 0 0x06) .r0 = some (0x0FF0, 0x00) := by decide
theorem test_bit : regPsw (.bit (.const .r4) .word .r0) (start 0x00F7 0 0 0 0 0) .r0 = some (0x00F7, 0x02) := by decide
theorem test_bic : regPsw (.bic (.const .r7) .byte .r0) (start 0x34FF 0 0 0 0 0) .r0 = some (0x3400, 0x02) := by decide
theorem test_bis : regPsw (.bis (.const .r4) .word .r0) (start 0x8000 0 0 0 0 0) .r0 = some (0x8008, 0x04) := by decide
/-- 43_register_manipulation.md R241's examples. -/
theorem test_mov :
    regPsw (.mov .word .r1 .r0) (start 0x1234 0xABCD 0 0 0 0x1F) .r0 = some (0xABCD, 0x1F) ∧
    regPsw (.mov .byte .r1 .r0) (start 0x1234 0xABCD 0 0 0 0) .r0 = some (0x12CD, 0) := by decide
/-- R242's example. -/
theorem test_swap :
    regPsw (.swap .r1 .r0) (start 0x1111 0x2222 0 0 0 0) .r0 = some (0x2222, 0) ∧
    regPsw (.swap .r1 .r0) (start 0x1111 0x2222 0 0 0 0) .r1 = some (0x1111, 0) := by decide
/-- R243's examples. -/
theorem test_sra :
    regPsw (.sra .word .r0) (start 0x8003 0 0 0 0 0) .r0 = some (0xC001, 0x05) ∧
    regPsw (.sra .byte .r0) (start 0x1281 0 0 0 0 0) .r0 = some (0x12C0, 0x05) := by decide
/-- R244's example. -/
theorem test_rrc :
    regPsw (.rrc .word .r0) (start 1 0 0 0 0 0) .r0 = some (0, 0x03) ∧
    regPsw (.rrc .word .r0) (start 0 0 0 0 0 3) .r0 = some (0x8000, 0x04) := by decide
/-- R245's example. -/
theorem test_swpb : regPsw (.swpb .r0) (start 0x1234 0 0 0 0 0) .r0 = some (0x3412, 0) := by decide
/-- R246's examples. -/
theorem test_sxt :
    regPsw (.sxt .r0) (start 0x1280 0 0 0 0 0) .r0 = some (0xFF80, 0) ∧
    regPsw (.sxt .r0) (start 0x127F 0 0 0 0 0) .r0 = some (0x007F, 0) := by decide
/-- 44_status.md R261's example. -/
theorem test_setcc : regPsw (.setcc 0x17) (start 0 0 0 0 0 0) .r0 = some (0, 0x17) := by decide
/-- R262's example; PSW bits 15 to 5 stay. -/
theorem test_clrcc : regPsw (.clrcc 0x01) (start 0 0 0 0 0 0xE017) .r0 = some (0, 0xE016) := by decide
/-- 45_cex.md R271: the predicate chooses the arm, and an empty window is closed. -/
theorem test_cex_window :
    openWindow .eq 2 1 0x2 = ⟨.eq, .predicateTrue, 2, 1⟩ ∧ openWindow .eq 2 1 0 = ⟨.eq, .predicateFalse, 2, 1⟩ ∧
    openWindow .tr 0 0 0 = ⟨.tr, .disabled, 0, 0⟩ := by decide
/-- 46_load_store.md R297's example. -/
theorem test_ld :
    ((after (exec (.ld true true false .word .r3 .r0) (start 0 0 0 0x1000 0 0))).map
      fun t => (t.x .r3, t.dmar, t.dctrl, t.lsd)) = some (0x0FFE, 0x0FFE, .rdW, .r0) := by decide
/-- R295: the data are sampled before the address register is updated, and a byte is zero-extended. -/
theorem test_st :
    ((after (exec (.st true false true .word .r1 .r1) (start 0 0x1000 0 0 0 0))).map
      fun t => (t.x .r1, t.dmar, t.dmbr, t.dctrl)) = some (0x1002, 0x1002, 0x1000, .wrW) ∧
    ((after (exec (.st false true false .byte .r2 .r1) (start 0 0x1000 0xABCD 0 0 0))).map
      fun t => (t.x .r1, t.dmar, t.dmbr, t.dctrl)) = some (0x0FFF, 0x1000, 0x00CD, .wrB) := by decide
/-- 47_register_init.md R321's example. -/
theorem test_movl : regPsw (.movl 0xFF .r1) (start 0 0x1200 0 0 0 0) .r1 = some (0x12FF, 0) := by decide
/-- R322's example. -/
theorem test_movlz : regPsw (.movlz 0x34 .r0) (start 0xFFFF 0 0 0 0 0) .r0 = some (0x0034, 0) := by decide
/-- R323's example. -/
theorem test_movls : regPsw (.movls 0x01 .r2) (start 0 0 0 0 0 0) .r2 = some (0xFF01, 0) := by decide
/-- R324's example. -/
theorem test_movh : regPsw (.movh 0x12 .r0) (start 0x0034 0 0 0 0 0) .r0 = some (0x1234, 0) := by decide
/-- R293: the offset is in bytes and the address register stays. -/
theorem test_ldr :
    ((after (exec (.ldr 0xFFFF .byte .r3 .r0) (start 0 0 0 0x1000 0 0))).map
      fun t => (t.x .r3, t.dmar, t.dctrl, t.lsd)) = some (0x1000, 0x0FFF, .rdB, .r0) := by decide
theorem test_str :
    ((after (exec (.str 0x0004 .word .r2 .r1) (start 0 0xFFFE 0xABCD 0 0 0))).map
      fun t => (t.x .r1, t.dmar, t.dmbr, t.dctrl)) = some (0xFFFE, 0x0002, 0xABCD, .wrW) := by decide
/-- 48_nop_invalid.md R330, R331: no change. -/
theorem test_nop_invalid :
    after (exec .nop (start 1 2 3 4 5 0x1F)) = some (start 1 2 3 4 5 0x1F) ∧
    after (exec .invalidHigh4E (start 1 2 3 4 5 0x1F)) = some (start 1 2 3 4 5 0x1F) := by decide

/-! The memory and a program's first instruction. -/

/-- Low byte first, and an odd word address reaches the aligned word (20_memory.md R63, R65). -/
theorem test_memory :
    Memory.writeWord [] 0x1001 0xBEEF = [(0x1000, 0xEF), (0x1001, 0xBE)] ∧
    Memory.readWord [(0x1000, 0xEF), (0x1001, 0xBE)] 0x1001 = 0xBEEF ∧
    Memory.writeByte [(0x1000, 0xEF), (0x1001, 0xBE)] 0x1000 0x5500 = [(0x1001, 0xBE)] := by decide

/-- `ADD #1,R0` placed by `withFetchWord` is executed by the next step. -/
theorem test_withFetchWord :
    ((after (step (State.reset.withFetchWord 16 0x4088))).map fun t => (t.x .r0, t.pc, t.ctl.clock)) =
      some (1, 4, 4) := by decide

/-- The state `withFetchWord` makes is the one that a load of the word at 0, `run()` and three half-cycles make
(70_reset_and_hazards.md R382). -/
theorem test_withFetchWord_is_a_run :
    after (core.run 4 { State.reset with imem := [(0, 0x88), (1, 0x40)], inputs := [.cmd .run] }) =
      (after (.next (State.reset.withFetchWord 16 0x4088))).map fun t => { t with inputs := [] } := by decide

/-- `raise_interrupt()` arrives in Halted too: it sets `user_interrupt`, is not rejected, and leaves Halted alone
(10_state.md R52, R53; 40_pipeline_step.md R149). -/
theorem test_raiseInterrupt_halted :
    ((after (step { State.reset.halt with inputs := [.cmd .raiseInterrupt] })).map
      fun t => (t.ctl.userInterrupt, t.reply, t.ctl.fsm)) = some (true, .none, .halted) := by decide

/-! Witnesses: for each statement with hypotheses, a state and operands that meet all of them. -/

/-- Running at an even and at an odd half-cycle. -/
def running (clock : Nat) : State :=
  { State.reset with ctl := { Controller.reset with fsm := .running, hasStarted := true, clock := clock, breakpoint := 1 } }

theorem witness_DecodeInvertsEncode :
    WellFormed (.bl 0xDFFE) ∧ WellFormed (.beq 0x03FC) ∧ WellFormed (.ldr 0xFFC0 .byte .r0 .r7) ∧
    WellFormed (.setcc 0x1F) := by decide
theorem witness_RowsPartitionTheWords :
    (((0x2003 : Word) = 0 → Instr.beq 0 = .nop) ∧ (0x2003 : Word) &&& rowMask (.beq 0) = rowMatch (.beq 0)) ∧
    (((0 : Word) = 0 → Instr.nop = .nop) ∧ (0 : Word) &&& rowMask .nop = rowMatch .nop) := by decide
theorem witness_BranchWithLink :
    (0x1000 : BitVec 13) ≠ 0 ∧ (0x0FFF : BitVec 13) ≠ 0 ∧ (start 0 0 0 0 0x0002 0).pc = 0xFFFE + 4 := by decide
theorem witness_ConditionalBranches : (start 0 0 0 0 0x1004 0).pc = 0x1000 + 4 := by decide
theorem witness_DecimalAddOfDecimalDigits :
    decimalValid (Width.bits .word / 4) ((start 0 0x0001 0x9999 0 0 0).operand .r2 .word).toNat ∧
    decimalValid (Width.bits .word / 4) ((start 0 0x0001 0x9999 0 0 0).operand .r1 .word).toNat ∧
    decimalValid (Width.bits .byte / 4) ((start 0 0x0001 0xFF99 0 0 0).operand .r2 .byte).toNat ∧
    decimalValid (Width.bits .byte / 4) ((start 0 0x0001 0xFF99 0 0 0).operand .r1 .byte).toNat := by
  unfold decimalValid
  decide
theorem witness_SubUndoesAdd :
    Source.reg .r1 ≠ .reg .r0 ∧ Source.const .r0 ≠ .reg .r0 := by decide
theorem witness_TwoBytesLoadAnyWord :
    Reg.r6 ≠ .r7 ∧ Instr.movl 0xFF .r6 ∈ [Instr.movlz 0xFF .r6, .movl 0xFF .r6, .movls 0xFF .r6] := by decide
theorem witness_ConditionCodes : 0 < 8 ∧ 7 < 8 := by decide
theorem witness_WindowGatesBothArms : 13 < (7 : BitVec 3).toNat + (7 : BitVec 3).toNat := by decide
theorem witness_WindowOfTwoAndOne : condHolds .eq 0x2 = true ∧ condHolds .eq 0x0 = false := by decide

/-- A window in its running arm. -/
def inWindow (ir : Word) (c : CexState) : State := { State.reset with ir := ir, cex := c }

theorem witness_CexOpensItsWindowInDecode :
    ((inWindow 0x5011 .closed).decodeBubble = false ∧ (inWindow 0x5011 .closed).cex.status = .disabled ∧
      (inWindow 0x5011 .closed).ir = encode (.cex .eq 2 1)) ∧
    (windowAct (inWindow 0x5000 ⟨.ne, .predicateTrue, 1, 0⟩).cex = .run ∧
      (inWindow 0x5000 ⟨.ne, .predicateTrue, 1, 0⟩).ir = encode (.cex .eq 0 0)) := by decide
theorem witness_SquashedAndSkippedWords :
    ({ State.reset with decodeBubble := true } : State).decodeBubble = true ∧
    ((inWindow 0 ⟨.ne, .predicateTrue, 0, 1⟩).decodeBubble = false ∧
      (inWindow 0 ⟨.ne, .predicateTrue, 0, 1⟩).cex.status ≠ .disabled ∧
      windowAct (inWindow 0 ⟨.ne, .predicateTrue, 0, 1⟩).cex = .skip) := by decide
theorem witness_InvalidWordIsReported :
    ((inWindow 0x4E00 .closed).decodeBubble = false ∧ (inWindow 0x4E00 .closed).cex.status = .disabled ∧
      ∀ cc tc fc, decode (inWindow 0x4E00 .closed).ir ≠ .cex cc tc fc) ∧
    ((inWindow 0x57FF ⟨.ne, .predicateFalse, 0, 1⟩).decodeBubble = false ∧
      windowAct (inWindow 0x57FF ⟨.ne, .predicateFalse, 0, 1⟩).cex = .run) :=
  ⟨⟨by decide, by decide, nofun⟩, by decide⟩

/-- A state with a pending request at the top of the data bank. -/
def pending (d : Dctrl) : State := { State.reset with dctrl := d, dmar := 0xFFFF, dmbr := 0xBEEF, dmem := [(0xFFFE, 1)] }

theorem witness_PendingReadReachesRegister : (pending .rdW).dctrl = .rdW ∧ (pending .rdB).dctrl = .rdB := by decide
theorem witness_PendingWriteReachesMemory :
    Memory.wf (pending .wrW).dmem = true ∧ (pending .wrW).dctrl = .wrW ∧ (pending .wrB).dctrl = .wrB := by decide
theorem witness_StoredBytesAndNoOthers :
    Memory.wf (pending .none).dmem = true ∧
    (∃ prpo dec inc, Instr.st true true false .word .r1 .r2 = .st prpo dec inc .word .r1 .r2 ∧
      (0xFFFE : Word) = indexedAddress prpo dec inc .word ((pending .none).x .r2)) ∧
    ∃ off, Instr.str 0xFFFF .byte .r1 .r2 = .str off .byte .r1 .r2 ∧
      (0xFFFF : Word) = (pending .none).relativeAddress .r2 off :=
  ⟨by decide, ⟨true, true, false, rfl, by decide⟩, ⟨0xFFFF, rfl, by decide⟩⟩
theorem witness_LoadedValueReachesRegister :
    (∃ prpo dec inc, Instr.ld true true false .word .r1 .r2 = .ld prpo dec inc .word .r1 .r2 ∧
      (0xFFFE : Word) = indexedAddress prpo dec inc .word ((pending .none).x .r1)) ∧
    ∃ off, Instr.ldr 0xFFFF .byte .r1 .r1 = .ldr off .byte .r1 .r1 ∧
      (0xFFFF : Word) = (pending .none).relativeAddress .r1 off :=
  ⟨⟨true, true, false, rfl, by decide⟩, ⟨0xFFFF, rfl, by decide⟩⟩
theorem witness_LoadAfterStoreReturnsTheValue :
    (Memory.wf (pending .none).dmem = true ∧
      isStore (.str 0xFFFF .word .r1 .r2) .word .r1 (pending .none) 0xFFFF ∧
      isStore (.st true true false .byte .r1 .r2) .byte .r1 (pending .none) 0xFFFF) ∧
    (isLoad (.ldr 0xFFFF .byte .r2 .r1) .byte .r1 (pending .none) 0xFFFF ∧
      isLoad (.ld true true false .word .r2 .r1) .word .r1 (pending .none) 0xFFFE) ∧
    Memory.wf [(0, 1), (0xFFFF, 0xFF)] = true :=
  ⟨⟨by decide, .inr ⟨_, _, rfl, by decide⟩, .inl ⟨_, _, _, _, rfl, by decide⟩⟩,
    ⟨.inr ⟨_, _, rfl, by decide⟩, .inl ⟨_, _, _, _, rfl, by decide⟩⟩, by decide⟩
theorem witness_StepRunsTheDecodedInstruction :
    ((running 1).inputs = [] ∧ (running 1).ctl.fsm = .running ∧ (running 1).ctl.clock % 2 = 1 ∧
      (running 1).executeBubble = false) ∧
    ∃ t, exec (running 1).dec (stageE1 { running 1 with
      imbr := Memory.readWord (running 1).imem (running 1).imar, ir := Memory.readWord (running 1).imem (running 1).imar
      invalid := none }) = .next t :=
  ⟨by decide, _, rfl⟩
theorem witness_StepDecodesTheFetchedWord :
    (running 0).inputs = [] ∧ (running 0).ctl.fsm = .running ∧ (running 0).ctl.clock % 2 = 0 ∧
    (running 0).decodeBubble = false ∧ (running 0).cex.status = .disabled := by decide
theorem witness_StepFetchesAtImar :
    (running 1).inputs = [] ∧ (running 1).ctl.fsm = .running ∧ (running 1).ctl.clock % 2 = 1 := by decide
theorem witness_FirstInstructionAfterStart : (0xFFFC : Word) ≠ 0xFFFE ∧ (0xFFFF : Word) ≠ 0xFFFE := by decide

/-- The start of a cycle at which ADD #1,R0 from address 0 is decoded. -/
def cycle : State := { running 2 with bank0 := { Bank.zero with r7 := 2 }, ir := 0x4088, imem := [(0, 0x88), (1, 0x40)] }

theorem witness_PipelineRefinesSequentialMachine :
    (undisturbed cycle ∧ cycleStart cycle ∧ cycle.decodeBubble = false ∧ redirectsPc (decode cycle.ir) = false) ∧
    (undisturbed { cycle with decodeBubble := true } ∧ cycleStart { cycle with decodeBubble := true }) := by
  unfold undisturbed cycleStart
  decide
/-- Executing `i` in an odd half-cycle, from address 0. -/
def executing (i : Instr) : State := { running 1 with bank0 := { Bank.zero with r7 := 4 }, dec := i }

/-- The program counter after the E0 of `executing i`, and whether the next E1 loads into R7. -/
def pcLoads (i : Instr) : Option (Word × Bool) :=
  (after (exec i (executing i).atExecute)).map fun t => (t.pc, t.loadsIntoPc)

theorem witness_WriteToPcHasOneDelaySlot :
    (∀ i ∈ [Instr.add (.const .r7) .word .r7, .swap .r7 .r0, .ld false false true .word .r7 .r1,
        .st true true false .byte .r0 .r7],
      (undisturbed (executing i) ∧ (executing i).ctl.clock % 2 = 1 ∧ (executing i).executeBubble = false ∧
        (executing i).decodeBubble = false ∧ (executing i).cex.status = .disabled ∧
        writesPcAtE0 (executing i).dec = true) ∧
      ∃ p ∈ pcLoads i, p.1 ≠ (executing i).ctl.breakpoint ∧ p.2 = false) ∧
    (let s := executing (.mov .word .r5 .r7)
     undisturbed s ∧ s.ctl.clock % 2 = 1 ∧ s.executeBubble = false ∧ s.decodeBubble = false ∧
       s.cex.status = .disabled ∧ s.dctrl = .none ∧ s.dec = .mov .word .r5 .r7 ∧ s.x .r5 ≠ s.ctl.breakpoint) := by
  unfold undisturbed
  decide
/-- The word after the load is NOP, so its E0 leaves the loaded 0 in R7. -/
theorem witness_LoadIntoPcHasTwoDelaySlots :
    ∀ i ∈ [Instr.ld false false false .word .r0 .r7, .ldr 0xFFFF .byte .r0 .r7],
      (undisturbed (executing i) ∧ (executing i).ctl.clock % 2 = 1 ∧ (executing i).executeBubble = false ∧
        (executing i).decodeBubble = false ∧ (executing i).cex.status = .disabled ∧
        loadsPc (executing i).dec = true) ∧
      (∃ p ∈ pcLoads i, p.1 ≠ (executing i).ctl.breakpoint ∧ p.2 = true) ∧
      ((after (andThen (andThen (step (executing i)) step) step)).map
        fun t => (t.pc, t.decodeBubble, t.cex.status)) = some (0, false, .disabled) ∧
      (0 : Word) ≠ (executing i).ctl.breakpoint := by
  unfold undisturbed
  decide
theorem witness_NextInstructionReadsLoadedValue :
    ∀ d ∈ [Dctrl.rdW, .rdB],
      let s := { running 1 with dctrl := d, lsd := .r2, dmbr := 0xBEEF, dec := .mov .word .r2 .r3 }
      s.inputs = [] ∧ s.ctl.fsm = .running ∧ s.ctl.clock % 2 = 1 ∧ s.executeBubble = false ∧
      (s.dctrl = .rdW ∨ s.dctrl = .rdB) ∧ s.dec = .mov .word s.lsd .r3 := by decide
theorem witness_MisalignedWordParameter :
    (let s := { running 0 with dctrl := .wrW, dmar := 0xFFFF };
      s.inputs = [] ∧ s.ctl.fsm = .running ∧ s.ctl.clock % 2 = 0 ∧ (s.dctrl = .rdW ∨ s.dctrl = .wrW) ∧
      s.dmar.getLsbD 0 = true) ∧
    (let s := { running 1 with imar := 0x0001 };
      s.inputs = [] ∧ s.ctl.fsm = .running ∧ s.ctl.clock % 2 = 1 ∧ s.imar.getLsbD 0 = true) ∧
    accessesAligned { running 0 with dctrl := .rdW, dmar := 0xFFFE } ∧
    accessesAligned { running 0 with dctrl := .rdB, dmar := 0xFFFF } := by
  unfold accessesAligned
  decide
theorem witness_StepKeepsSound : Sound (running 1) ∧ ∃ t, step (running 1) = .next t := by
  refine ⟨?_, _, rfl⟩
  unfold Sound cexSound hazardSound controllerSound
  decide
theorem witness_ResetInputRestoresReset :
    ({ running 1 with inputs := [.rst, .tick] } : State).inputs = .rst :: [.tick] := by decide
theorem witness_CoreNeverWritesInstructionBank :
    ((running 0).inputs = [] ∧ ∃ t, step (running 0) = .next t) ∧
    (({ running 0 with inputs := [.tick, .rst] } : State).inputs.head? = some .tick ∧
      ∃ t, step { running 0 with inputs := [.tick, .rst] } = .next t) :=
  ⟨⟨rfl, _, rfl⟩, rfl, _, rfl⟩
theorem witness_PriorityAndFaultBitsNeverChange :
    (running 1).inputs = [] ∧ WellFormed (running 1).dec ∧ ∃ t, step (running 1) = .next t :=
  ⟨rfl, rfl, _, rfl⟩
theorem witness_NoHalfCycleUnlessRunning :
    (State.reset.ctl.fsm ≠ .running ∧ State.reset.inputs = []) ∧
    (State.reset.halt.ctl.fsm ≠ .running ∧
      ({ State.reset.halt with inputs := [.tick, .rst] } : State).inputs = .tick :: [.rst]) := by decide
theorem witness_StartCopiesStartAddress :
    State.reset.ctl.fsm = .idle ∧
    ({ State.reset with inputs := [.cmd .run, .tick] } : State).inputs = .cmd .run :: [.tick] ∧
    ({ State.reset with inputs := [.cmd .step] } : State).inputs = .cmd .step :: [] := by decide

/-- Suspended before an even half-cycle with single-step on. -/
def suspended : State :=
  { running 4 with
    inputs := [.cmd .run]
    ctl := { (running 4).ctl with fsm := .suspended, singleStep := true, userInterrupt := true } }

theorem witness_SingleStepRunsOnePair :
    (suspended.ctl.fsm = .suspended ∧ suspended.inputs = [.cmd .run] ∧ suspended.ctl.singleStep = true ∧
      suspended.ctl.clock % 2 = 0 ∧ suspended.ctl.stopOnClock = false ∧ suspended.ctl.stopReq = false) ∧
    (let s := { suspended with inputs := [.cmd .step], ctl := { suspended.ctl with singleStep := false } }
     s.ctl.fsm = .suspended ∧ s.inputs = [.cmd .step] ∧ s.ctl.clock % 2 = 0 ∧ s.ctl.stopOnClock = false ∧
       s.ctl.stopReq = false) := by decide
theorem witness_EndOfHalfCycleChecks :
    (let c := { (running 2).ctl with stopReq := true };
      c.fsm = .running ∧ c.stopReq = true) ∧
    (let s := { running 2 with bank0 := { Bank.zero with r7 := 1 } };
      s.ctl.fsm = .running ∧ s.ctl.stopReq = false ∧ s.pc = s.ctl.breakpoint) ∧
    (let c := { (running 2).ctl with stepOnce := true, stopOnClock := true };
      c.fsm = .running ∧ c.stopReq = false ∧ c.stepOnce = true ∧ c.stopOnClock = true) ∧
    ((running 2).ctl.stopReq = false ∧ (running 2).ctl.singleStep = false ∧ (running 2).ctl.stepOnce = false ∧
      (running 2).pc ≠ (running 2).ctl.breakpoint ∧ (running 2).ctl.userInterrupt = false) := by decide
theorem witness_InterruptSuspendsAfterHalfCycle :
    ({ running 1 with inputs := [.irq] } : State).ctl.fsm = .running ∧
    ({ running 1 with inputs := [.irq] } : State).inputs = [.irq] := by decide
theorem witness_CommandsRejectedWhileRunning :
    (running 1).ctl.fsm = .running ∧ ({ running 1 with inputs := [.cmd .run] } : State).inputs = .cmd .run :: [] ∧
    Command.run ≠ .raiseInterrupt ∧ Command.run ≠ .stop := by decide
theorem witness_HaltedIsLeftOnlyByReset :
    ∀ e ∈ [Input.cmd (.readRegister .r7), .cmd (.readMemory .data .word 0xFFFF), .cmd .raiseInterrupt, .cmd .stop, .irq,
        .tick],
      let s := { (running 1).halt with inputs := [e] }
      s.ctl.fsm = .halted ∧ s.inputs.head? ≠ some .rst ∧ s.inputs.head? = some e := by decide
theorem witness_HostWritesTakeEffect :
    (suspended.ctl.fsm = .suspended ∧ State.reset.ctl.fsm = .idle ∧ (running 1).ctl.fsm = .running) ∧
    (∀ c ∈ [Command.setStartAddress 0xFFFE, .setBreakpoint 0xFFFF, .toggleSingleStep, .toggleStopOnClock,
        .readRegister .r7, .writeRegister .r7 0xFFFF, .readMemory .data .word 0xFFFF,
        .readMemory .instruction .byte 0xFFFF, .clearPsw, .raiseInterrupt, .stop],
      ({ State.reset with inputs := [.cmd c] } : State).inputs = .cmd c :: []) ∧
    (∀ c ∈ [Command.run, .step], ({ suspended with inputs := [.cmd c] } : State).inputs = .cmd c :: []) ∧
    (∀ c ∈ [Command.raiseInterrupt, .stop], ({ running 1 with inputs := [.cmd c] } : State).inputs = .cmd c :: []) := by
  decide
theorem witness_HostMemoryWrites :
    ∀ wb ∈ [Width.word, .byte],
      let s := { pending .none with inputs := [.cmd (.writeMemory .data wb 0xFFFF 0xBEEF)] }
      s.ctl.fsm = .idle ∧ s.inputs = .cmd (.writeMemory .data wb 0xFFFF 0xBEEF) :: [] ∧
      Memory.wf (s.bankOf .data) = true := by decide

end Sys2Proof.Tests
end

section
/-! SUPPORT. Every word decodes to an instruction that some word encodes (30_encoding.md R105, R106, R112). -/

namespace Sys2Proof

/-- The displacement of a branch, counted in words by the field of the format (30_encoding.md R105). -/
theorem wordOffset_toInt {n : Nat} (o : BitVec n) (h : n < 16) : ((o ++ 0#1).signExtend 16).toInt = o.toInt * 2 := by
  rw [BitVec.toInt_signExtend_of_le (by omega), BitVec.toInt_append_zero, pow_one, Int.mul_comm]

theorem branchRange10_branchOff10 (o : BitVec 10) : branchRange10 (branchOff10 o) := by
  have hlo := o.le_toInt
  have hhi := o.toInt_lt
  simp only [branchRange10, branchRange, branchOff10, BitVec.sub_add_cancel, wordOffset_toInt o (by decide)]
  omega

theorem branchRange13_branchOff13 {o : BitVec 13} (ho : o ≠ 0#13) : branchRange13 (branchOff13 o) := by
  have hlo := o.le_toInt
  have hhi := o.toInt_lt
  have hzero : (o ++ 0#1).signExtend 16 ≠ 0#16 := fun h => ho <| BitVec.eq_of_toInt_eq <| by
    have := congrArg BitVec.toInt h
    rw [wordOffset_toInt o (by decide), BitVec.toInt_zero] at this
    rw [BitVec.toInt_zero]
    omega
  simp only [branchRange13, branchRange, branchOff13, BitVec.sub_add_cancel, wordOffset_toInt o (by decide)]
  exact ⟨by omega, hzero⟩

theorem relativeRange_relativeOff (o : BitVec 7) : relativeRange (relativeOff o) := by
  have hlo := o.le_toInt
  have hhi := o.toInt_lt
  simp only [relativeRange, relativeOff, BitVec.toInt_signExtend_of_le (show 7 ≤ 16 by decide)]
  omega

theorem maskRange_maskField (w : Word) : maskRange (maskField w) := by
  simp only [maskRange, maskField, BitVec.toNat_setWidth]
  have := (w.extractLsb' 0 5).isLt
  omega

/-- Below 0x2000 the low thirteen bits are the word, so BL's offset is 0 only in the word of NOP
(30_encoding.md R91, R93). -/
theorem off13_ne_zero {w : Word} (hw : w ≠ 0#16) (hb : (w.extractLsb' 8 8).toNat < 0x40) (h13 : w.getLsbD 13 = false) :
    w.extractLsb' 0 13 ≠ 0#13 := by
  intro h
  apply hw
  apply BitVec.eq_of_toNat_eq
  have hlow := congrArg BitVec.toNat h
  have hbit : w.toNat / 2 ^ 13 % 2 = 0 := by
    simpa [BitVec.getLsbD, Nat.testBit_eq_decide_div_mod_eq] using h13
  simp only [BitVec.extractLsb'_toNat, Nat.shiftRight_eq_div_pow, BitVec.toNat_ofNat] at hb hlow ⊢
  have := w.isLt
  omega

theorem wellFormed_decodeBranch {w : Word} (hw : w ≠ 0#16) (hb : (w.extractLsb' 8 8).toNat < 0x40) :
    WellFormed (decodeBranch w) := by
  unfold decodeBranch
  split
  · next h13 => exact decide_eq_true (branchRange13_branchOff13 (off13_ne_zero hw hb h13))
  · dsimp only
    split <;> exact decide_eq_true (branchRange10_branchOff10 _)

theorem wellFormed_decodeArith (w : Word) : WellFormed (decodeArith w) := by
  unfold decodeArith
  dsimp only
  split <;> rfl

theorem wellFormed_decodeMove (w : Word) : WellFormed (decodeMove w) := by
  unfold decodeMove
  split <;> rfl

theorem wellFormed_decodeSingle (w : Word) : WellFormed (decodeSingle w) := by
  unfold decodeSingle
  split <;> rfl

theorem wellFormed_decodeStatus (w : Word) : WellFormed (decodeStatus w) := by
  unfold decodeStatus
  split
  · rfl
  · exact decide_eq_true (maskRange_maskField w)
  · exact decide_eq_true (maskRange_maskField w)
  · rfl

theorem wellFormed_decodeIndexed (w : Word) : WellFormed (decodeIndexed w) := by
  unfold decodeIndexed
  split <;> rfl

theorem wellFormed_decodeInit (w : Word) : WellFormed (decodeInit w) := by
  unfold decodeInit
  split <;> rfl

theorem wellFormed_decodeRelative (w : Word) : WellFormed (decodeRelative w) := by
  unfold decodeRelative
  dsimp only
  split <;> exact decide_eq_true (relativeRange_relativeOff _)

/-- Every word decodes to a well-formed instruction: each test of R91 by the range of its own format. -/
theorem wellFormed_decode (w : Word) : WellFormed (decode w) := by
  unfold decode
  dsimp only
  split_ifs with hw hb
  · rfl
  · exact wellFormed_decodeBranch hw hb
  · exact wellFormed_decodeArith w
  · exact wellFormed_decodeMove w
  · exact wellFormed_decodeSingle w
  · exact wellFormed_decodeStatus w
  · rfl
  · exact wellFormed_decodeIndexed w
  · exact wellFormed_decodeInit w
  · exact wellFormed_decodeRelative w
  · rfl
  · rfl

end Sys2Proof
end

section
/-! SUPPORT. What every stage and every instruction leaves of the PSW bits 15 to 5 (10_state.md R30, R33). -/

namespace Sys2Proof.Machine

/-- The PSW bits that no half-cycle writes: the priorities, the fault bit and the unused bits (10_state.md R30, R33). -/
def reservedBits (p : Word) : Word := p &&& 0xFFE0#16

theorem reservedBits_getLsbD (p : Word) (k : Nat) : (reservedBits p).getLsbD k = (decide (5 ≤ k) && p.getLsbD k) := by
  by_cases h16 : k < 16
  · have hmask : ∀ j, j < 16 → (0xFFE0#16).getLsbD j = decide (5 ≤ j) := by decide
    rw [reservedBits, BitVec.getLsbD_and, hmask k h16, Bool.and_comm]
  · have hout : ∀ q : Word, q.getLsbD k = false := fun q => BitVec.getLsbD_of_ge q k (Nat.le_of_not_lt h16)
    rw [hout, hout, Bool.and_false]

theorem reservedBits_eq_iff {p q : Word} :
    reservedBits p = reservedBits q ↔ ∀ k, 5 ≤ k → p.getLsbD k = q.getLsbD k := by
  constructor
  · intro h k hk
    have hbit := congrArg (BitVec.getLsbD · k) h
    simpa [reservedBits_getLsbD, hk] using hbit
  · intro h
    apply BitVec.eq_of_getLsbD_eq
    intro k _
    rw [reservedBits_getLsbD, reservedBits_getLsbD]
    by_cases hk : 5 ≤ k
    · rw [h k hk]
    · simp [hk]

/-- A field of the PSW above bit 4 is fixed by the reserved bits. -/
theorem extractLsb'_eq_of_reservedBits {p q : Word} (h : reservedBits p = reservedBits q) {lo : Nat} (hlo : 5 ≤ lo)
    (len : Nat) : p.extractLsb' lo len = q.extractLsb' lo len := by
  apply BitVec.eq_of_getLsbD_eq
  intro i _
  simp only [BitVec.getLsbD_extractLsb']
  rw [reservedBits_eq_iff.mp h (lo + i) (by omega)]

/-- A flag mask of SETCC or CLRCC holds no reserved bit (44_status.md R260). -/
theorem flagMask_getLsbD {imm : Byte} (h : maskRange imm) {k : Nat} (hk : 5 ≤ k) :
    (imm.setWidth 16).getLsbD k = false := by
  have hbit : imm.getLsbD k = false :=
    Nat.testBit_lt_two_pow (Nat.lt_of_lt_of_le h (Nat.pow_le_pow_right Nat.zero_lt_two hk))
  rw [BitVec.getLsbD_setWidth, hbit, Bool.and_false]

theorem reservedBits_setcc {imm : Byte} (h : maskRange imm) (p : Word) :
    reservedBits (p ||| imm.setWidth 16) = reservedBits p := by
  rw [reservedBits_eq_iff]
  intro k hk
  rw [BitVec.getLsbD_or, flagMask_getLsbD h hk, Bool.or_false]

theorem reservedBits_clrcc {imm : Byte} (h : maskRange imm) (p : Word) :
    reservedBits (p &&& ~~~(imm.setWidth 16)) = reservedBits p := by
  rw [reservedBits_eq_iff]
  intro k hk
  by_cases h16 : k < 16
  · simp only [BitVec.getLsbD_and, BitVec.getLsbD_not, flagMask_getLsbD h hk, h16, decide_true, Bool.not_false,
      Bool.and_true]
  · simp [BitVec.getLsbD_of_ge _ k (Nat.le_of_not_lt h16)]

theorem addClass_reservedBits (keep : Bool) (wb : Width) (dst : Reg) (b : BitVec wb.bits) (cin : Bool) (s : State) :
    reservedBits (addClass keep wb dst b cin s).psw = reservedBits s.psw := by
  rw [(addClass_spec keep wb dst b cin s).1]
  exact flagsAdd_reserved ..

theorem logicClass_reservedBits (keep : Bool) (wb : Width) (dst : Reg) (r : BitVec wb.bits) (s : State) :
    reservedBits (logicClass keep wb dst r s).psw = reservedBits s.psw := by
  rw [(logicClass_spec keep wb dst r s).1]
  exact flagsZN_reserved ..

theorem shiftRight_reservedBits (top : Bool) (wb : Width) (dst : Reg) (s : State) :
    reservedBits (shiftRight top wb dst s).psw = reservedBits s.psw := by
  rw [(shiftRight_spec top wb dst s).1]
  exact flagsShift_reserved ..

theorem branchWhen_psw {taken : Bool} {off : Word} {s t : State} (h : branchWhen taken off s = .next t) :
    t.psw = s.psw := by
  cases h
  split <;> rfl

/-- The E0 of a well-formed instruction leaves the reserved bits of the PSW: each class of instruction by the flags it
writes, SETCC and CLRCC by the range of their mask. -/
theorem exec_reservedBits {i : Instr} {s t : State} (hi : WellFormed i) (h : exec i s = .next t) :
    reservedBits t.psw = reservedBits s.psw := by
  cases i with
  | add | addc | sub | subc | cmp =>
    cases h
    exact addClass_reservedBits ..
  | xor | and | or | bit | bic | bis =>
    cases h
    exact logicClass_reservedBits ..
  | dadd =>
    cases h
    exact flagsDecimal_reserved ..
  | sra | rrc =>
    cases h
    exact shiftRight_reservedBits ..
  | setcc imm =>
    cases h
    exact reservedBits_setcc (of_decide_eq_true hi) s.psw
  | clrcc imm =>
    cases h
    exact reservedBits_clrcc (of_decide_eq_true hi) s.psw
  | beq | bne | bc | bnc | bn | bge | blt | bra =>
    rw [branchWhen_psw h]
  | ld | st =>
    cases h
    simp
  | nop | bl | mov | swap | swpb | sxt | cex | movl | movlz | movls | movh | ldr | str | invalidFn2 | invalidFn5
  | invalidFn6 | invalidFn7 | invalidSel4 | invalidSel7 | invalidHigh4E | invalidHigh54 =>
    cases h
    rfl

end Sys2Proof.Machine
end

section
/-! SUPPORT. What a tick, D0, E0 and the end of a half-cycle leave of the parts of the state that the sound-state
invariant speaks of (40_pipeline_step.md R132 to R149). -/

namespace Sys2Proof.Machine

/-! M. -/

@[simp] theorem afterM_imem (s : State) : (afterM s).imem = s.imem := by rw [afterM_frame]
@[simp] theorem afterM_bank1 (s : State) : (afterM s).bank1 = s.bank1 := by rw [afterM_frame]
@[simp] theorem afterM_psw (s : State) : (afterM s).psw = s.psw := by rw [afterM_frame]
@[simp] theorem afterM_cex (s : State) : (afterM s).cex = s.cex := by rw [afterM_frame]
@[simp] theorem afterM_ctl (s : State) : (afterM s).ctl = s.ctl := by rw [afterM_frame]
@[simp] theorem afterM_executeBubble (s : State) : (afterM s).executeBubble = s.executeBubble := by rw [afterM_frame]

/-- No write request is left pending by M (40_pipeline_step.md R141). -/
theorem afterM_no_write (s : State) : (afterM s).dctrl ≠ .wrW ∧ (afterM s).dctrl ≠ .wrB := by
  rw [afterM_dctrl]
  cases s.dctrl <;> decide

/-! D0. -/

@[simp] theorem stageD0_imem (s : State) : (stageD0 s).imem = s.imem := by rw [stageD0_frame]
@[simp] theorem stageD0_dmem (s : State) : (stageD0 s).dmem = s.dmem := by rw [stageD0_frame]
@[simp] theorem stageD0_bank1 (s : State) : (stageD0 s).bank1 = s.bank1 := by rw [stageD0_frame]
@[simp] theorem stageD0_psw (s : State) : (stageD0 s).psw = s.psw := by rw [stageD0_frame]
@[simp] theorem stageD0_dctrl (s : State) : (stageD0 s).dctrl = s.dctrl := by rw [stageD0_frame]
@[simp] theorem stageD0_ctl (s : State) : (stageD0 s).ctl = s.ctl := by rw [stageD0_frame]
@[simp] theorem stageD0_decodeBubble (s : State) : (stageD0 s).decodeBubble = false := by rw [stageD0_frame]

/-- D0 leaves a well-formed instruction in the decode latch: NOP or the decoding of IR. -/
theorem stageD0_wellFormed (s : State) : WellFormed (stageD0 s).dec := by
  rcases stageD0_cases s with ⟨_, h⟩ | ⟨_, _, h⟩ | ⟨_, _, _, h⟩ | ⟨_, _, _, h⟩ <;> rw [h]
  · rfl
  · exact wellFormed_decode s.ir
  · rfl
  · exact wellFormed_decode s.ir

/-- The bubble flag of E0 is set by D0 only with NOP in the decode latch (40_pipeline_step.md R137, R143). -/
theorem stageD0_bubble_nop {s : State} (hb : s.executeBubble = false) :
    (stageD0 s).executeBubble = true → (stageD0 s).dec = .nop := by
  rcases stageD0_cases s with ⟨_, h⟩ | ⟨_, _, h⟩ | ⟨_, _, _, h⟩ | ⟨_, _, _, h⟩ <;> rw [h] <;> intro he
  · rfl
  · exact absurd he (by simp [hb])
  · rfl
  · exact absurd he (by simp [hb])

/-! The conditional-execution window (45_cex.md R270 to R273). -/

theorem cexSound_openWindow (c : Cond) (tc fc : BitVec 3) (psw : Word) : cexSound (openWindow c tc fc psw) := by
  have hzero : ∀ n : BitVec 3, n.setWidth 4 = 0 ↔ n = 0 := by decide
  have hbound : ∀ n : BitVec 3, (n.setWidth 4).toNat ≤ 7 := by decide
  have hstatus : (openWindow c tc fc psw).status = .disabled ↔ tc = 0 ∧ fc = 0 := by
    unfold openWindow
    dsimp only
    split
    · next hclosed => exact iff_of_true rfl hclosed
    · next hopen => split <;> exact iff_of_false nofun hopen
  exact ⟨hstatus.trans (and_congr (hzero tc) (hzero fc)).symm, hbound tc, hbound fc⟩

/-- A count used up is one less, and the status is as it was (45_cex.md R273). -/
theorem useCount_spec (c : CexState) :
    (useCount c).status = c.status ∧
    ((c.tc = 0 ∧ (useCount c).tc = 0 ∧ (useCount c).fc = c.fc - 1) ∨
     (c.tc ≠ 0 ∧ (useCount c).tc = c.tc - 1 ∧ (useCount c).fc = c.fc)) := by
  unfold useCount
  split
  · next h => exact ⟨rfl, .inl ⟨h, h, rfl⟩⟩
  · next h => exact ⟨rfl, .inr ⟨h, rfl, rfl⟩⟩

/-- A step of an open window keeps the counts at most 7 and closes the window exactly when both are used up. -/
theorem cexSound_windowNext {c : CexState} (hc : cexSound c) (hopen : c.status ≠ .disabled) :
    cexSound (windowNext c) := by
  obtain ⟨hstatus, htc, hfc⟩ := hc
  obtain ⟨hkept, hcount⟩ := useCount_spec c
  have hpred : ∀ n : BitVec 4, n ≠ 0 → n.toNat ≤ 7 → (n - 1).toNat ≤ 7 := by decide
  have hbound : (useCount c).tc.toNat ≤ 7 ∧ (useCount c).fc.toNat ≤ 7 := by
    rcases hcount with ⟨h0, ht, hf⟩ | ⟨h0, ht, hf⟩ <;> rw [ht, hf]
    · exact ⟨by decide, hpred c.fc (fun hz => hopen (hstatus.mpr ⟨h0, hz⟩)) hfc⟩
    · exact ⟨hpred c.tc h0 htc, hfc⟩
  unfold windowNext
  dsimp only
  split
  · next hz => exact ⟨iff_of_true rfl hz, hbound⟩
  · next hz => exact ⟨iff_of_false (hkept ▸ hopen) hz, hbound⟩

theorem cexSound_windowAfterDecode (i : Instr) {c : CexState} (hc : cexSound c) (psw : Word) :
    cexSound (windowAfterDecode i c psw) := by
  unfold windowAfterDecode
  split
  · exact cexSound_openWindow ..
  · exact hc

theorem stageD0_cexSound {s : State} (hc : cexSound s.cex) : cexSound (stageD0 s).cex := by
  rcases stageD0_cases s with ⟨_, h⟩ | ⟨_, _, h⟩ | ⟨_, hopen, _, h⟩ | ⟨_, hopen, _, h⟩ <;> rw [h]
  · exact hc
  · exact cexSound_windowAfterDecode _ hc _
  · exact cexSound_windowNext hc hopen
  · exact cexSound_windowAfterDecode _ (cexSound_windowNext hc hopen) _

/-! E1 and E0. -/

@[simp] theorem stageE1_imem (s : State) : (stageE1 s).imem = s.imem := by rw [stageE1_frame]
@[simp] theorem stageE1_dmem (s : State) : (stageE1 s).dmem = s.dmem := by rw [stageE1_frame]
@[simp] theorem stageE1_bank1 (s : State) : (stageE1 s).bank1 = s.bank1 := by rw [stageE1_frame]
@[simp] theorem stageE1_psw (s : State) : (stageE1 s).psw = s.psw := by rw [stageE1_frame]
@[simp] theorem stageE1_dec (s : State) : (stageE1 s).dec = s.dec := by rw [stageE1_frame]
@[simp] theorem stageE1_cex (s : State) : (stageE1 s).cex = s.cex := by rw [stageE1_frame]
@[simp] theorem stageE1_ctl (s : State) : (stageE1 s).ctl = s.ctl := by rw [stageE1_frame]

/-- E0 clears its bubble flag and keeps the frame of an instruction (40_pipeline_step.md R138). -/
theorem stageE0_frame {s t : State} (h : stageE0 s = .next t) : ExecFrame { s with executeBubble := false } t := by
  obtain ⟨u, hu, hcase⟩ := stageE0_next s
  cases hu.symm.trans h
  rcases hcase with ⟨_, rfl⟩ | ⟨hb, hexec⟩
  · exact .of_eq rfl
  · have hs : { s with executeBubble := false } = s := by rw [← hb]
    rw [hs]
    exact exec_frame hexec

theorem stageE0_reservedBits {s t : State} (hi : WellFormed s.dec) (h : stageE0 s = .next t) :
    reservedBits t.psw = reservedBits s.psw := by
  obtain ⟨u, hu, hcase⟩ := stageE0_next s
  cases hu.symm.trans h
  rcases hcase with ⟨_, rfl⟩ | ⟨_, hexec⟩
  · rfl
  · exact exec_reservedBits hi hexec

/-- What the stages of an odd half-cycle leave unchanged (40_pipeline_step.md R135). -/
theorem oddStages_kept {s t : State} (h : stageE0 (stageE1 (afterF1 s)) = .next t) :
    t.imem = s.imem ∧ t.dmem = s.dmem ∧ t.bank1 = s.bank1 ∧ t.cex = s.cex ∧ t.dec = s.dec ∧ t.ctl = s.ctl ∧
    t.executeBubble = false := by
  have hf := stageE0_frame h
  refine ⟨hf.imem.trans ?_, hf.dmem.trans ?_, hf.bank1.trans ?_, hf.cex.trans ?_, hf.dec.trans ?_, hf.ctl.trans ?_,
    hf.executeBubble⟩ <;> simp [afterF1]

theorem oddStages_reservedBits {s t : State} (hi : WellFormed s.dec) (h : stageE0 (stageE1 (afterF1 s)) = .next t) :
    reservedBits t.psw = reservedBits s.psw := by
  have hdec : WellFormed (stageE1 (afterF1 s)).dec := by rwa [stageE1_dec]
  rw [stageE0_reservedBits hdec h, stageE1_psw]
  rfl

/-! The end of a half-cycle. -/

@[simp] theorem endChecks_psw (odd : Bool) (s : State) : (endChecks odd s).psw = s.psw := by rw [endChecks_frame]

/-- Only a stop request halts at the end of a half-cycle (40_pipeline_step.md R147). -/
theorem endChecks_stopReq {s : State} (odd : Bool) (h : s.ctl.stopReq = true) : endChecks odd s = s.halt := by
  simp [endChecks, h]

theorem endChecks_no_stopReq {s : State} (odd : Bool) (h : s.ctl.stopReq = false) :
    endChecks odd s = s ∨ endChecks odd s = s.suspend := by
  unfold endChecks
  dsimp only
  rw [if_neg (Bool.eq_false_iff.mp h)]
  split_ifs
  · exact .inr rfl
  · exact .inr rfl
  · exact .inr rfl
  · exact .inr rfl
  · exact .inl rfl

theorem oddClock_tickClock (s : State) : oddClock (tickClock s) = !oddClock s := by
  cases h : oddClock s
  · rw [oddClock_false_iff] at h
    simp only [Bool.not_false, oddClock_iff, tickClock_ctl]
    omega
  · rw [oddClock_iff] at h
    simp only [Bool.not_true, oddClock_false_iff, tickClock_ctl]
    omega

/-! A tick. -/

/-- What a tick can be: nothing outside Running, an even or an odd half-cycle (40_pipeline_step.md R131, R132). -/
theorem tick_cases {s t : State} (h : tick .truncate s = .next t) :
    (s.ctl.fsm ≠ .running ∧ t = s) ∨
    (s.ctl.fsm = .running ∧ oddClock s = false ∧ t = endChecks false (tickClock (stageD0 (stageF0 (afterM s))))) ∨
    (s.ctl.fsm = .running ∧ oddClock s = true ∧
      ∃ v, stageE0 (stageE1 (afterF1 s)) = .next v ∧ t = endChecks true (tickClock v)) := by
  unfold tick at h
  split at h
  case h_1 hrun =>
    refine .inr ?_
    cases ho : oddClock s with
    | false =>
      rw [halfCycle_even s ho] at h
      cases h
      exact .inl ⟨hrun, rfl, rfl⟩
    | true =>
      obtain ⟨v, hv, _⟩ := stageE0_next (stageE1 (afterF1 s))
      rw [halfCycle_odd s v ho hv] at h
      cases h
      exact .inr ⟨hrun, rfl, v, hv, rfl⟩
  all_goals
    next hfsm =>
      cases h
      exact .inl ⟨by simp [hfsm], rfl⟩

/-- With no event but a tick at its head, a step is a tick on the state without that event. -/
theorem step_eq_tick {s : State} (h : s.inputs = [] ∨ s.inputs.head? = some .tick) :
    step s = tick .truncate { s with inputs := s.inputs.tail } := by
  cases hi : s.inputs with
  | nil => rw [step_tick s hi, List.tail_nil, ← hi]
  | cons e rest =>
    have he : e = .tick := by simpa [hi] using h
    rw [step_input s e rest hi, he]
    rfl

end Sys2Proof.Machine
end

section
/-! SUPPORT. A byte read, and a word and a byte write, by the bytes of the bank (20_memory.md R63, R67, R68). -/

namespace Sys2Proof.Machine

theorem Memory.readAt_byte (m : Memory) (a : Word) : Memory.readAt m .byte a = 0#8 ++ Memory.read m a.toNat :=
  BitVec.setWidth_eq_append (by decide)

/-- The two bytes a word write stores, and every other byte as it was (20_memory.md R63, R68). -/
theorem Memory.writeWord_bytes {m : Memory} (hm : Memory.wf m = true) (a v : Word) :
    Memory.read (Memory.writeWord m a v) (alignedAddr a).toNat = v.extractLsb' 0 8 ∧
    Memory.read (Memory.writeWord m a v) ((alignedAddr a).toNat + 1) = v.extractLsb' 8 8 ∧
    ∀ n, n ≠ (alignedAddr a).toNat → n ≠ (alignedAddr a).toNat + 1 →
      Memory.read (Memory.writeWord m a v) n = Memory.read m n := by
  refine ⟨?_, ?_, fun n hlow hhigh => ?_⟩ <;> rw [Memory.read_writeWord m a v _ hm]
  · rw [if_neg (Nat.ne_of_lt (Nat.lt_succ_self _)), if_pos rfl]
  · rw [if_pos rfl]
  · rw [if_neg hhigh, if_neg hlow]

/-- The byte a byte write stores, and every other byte as it was (20_memory.md R68). -/
theorem Memory.writeByte_bytes {m : Memory} (hm : Memory.wf m = true) (a v : Word) :
    Memory.read (Memory.writeByte m a v) a.toNat = v.extractLsb' 0 8 ∧
    ∀ n, n ≠ a.toNat → Memory.read (Memory.writeByte m a v) n = Memory.read m n :=
  ⟨Memory.read_write_same m a.toNat _ hm, fun n hn => Memory.read_write_other m a.toNat n _ hm hn⟩

end Sys2Proof.Machine
end

section
/-! SUPPORT. The sound-state invariant is kept by each operation of the controller and the host, by each half-cycle and
by `rst`; the statements about the invariant and the state after reset. -/

namespace Sys2Proof.Machine

variable {s : State}

/-! The controller and the host. -/

theorem Sound.controller (hs : Sound s) : controllerSound s.ctl := by
  obtain ⟨-, -, -, -, -, -, -, hctl⟩ := hs
  exact hctl

/-- A controller with the same clock and its own invariant may stand in for the controller of a sound state. -/
theorem Sound.with_ctl (hs : Sound s) {c : Controller} (hclock : c.clock = s.ctl.clock) (hc : controllerSound c) :
    Sound { s with ctl := c } := by
  obtain ⟨himem, hdmem, hbank1, hpsw, hdctrl, hcex, ⟨hnop, hdecode, hexecute, hdec⟩, _⟩ := hs
  have hodd : oddClock { s with ctl := c } = oddClock s := by simp only [oddClock, hclock]
  rw [← hodd] at hdctrl hdecode hexecute
  exact ⟨himem, hdmem, hbank1, hpsw, hdctrl, hcex, ⟨hnop, hdecode, hexecute, hdec⟩, hc⟩

theorem sound_suspend (hs : Sound s) (hrun : s.ctl.fsm = .running) : Sound s.suspend := by
  obtain ⟨-, hstarted, -⟩ := hs.controller
  exact hs.with_ctl rfl (by simp [controllerSound, hstarted hrun])

theorem sound_halt (hs : Sound s) (hstop : s.ctl.stopReq = true) : Sound s.halt :=
  hs.with_ctl rfl (by simp [controllerSound, hstop])

theorem sound_requestStop (hs : Sound s) : Sound s.requestStop := by
  obtain ⟨hidle, hrunning, hsuspended, honce, -⟩ := hs.controller
  exact hs.with_ctl rfl ⟨hidle, hrunning, hsuspended, honce, fun _ => rfl⟩

theorem sound_start (hs : Sound s) (once : Bool) : Sound (s.start once) := by
  have hset : Sound (s.setX .r7 s.ctl.startAddress) := hs
  exact hset.with_ctl rfl (by simp [controllerSound])

theorem sound_resume (hs : Sound s) (hsus : s.ctl.fsm = .suspended) (once : Bool) : Sound (s.resume once) := by
  obtain ⟨-, -, hsuspended, -⟩ := hs.controller
  exact hs.with_ctl rfl (by simp [controllerSound, (hsuspended hsus).1])

theorem sound_clearPsw (hs : Sound s) : Sound (s.setPsw 0) := by
  obtain ⟨himem, hdmem, hbank1, -, hrest⟩ := hs
  exact ⟨himem, hdmem, hbank1, BitVec.zero_and, hrest⟩

theorem sound_hostWrite (hs : Sound s) (bank : MemBank) (wb : Width) (a v : Word) :
    Sound (s.hostWrite bank wb a v) := by
  obtain ⟨himem, hdmem, hrest⟩ := hs
  obtain ⟨himem', hdmem'⟩ := State.hostWrite_wf s bank wb a v himem hdmem
  cases bank <;> exact ⟨himem', hdmem', hrest⟩

theorem sound_acceptCommand (hs : Sound s) {enter : Bool → State} (henter : ∀ once, Sound (enter once)) (c : Command) :
    Sound (acceptCommand enter s c) := by
  cases c with
  | run => exact henter false
  | step => exact henter true
  | stop => exact sound_halt (sound_requestStop hs) rfl
  | writeMemory bank wb a v => exact sound_hostWrite hs bank wb a v
  | clearPsw => exact sound_clearPsw hs
  | setStartAddress | setBreakpoint | toggleSingleStep | toggleStopOnClock | readRegister | writeRegister | readMemory
  | raiseInterrupt => exact hs

theorem sound_runningCommand (hs : Sound s) (c : Command) : Sound (runningCommand s c) := by
  cases c with
  | stop => exact sound_requestStop hs
  | _ => exact hs

theorem sound_haltedCommand (hs : Sound s) (c : Command) : Sound (haltedCommand s c) := by
  cases c with
  | stop => exact sound_requestStop hs
  | _ => exact hs

/-- A host command keeps the invariant in every state of the controller. -/
theorem sound_hostCommand (hs : Sound s) (c : Command) : Sound (hostCommand c s) := by
  have hs' : Sound (s.answer .none) := hs
  cases hfsm : s.ctl.fsm with
  | idle =>
    rw [hostCommand_idle c s hfsm]
    exact sound_acceptCommand hs' (sound_start hs') c
  | running =>
    rw [hostCommand_running c s hfsm]
    exact sound_runningCommand hs' c
  | suspended =>
    rw [hostCommand_suspended c s hfsm]
    exact sound_acceptCommand hs' (sound_resume hs' hfsm) c
  | halted =>
    rw [hostCommand_halted c s hfsm]
    exact sound_haltedCommand hs' c

/-! Reset. -/

theorem cexSound_closed : cexSound CexState.closed := ⟨iff_of_true rfl ⟨rfl, rfl⟩, by decide, by decide⟩

theorem controllerSound_reset : controllerSound Controller.reset := by simp [controllerSound, Controller.reset]

theorem sound_resetBlock (himem : Memory.wf s.imem = true) (hdmem : Memory.wf s.dmem = true) : Sound s.resetBlock :=
  ⟨himem, hdmem, rfl, BitVec.zero_and, nofun, cexSound_closed, ⟨nofun, nofun, fun _ => rfl, rfl⟩,
    controllerSound_reset⟩

/-! The half-cycle. -/

theorem controllerSound_tickClock {c : Controller} (hc : controllerSound c) (hrun : c.fsm = .running) :
    controllerSound { c with clock := c.clock + 1 } := by
  obtain ⟨-, hrunning, -, -, -⟩ := hc
  simp [controllerSound, hrun, hrunning hrun]

/-- M, F0, D0 and the clock keep the invariant: M clears a write request before the odd half-cycle, D0 clears
`decodeBubble` and sets `executeBubble` only with NOP (40_pipeline_step.md R141, R143). -/
theorem sound_evenStages (hs : Sound s) (hrun : s.ctl.fsm = .running) (heven : oddClock s = false) :
    Sound (tickClock (stageD0 (stageF0 (afterM s)))) := by
  obtain ⟨himem, hdmem, hbank1, hpsw, -, hcex, ⟨-, -, hexecute, -⟩, hctl⟩ := hs
  have hodd : oddClock (tickClock (stageD0 (stageF0 (afterM s)))) = true := by
    rw [oddClock_tickClock, oddClock, stageD0_ctl, stageF0_ctl, afterM_ctl, ← oddClock, heven, Bool.not_false]
  have hbubble : (stageF0 (afterM s)).executeBubble = false := by simp [hexecute heven]
  refine ⟨by simpa using himem, by simpa using afterM_wf s hdmem, by simpa using hbank1, by simpa using hpsw, ?_, ?_,
    ⟨?_, ?_, ?_, ?_⟩, ?_⟩
  · exact fun _ => by simpa using afterM_no_write s
  · exact stageD0_cexSound (by simpa using hcex)
  · exact stageD0_bubble_nop hbubble
  · exact fun _ => stageD0_decodeBubble _
  · exact fun h => absurd (hodd.symm.trans h) Bool.noConfusion
  · exact stageD0_wellFormed _
  · simpa using controllerSound_tickClock hctl hrun

/-- F1, E1, E0 and the clock keep the invariant: E0 clears `executeBubble` and writes no reserved bit of the PSW
(40_pipeline_step.md R138; 10_state.md R33). -/
theorem sound_oddStages {t : State} (hs : Sound s) (hrun : s.ctl.fsm = .running) (hodd : oddClock s = true)
    (h : stageE0 (stageE1 (afterF1 s)) = .next t) : Sound (tickClock t) := by
  obtain ⟨himem, hdmem, hbank1, hpsw, -, hcex, ⟨-, -, -, hdec⟩, hctl⟩ := hs
  obtain ⟨eimem, edmem, ebank1, ecex, edec, ectl, hbubble⟩ := oddStages_kept h
  have heven : oddClock (tickClock t) = false := by
    rw [oddClock_tickClock, oddClock, ectl, ← oddClock, hodd, Bool.not_true]
  refine ⟨?_, ?_, ?_, ?_, ?_, ?_, ⟨?_, ?_, ?_, ?_⟩, ?_⟩
  · exact eimem ▸ himem
  · exact edmem ▸ hdmem
  · exact ebank1.trans hbank1
  · exact (oddStages_reservedBits hdec h).trans hpsw
  · exact fun h1 => absurd (heven.symm.trans h1) Bool.noConfusion
  · exact ecex ▸ hcex
  · exact fun h1 => absurd (hbubble.symm.trans h1) Bool.noConfusion
  · exact fun h1 => absurd (heven.symm.trans h1) Bool.noConfusion
  · exact fun _ => hbubble
  · exact edec ▸ hdec
  · rw [tickClock_ctl, ectl]
    exact controllerSound_tickClock hctl hrun

theorem sound_endChecks (hs : Sound s) (hrun : s.ctl.fsm = .running) (odd : Bool) : Sound (endChecks odd s) := by
  cases hstop : s.ctl.stopReq with
  | true =>
    rw [endChecks_stopReq odd hstop]
    exact sound_halt hs hstop
  | false =>
    rcases endChecks_no_stopReq odd hstop with h | h <;> rw [h]
    · exact hs
    · exact sound_suspend hs hrun

/-- Settles O46: each thing a step can be keeps the invariant. -/
theorem stepKeepsSound : Obligations.StepKeepsSound := by
  intro s t hs hstep
  obtain ⟨u, rfl, hcase⟩ := step_cases hstep
  have hu : Sound { s with inputs := s.inputs.tail } := hs
  rcases hcase with ⟨_, rfl⟩ | ⟨hrun, heven, rfl⟩ | ⟨hrun, hodd, v, hv, rfl⟩ | rfl | rfl | ⟨c, rfl⟩
  · exact hu
  · exact sound_endChecks (sound_evenStages hu hrun heven) (by simpa using hrun) false
  · obtain ⟨-, -, -, -, -, hctl, -⟩ := oddStages_kept hv
    exact sound_endChecks (sound_oddStages hu hrun hodd hv) (by simpa [hctl] using hrun) true
  · obtain ⟨himem, hdmem, -⟩ := hs
    exact sound_resetBlock himem hdmem
  · exact hu
  · exact sound_hostCommand hu c

/-- Settles O47: reset is `rst` with both banks empty. -/
theorem resetIsSound : Obligations.ResetIsSound := by
  obtain ⟨himem, hdmem⟩ := reset_memory_wf
  have hreset : Sound State.reset.resetBlock := sound_resetBlock himem hdmem
  exact hreset

/-- Settles O48, field by field of the table. -/
theorem resetValues : Obligations.ResetValues := by
  have hregisters : ∀ r, State.reset.x r = 0 := fun r => by cases r <;> rfl
  exact ⟨hregisters, rfl, rfl, rfl, rfl, rfl, rfl, rfl, rfl, rfl, rfl, rfl, rfl, rfl, rfl⟩

/-! The bits of the PSW that no half-cycle writes. -/

theorem tick_reservedBits {t : State} (h : tick .truncate s = .next t) (hdec : WellFormed s.dec) :
    reservedBits t.psw = reservedBits s.psw := by
  rcases tick_cases h with ⟨_, rfl⟩ | ⟨_, _, rfl⟩ | ⟨_, _, v, hv, rfl⟩
  · rfl
  · simp
  · rw [endChecks_psw, tickClock_psw, oddStages_reservedBits hdec hv]

/-- Settles O51: the four fields are fixed by the reserved bits, which a tick keeps. -/
theorem priorityAndFaultBitsNeverChange : Obligations.PriorityAndFaultBitsNeverChange := by
  intro s t hinputs hdec hstep
  rw [step_eq_tick hinputs] at hstep
  have h := tick_reservedBits hstep hdec
  have hflt : pswFlt t.psw = pswFlt s.psw := reservedBits_eq_iff.mp h 8 (by decide)
  exact ⟨extractLsb'_eq_of_reservedBits h (by decide) 3, hflt, extractLsb'_eq_of_reservedBits h (by decide) 3,
    extractLsb'_eq_of_reservedBits h (by decide) 4⟩

end Sys2Proof.Machine
end

section
/-! SUPPORT. What each host command does in each state of the controller, read off one equation per state; the
statements about the host (10_state.md R52, R53; 40_pipeline_step.md R133, R148, R149). -/

namespace Sys2Proof.Machine

variable {s : State} {rest : List Input} {c : Command}

/-- A step that takes a command carries it out on the state without that event. -/
theorem step_command (h : s.inputs = .cmd c :: rest) : step s = .next (hostCommand c { s with inputs := rest }) :=
  step_input s (.cmd c) rest h

theorem step_command_running (hfsm : s.ctl.fsm = .running) (h : s.inputs = .cmd c :: rest) :
    step s = .next (runningCommand { s with reply := .none, inputs := rest } c) := by
  rw [step_command h]
  exact congrArg _ (hostCommand_running c _ hfsm)

theorem step_command_suspended (hfsm : s.ctl.fsm = .suspended) (h : s.inputs = .cmd c :: rest) :
    step s = .next (acceptCommand (State.resume { s with reply := .none, inputs := rest })
      { s with reply := .none, inputs := rest } c) := by
  rw [step_command h]
  exact congrArg _ (hostCommand_suspended c _ hfsm)

theorem step_command_halted (hfsm : s.ctl.fsm = .halted) (h : s.inputs = .cmd c :: rest) :
    step s = .next (haltedCommand { s with reply := .none, inputs := rest } c) := by
  rw [step_command h]
  exact congrArg _ (hostCommand_halted c _ hfsm)

/-- In Idle and Suspended every command is accepted; the two differ only in what `run()` and `step()` do. -/
theorem step_command_accepted (hfsm : s.ctl.fsm = .idle ∨ s.ctl.fsm = .suspended) (h : s.inputs = .cmd c :: rest) :
    ∃ enter, step s = .next (acceptCommand enter { s with reply := .none, inputs := rest } c) := by
  rcases hfsm with hidle | hsus
  · rw [step_command h]
    exact ⟨_, congrArg _ (hostCommand_idle c _ hidle)⟩
  · exact ⟨_, step_command_suspended hsus h⟩

/-- Settles O57: of the thirteen commands only the two excluded ones are not rejected. -/
theorem commandsRejectedWhileRunning : Obligations.CommandsRejectedWhileRunning := by
  intro s c rest hfsm h hraise hstop
  rw [step_command_running hfsm h]
  cases c with
  | raiseInterrupt => exact absurd rfl hraise
  | stop => exact absurd rfl hstop
  | setStartAddress | run | step | setBreakpoint | toggleSingleStep | toggleStopOnClock | readRegister | writeRegister
  | readMemory | writeMemory | clearPsw => rfl

/-- Settles O58: each event but `rst`, and each command by what Halted does with it. -/
theorem haltedIsLeftOnlyByReset : Obligations.HaltedIsLeftOnlyByReset := by
  intro s hfsm hrst
  cases hin : s.inputs with
  | nil =>
    have hframe : { s with inputs := [] } = s := by rw [← hin]
    exact ⟨s, by rw [step_tick s hin, tick, hfsm], hfsm, hframe.symm, nofun, nofun⟩
  | cons e rest =>
    cases e with
    | tick =>
      have hstep : step s = .next { s with inputs := rest } := by
        rw [step_input s .tick rest hin, inputEvent, tick, hfsm]
      exact ⟨_, hstep, hfsm, rfl, nofun, nofun⟩
    | rst => exact absurd (congrArg List.head? hin) hrst
    | irq => exact ⟨_, step_input s .irq rest hin, hfsm, rfl, nofun, nofun⟩
    | cmd c =>
      refine ⟨_, step_command_halted hfsm hin, ?_⟩
      cases c with
      | readRegister r =>
        exact ⟨hfsm, rfl, by rintro _ ⟨⟩; rfl, nofun⟩
      | readMemory bank wb a =>
        exact ⟨hfsm, rfl, nofun, by rintro _ _ _ ⟨⟩; cases bank <;> rfl⟩
      | setStartAddress | run | step | setBreakpoint | toggleSingleStep | toggleStopOnClock | writeRegister
      | writeMemory | clearPsw | raiseInterrupt | stop => exact ⟨hfsm, rfl, nofun, nofun⟩

/-- Settles O59: each accepted command by its arm of the command table. -/
theorem hostWritesTakeEffect : Obligations.HostWritesTakeEffect := by
  intro s rest c h
  refine ⟨fun hfsm => ?_, fun hfsm hc => ?_, fun hfsm => ?_⟩
  · obtain ⟨enter, hstep⟩ := step_command_accepted hfsm h
    rw [hstep]
    refine ⟨?_, ?_, ?_, ?_, ?_, ?_, ?_, ?_, ?_, ?_, ?_⟩
    · rintro a rfl
      rfl
    · rintro a rfl
      rfl
    · rintro rfl
      rfl
    · rintro rfl
      rfl
    · rintro r rfl
      rfl
    · rintro r v rfl
      exact ⟨_, rfl, ⟨State.x_setX_same .., fun q hq => State.x_setX_other _ r q v hq⟩, rfl⟩
    · rintro bank a rfl
      cases bank <;> rfl
    · rintro bank a rfl
      rw [acceptCommand, State.hostRead, Memory.readAt_byte]
      cases bank <;> rfl
    · rintro rfl
      rfl
    · rintro rfl
      rfl
    · rintro rfl
      rfl
  · rw [step_command_suspended hfsm h]
    rcases hc with rfl | rfl <;> rfl
  · rw [step_command_running hfsm h]
    constructor <;> rintro rfl <;> rfl

/-- Settles O60: the bank named holds the written bytes by the laws of a word and of a byte write. -/
theorem hostMemoryWrites : Obligations.HostMemoryWrites := by
  intro s rest bank wb a v hfsm h hwf
  obtain ⟨enter, hstep⟩ := step_command_accepted hfsm h
  obtain ⟨hbank, hother, hframe⟩ := State.hostWrite_spec { s with reply := .none, inputs := rest } bank wb a v
  have hkept : ∀ b, State.bankOf { s with reply := .none, inputs := rest } b = s.bankOf b := fun b => by
    cases b <;> rfl
  rw [hkept] at hbank
  refine ⟨_, hstep, ?_, fun other ho => (hother other ho).trans (hkept other), hframe⟩
  rw [acceptCommand, hbank]
  cases wb with
  | word => exact Memory.writeWord_bytes hwf a v
  | byte => exact Memory.writeByte_bytes hwf a v

end Sys2Proof.Machine
end

section
/-! SUPPORT. Words by their bytes and banks by their words: the address of a byte within its word, a byte read back
after a word write and a word after a byte write (20_memory.md R63, R65, R67, R68). -/

namespace Sys2Proof.Machine

/-! The two bytes of a word. -/

theorem extractLsb'_low_append (high low : Byte) : (high ++ low).extractLsb' 0 8 = low := by
  rw [BitVec.extractLsb'_append_eq_of_add_le (Nat.le_refl 8), BitVec.extractLsb'_eq_self]

theorem extractLsb'_high_append (high low : Byte) : (high ++ low).extractLsb' 8 8 = high :=
  BitVec.extractLsb'_append_of_eq (k := 1) (w := 8) rfl

/-- The mask of the low byte is the zero-extension of that byte. -/
theorem and_lowByte_eq (v : Word) : v &&& 0x00FF#16 = 0#8 ++ v.extractLsb' 0 8 := by
  have hmask : ∀ k, k < 16 → (0x00FF#16).getLsbD k = decide (k < 8) := by decide
  apply BitVec.eq_of_getLsbD_eq
  intro k hk
  rw [BitVec.getLsbD_and, hmask k hk, BitVec.getLsbD_append]
  by_cases hlow : k < 8 <;> simp [hlow]

/-! The address of a byte within its word. -/

theorem getLsbD_zero_eq_decide (a : Word) : a.getLsbD 0 = decide (a.toNat % 2 = 1) := Nat.testBit_zero a.toNat

theorem toNat_of_even {a : Word} (h : a.getLsbD 0 = false) : a.toNat = (alignedAddr a).toNat := by
  rw [getLsbD_zero_eq_decide, decide_eq_false_iff_not] at h
  rw [alignedAddr_toNat]
  omega

theorem toNat_of_odd {a : Word} (h : a.getLsbD 0 = true) : a.toNat = (alignedAddr a).toNat + 1 := by
  rw [getLsbD_zero_eq_decide, decide_eq_true_eq] at h
  rw [alignedAddr_toNat]
  omega

/-! The laws of the banks. -/

theorem Memory.writeWord_aligned (m : Memory) (a v : Word) :
    Memory.writeWord m (alignedAddr a) v = Memory.writeWord m a v := by
  simp [Memory.writeWord]

/-- A byte write stores the low byte only, so truncating a store's data first changes nothing (46_load_store.md R295). -/
theorem Memory.writeByte_truncated (m : Memory) (a v : Word) :
    Memory.writeByte m a ((v.extractLsb' 0 8).setWidth 16) = Memory.writeByte m a v := by
  have hlow : ((v.extractLsb' 0 8).setWidth 16).extractLsb' 0 8 = v.extractLsb' 0 8 := by
    rw [BitVec.extractLsb'_setWidth_of_le (by decide), BitVec.extractLsb'_eq_self]
  rw [Memory.writeByte, hlow, Memory.writeByte]

/-- The byte at an address after the write of the word around it. -/
theorem Memory.read_writeWord_at {m : Memory} (hm : Memory.wf m = true) (a v : Word) :
    Memory.read (Memory.writeWord m a v) a.toNat =
      if a.getLsbD 0 then v.extractLsb' 8 8 else v.extractLsb' 0 8 := by
  obtain ⟨hlow, hhigh, -⟩ := Memory.writeWord_bytes hm a v
  cases h : a.getLsbD 0 with
  | false => rw [toNat_of_even h, hlow, if_neg Bool.false_ne_true]
  | true => rw [toNat_of_odd h, hhigh, if_pos rfl]

/-- The word around an address after the write of the byte there: the new byte in place, the other as it was. -/
theorem Memory.readWord_writeByte {m : Memory} (hm : Memory.wf m = true) (a v : Word) :
    Memory.readWord (Memory.writeByte m a v) a =
      if a.getLsbD 0 then v.extractLsb' 0 8 ++ Memory.read m (alignedAddr a).toNat
      else Memory.read m ((alignedAddr a).toNat + 1) ++ v.extractLsb' 0 8 := by
  obtain ⟨hsame, hother⟩ := Memory.writeByte_bytes hm a v
  rw [Memory.readWord]
  cases h : a.getLsbD 0 with
  | false =>
    rw [toNat_of_even h] at hsame hother
    rw [hsame, hother _ (Nat.succ_ne_self _), if_neg Bool.false_ne_true]
  | true =>
    rw [toNat_of_odd h] at hsame hother
    rw [hsame, hother _ (Nat.succ_ne_self _).symm, if_pos rfl]

/-- The low bits of what is read at a width: the whole word, or the byte without its extension. -/
theorem lowBits_byte_readAt (m : Memory) (a : Word) :
    lowBits .byte (Memory.readAt m .byte a) = Memory.read m a.toNat := by
  rw [lowBits_byte, Memory.readAt_byte, extractLsb'_low_append]

end Sys2Proof.Machine
end

section
/-! SUPPORT. A pending request through M and E1, once for both widths (40_pipeline_step.md R140, R141); the statements
about pending requests. -/

namespace Sys2Proof.Machine

variable {s : State} {wb : Width}

/-- The tag of a read request of this width (46_load_store.md R294). -/
def readTag : Width → Dctrl
  | .word => .rdW
  | .byte => .rdB

/-- The tag of a write request of this width (46_load_store.md R295). -/
def writeTag : Width → Dctrl
  | .word => .wrW
  | .byte => .wrB

theorem State.postRead_dctrl_eq (s : State) (wb : Width) (ea : Word) (r : Reg) :
    (s.postRead wb ea r).dctrl = readTag wb := by
  cases wb <;> rfl

theorem State.postWrite_dctrl_eq (s : State) (wb : Width) (ea v : Word) :
    (s.postWrite wb ea v).dctrl = writeTag wb := by
  cases wb <;> rfl

theorem stageM_read (h : s.dctrl = readTag wb) :
    stageM .truncate s = .next { s with dmbr := Memory.readAt s.dmem wb s.dmar } := by
  rw [stageM_truncate]
  cases wb with
  | word => rw [afterM_rdW s h]; rfl
  | byte => rw [afterM_rdB s h]; rfl

theorem stageM_write (h : s.dctrl = writeTag wb) :
    stageM .truncate s = .next { s with dmem := Memory.writeAt s.dmem wb s.dmar s.dmbr, dctrl := .none } := by
  rw [stageM_truncate]
  cases wb with
  | word => rw [afterM_wrW s h]; rfl
  | byte => rw [afterM_wrB s h]; rfl

theorem stageE1_read (h : s.dctrl = readTag wb) :
    stageE1 s =
      { s with bank0 := s.bank0.set s.lsd (mergeBits wb (s.x s.lsd) (lowBits wb s.dmbr)), dctrl := .none } := by
  cases wb with
  | word => rw [stageE1_rdW s h, mergeBits_word, lowBits_word]
  | byte => rw [stageE1_rdB s h, mergeBits_byte, lowBits_byte]

theorem onlyRegister_of_set {t : State} {r : Reg} {v : Word} (h : t.bank0 = s.bank0.set r v) :
    onlyRegister s t r v := by
  simp only [onlyRegister, State.x_eq, h]
  exact ⟨Bank.get_set_same .., fun q hq => Bank.get_set_other _ r q v hq⟩

/-- E1 of a read of either width writes the destination and clears the tag. -/
theorem stageE1_read_onlyRegister (h : s.dctrl = readTag wb) :
    onlyRegister s (stageE1 s) s.lsd (mergeBits wb (s.x s.lsd) (lowBits wb s.dmbr)) ∧
    stageE1 s = { s with bank0 := (stageE1 s).bank0, dctrl := .none } := by
  rw [stageE1_read h]
  exact ⟨onlyRegister_of_set rfl, rfl⟩

/-- M and E1 of a read of either width. -/
theorem pendingRead_served (h : s.dctrl = readTag wb) :
    ∃ t, stageM .truncate s = .next t ∧ t = { s with dmbr := Memory.readAt s.dmem wb s.dmar } ∧
      onlyRegister t (stageE1 t) s.lsd (mergeBits wb (s.x s.lsd) (lowBits wb (Memory.readAt s.dmem wb s.dmar))) ∧
      stageE1 t = { t with bank0 := (stageE1 t).bank0, dctrl := .none } :=
  ⟨_, stageM_read h, rfl, stageE1_read_onlyRegister h⟩

/-- Settles O31: the word as it is, the byte merged into the destination. -/
theorem pendingReadReachesRegister : Obligations.PendingReadReachesRegister := by
  intro s
  constructor
  · intro h
    obtain ⟨t, hM, rfl, hE1, hframe⟩ := pendingRead_served (wb := .word) h
    rw [mergeBits_word, lowBits_word] at hE1
    exact ⟨_, hM, rfl, hE1, hframe⟩
  · intro h
    obtain ⟨t, hM, rfl, hE1, hframe⟩ := pendingRead_served (wb := .byte) h
    rw [mergeBits_byte, lowBits_byte_readAt] at hE1
    rw [Memory.readAt_byte] at hM hE1 hframe
    exact ⟨_, hM, rfl, hE1, hframe⟩

/-- Settles O33: what M stores is a word or a byte write of the bank. -/
theorem pendingWriteReachesMemory : Obligations.PendingWriteReachesMemory := by
  intro s hwf
  constructor
  · intro h
    obtain ⟨hlow, hhigh, hother⟩ := Memory.writeWord_bytes hwf s.dmar s.dmbr
    exact ⟨_, stageM_write (wb := .word) h, hlow, hhigh, hother, rfl⟩
  · intro h
    obtain ⟨hbyte, hother⟩ := Memory.writeByte_bytes hwf s.dmar s.dmbr
    exact ⟨_, stageM_write (wb := .byte) h, hbyte, hother, rfl⟩

end Sys2Proof.Machine
end

section
/-! SUPPORT. A load and a store from E0 to the end: the request E0 posts, whatever the addressing form, then M and E1
(46_load_store.md R291 to R300); the statements about whole loads and stores. -/

namespace Sys2Proof.Machine

variable {s : State} {i : Instr} {wb : Width} {ra r : Reg} {ea : Word}

/-! The addressing forms. -/

/-- LD or LDR of width `wb` into `dst` with address register `ra`, and its effective address
(46_load_store.md R291 to R293). -/
def isLoadFrom (i : Instr) (wb : Width) (ra dst : Reg) (s : State) (ea : Word) : Prop :=
  (∃ prpo dec inc, i = .ld prpo dec inc wb ra dst ∧ ea = indexedAddress prpo dec inc wb (s.x ra)) ∨
  (∃ off, i = .ldr off wb ra dst ∧ ea = s.relativeAddress ra off)

/-- ST or STR of width `wb` from `src` with address register `ra`, and its effective address
(46_load_store.md R291 to R293). -/
def isStoreTo (i : Instr) (wb : Width) (src ra : Reg) (s : State) (ea : Word) : Prop :=
  (∃ prpo dec inc, i = .st prpo dec inc wb src ra ∧ ea = indexedAddress prpo dec inc wb (s.x ra)) ∨
  (∃ off, i = .str off wb src ra ∧ ea = s.relativeAddress ra off)

theorem isLoad_iff : isLoad i wb r s ea ↔ ∃ ra, isLoadFrom i wb ra r s ea := by
  constructor
  · rintro (⟨prpo, dec, inc, ra, h⟩ | ⟨off, ra, h⟩)
    · exact ⟨ra, .inl ⟨prpo, dec, inc, h⟩⟩
    · exact ⟨ra, .inr ⟨off, h⟩⟩
  · rintro ⟨ra, ⟨prpo, dec, inc, h⟩ | ⟨off, h⟩⟩
    · exact .inl ⟨prpo, dec, inc, ra, h⟩
    · exact .inr ⟨off, ra, h⟩

theorem isStore_iff : isStore i wb r s ea ↔ ∃ ra, isStoreTo i wb r ra s ea := by
  constructor
  · rintro (⟨prpo, dec, inc, ra, h⟩ | ⟨off, ra, h⟩)
    · exact ⟨ra, .inl ⟨prpo, dec, inc, h⟩⟩
    · exact ⟨ra, .inr ⟨off, h⟩⟩
  · rintro ⟨ra, ⟨prpo, dec, inc, h⟩ | ⟨off, h⟩⟩
    · exact .inl ⟨prpo, dec, inc, ra, h⟩
    · exact .inr ⟨off, ra, h⟩

/-! E0: a request, and at most the address register written. -/

theorem State.setX_x (s : State) (r : Reg) : s.setX r (s.x r) = s :=
  congrArg (fun b => { s with bank0 := b }) (Bank.set_get s.bank0 r)

theorem exec_load (h : isLoadFrom i wb ra r s ea) : ∃ v, exec i s = .next ((s.setX ra v).postRead wb ea r) := by
  rcases h with ⟨prpo, dec, inc, rfl, rfl⟩ | ⟨off, rfl, rfl⟩
  · refine ⟨s.x ra + addressAdjust dec inc wb, ?_⟩
    rw [State.setX, ← adjustAddress_eq]
    rfl
  · refine ⟨s.x ra, ?_⟩
    rw [State.setX_x]
    rfl

theorem exec_store (h : isStoreTo i wb r ra s ea) :
    ∃ v, exec i s = .next ((s.setX ra v).postWrite wb ea (s.x r)) := by
  rcases h with ⟨prpo, dec, inc, rfl, rfl⟩ | ⟨off, rfl, rfl⟩
  · refine ⟨s.x ra + addressAdjust dec inc wb, ?_⟩
    rw [State.setX, ← adjustAddress_eq]
    rfl
  · refine ⟨s.x ra, ?_⟩
    rw [State.setX_x]
    rfl

/-! E0 to the end. -/

/-- What E1 writes to the destination of a load: the value at the effective address, merged at its width. -/
def loadedWord (wb : Width) (old : Word) (m : Memory) (ea : Word) : Word :=
  mergeBits wb old (lowBits wb (Memory.readAt m wb ea))

theorem loadedWord_word (old : Word) (m : Memory) (ea : Word) : loadedWord .word old m ea = Memory.readWord m ea :=
  lowBits_word _

theorem loadedWord_byte (old : Word) (m : Memory) (ea : Word) :
    loadedWord .byte old m ea = old.extractLsb' 8 8 ++ Memory.read m ea.toNat := by
  rw [loadedWord, mergeBits_byte, lowBits_byte_readAt]

/-- A load: E0 writes at most the address register, M no register, E1 the destination; nothing writes the banks or the
PSW. -/
theorem load_served (h : isLoadFrom i wb ra r s ea) :
    ∃ t, andThen (exec i s) (stageM .truncate) = .next t ∧
      onlyRegister t (stageE1 t) r (loadedWord wb (t.x r) s.dmem ea) ∧ (∀ q, q ≠ ra → t.x q = s.x q) ∧
      (stageE1 t).dctrl = .none ∧ (stageE1 t).dmem = s.dmem ∧ (stageE1 t).imem = s.imem ∧ (stageE1 t).psw = s.psw := by
  obtain ⟨v, hE0⟩ := exec_load h
  obtain ⟨t, hM, rfl, hE1, hframe⟩ := pendingRead_served ((s.setX ra v).postRead_dctrl_eq wb ea r)
  refine ⟨_, ?_, hE1, fun q hq => State.x_setX_other s ra q v hq, ?_⟩
  · rw [hE0, andThen_next, hM]
  · rw [hframe]
    exact ⟨rfl, rfl, rfl, rfl⟩

/-- A store: E0 writes at most the address register, M the data bank alone. -/
theorem store_served (h : isStoreTo i wb r ra s ea) :
    ∃ t, andThen (exec i s) (stageM .truncate) = .next t ∧ t.dmem = Memory.writeAt s.dmem wb ea (s.x r) ∧
      t.dctrl = .none ∧ t.imem = s.imem ∧ t.psw = s.psw ∧ ∀ q, q ≠ ra → t.x q = s.x q := by
  obtain ⟨v, hE0⟩ := exec_store h
  have hM := stageM_write ((s.setX ra v).postWrite_dctrl_eq wb ea (s.x r))
  rw [hE0, andThen_next]
  refine ⟨_, hM, ?_, rfl, rfl, rfl, fun q hq => State.x_setX_other s ra q v hq⟩
  cases wb with
  | word => rfl
  | byte => exact Memory.writeByte_truncated s.dmem ea (s.x r)

/-- Settles O32: the destination by `load_served`, the other registers kept by each stage. -/
theorem loadedValueReachesRegister : Obligations.LoadedValueReachesRegister := by
  intro s wb src dst i ea h
  obtain ⟨t, ht, ⟨hdst, hother⟩, hkept, hframe⟩ := load_served h
  refine ⟨t, ht, ?_, fun q hsrc hq => (hother q hq).trans (hkept q hsrc), hframe⟩
  cases wb with
  | word => exact hdst.trans (loadedWord_word ..)
  | byte => exact hdst.trans (loadedWord_byte ..)

/-- Settles O34: the bytes by the law of a word and of a byte write. -/
theorem storedBytesAndNoOthers : Obligations.StoredBytesAndNoOthers := by
  intro s hwf wb src dst i ea h
  obtain ⟨t, ht, hdmem, hframe⟩ := store_served h
  refine ⟨t, ht, ?_⟩
  rw [hdmem]
  cases wb with
  | word =>
    obtain ⟨hlow, hhigh, hother⟩ := Memory.writeWord_bytes hwf ea (s.x src)
    exact ⟨fun a ⟨hne, hne'⟩ => hother a hne hne', ⟨hlow, hhigh⟩, hframe⟩
  | byte =>
    obtain ⟨hbyte, hother⟩ := Memory.writeByte_bytes hwf ea (s.x src)
    exact ⟨hother, hbyte, hframe⟩

/-- Settles O35: the four pairs of widths by the law of the banks for each. -/
theorem loadAfterStoreReturnsTheValue : Obligations.LoadAfterStoreReturnsTheValue := by
  constructor
  · intro s i wst src ea hwf hstore
    obtain ⟨ra, hstore⟩ := isStore_iff.mp hstore
    obtain ⟨t, ht, hdmem, -⟩ := store_served hstore
    refine ⟨t, ht, fun v j wld dst hv hload => ?_⟩
    obtain ⟨rb, hload⟩ := isLoad_iff.mp hload
    obtain ⟨u, hu, ⟨hdst, -⟩, -, hdctrl, hkept, -⟩ := load_served hload
    refine ⟨u, hu, hdctrl, hkept.trans hv, hdst.trans ?_⟩
    rw [hv, hdmem]
    cases wld with
    | word =>
      rw [loadedWord_word]
      cases wst with
      | word => exact Memory.readWord_writeWord s.dmem ea (s.x src) hwf
      | byte => exact Memory.readWord_writeByte hwf ea (s.x src)
    | byte =>
      rw [loadedWord_byte]
      cases wst with
      | word => exact congrArg _ (Memory.read_writeWord_at hwf ea (s.x src))
      | byte => exact congrArg _ (Memory.writeByte_bytes hwf ea (s.x src)).1
  · intro m a v hwf
    refine ⟨Memory.readWord_writeWord m a v hwf, ?_, ?_⟩
    · rw [Memory.readAt_byte]
      exact (congrArg _ (Memory.writeByte_bytes hwf a v).1).trans (and_lowByte_eq v).symm
    · refine (Memory.readWord_writeByte hwf a v).trans ?_
      rw [Memory.readAt, Memory.readWord, extractLsb'_low_append, extractLsb'_high_append]

end Sys2Proof.Machine
end

section
/-! SUPPORT. What a half-cycle leaves of the address and fetch latches, that no step stops, and the two values of
MISALIGNED_WORD compared stage by stage (20_memory.md R64 to R66); the statements about steps. -/

namespace Sys2Proof.Machine

variable {s t : State}

/-! The latches. -/

@[simp] theorem endChecks_imar (odd : Bool) (s : State) : (endChecks odd s).imar = s.imar := by rw [endChecks_frame]
@[simp] theorem endChecks_imbr (odd : Bool) (s : State) : (endChecks odd s).imbr = s.imbr := by rw [endChecks_frame]
@[simp] theorem endChecks_ir (odd : Bool) (s : State) : (endChecks odd s).ir = s.ir := by rw [endChecks_frame]
@[simp] theorem endChecks_dmar (odd : Bool) (s : State) : (endChecks odd s).dmar = s.dmar := by rw [endChecks_frame]
@[simp] theorem endChecks_imem (odd : Bool) (s : State) : (endChecks odd s).imem = s.imem := by rw [endChecks_frame]
@[simp] theorem endChecks_dmem (odd : Bool) (s : State) : (endChecks odd s).dmem = s.dmem := by rw [endChecks_frame]
@[simp] theorem endChecks_clock (odd : Bool) (s : State) : (endChecks odd s).ctl.clock = s.ctl.clock := by
  rw [endChecks_frame]

@[simp] theorem afterM_dmar (s : State) : (afterM s).dmar = s.dmar := by rw [afterM_frame]
@[simp] theorem stageD0_dmar (s : State) : (stageD0 s).dmar = s.dmar := by rw [stageD0_frame]
@[simp] theorem stageE1_imar (s : State) : (stageE1 s).imar = s.imar := by rw [stageE1_frame]
@[simp] theorem stageE1_imbr (s : State) : (stageE1 s).imbr = s.imbr := by rw [stageE1_frame]
@[simp] theorem stageE1_ir (s : State) : (stageE1 s).ir = s.ir := by rw [stageE1_frame]

/-- The stages of an odd half-cycle leave the word at IMAR in IMBR and IR, and IMAR as it was
(40_pipeline_step.md R139). -/
theorem oddStages_fetched (h : stageE0 (stageE1 (afterF1 s)) = .next t) :
    t.ir = Memory.readWord s.imem s.imar ∧ t.imbr = Memory.readWord s.imem s.imar ∧ t.imar = s.imar := by
  have hf := stageE0_frame h
  exact ⟨hf.ir.trans (stageE1_ir _), hf.imbr.trans (stageE1_imbr _), hf.imar.trans (stageE1_imar _)⟩

/-- An odd half-cycle by the state its three stages leave. -/
theorem halfCycle_odd_next (h : oddClock s = true) :
    ∃ t, stageE0 (stageE1 (afterF1 s)) = .next t ∧ halfCycle .truncate s = .next (endChecks true (tickClock t)) := by
  obtain ⟨t, ht, -⟩ := stageE0_next (stageE1 (afterF1 s))
  exact ⟨t, ht, halfCycle_odd s t h ht⟩

/-- Settles O38: neither E1 nor E0 writes what F1 fetched. -/
theorem stepFetchesAtImar : Obligations.StepFetchesAtImar := by
  intro s hin hrun hclock
  obtain ⟨t, ht, hhalf⟩ := halfCycle_odd_next ((oddClock_iff s).mpr hclock)
  obtain ⟨hir, himbr, -⟩ := oddStages_fetched ht
  obtain ⟨himem, hdmem, -, -, -, hctl, -⟩ := oddStages_kept ht
  refine ⟨_, (step_running s hin hrun).trans hhalf, ?_, ?_, ?_, ?_, ?_⟩
  · rw [endChecks_ir, tickClock_ir, hir]
    rfl
  · rw [endChecks_imbr, endChecks_ir, tickClock_imbr, tickClock_ir, himbr, hir]
  · rw [endChecks_imem, tickClock_imem, himem]
  · rw [endChecks_dmem, tickClock_dmem, hdmem]
  · rw [endChecks_clock, tickClock_ctl, hctl]

/-! No step stops. -/

theorem tick_next (s : State) : ∃ t, tick .truncate s = .next t := by
  cases h : s.ctl.fsm with
  | running =>
    rw [tick, h]
    exact halfCycle_next s
  | idle | suspended | halted => exact ⟨s, by rw [tick, h]⟩

/-- Settles O44: a tick answers a state by `halfCycle_next`, every other event at once. -/
theorem noStepStops : Obligations.NoStepStops := by
  intro s
  cases hin : s.inputs with
  | nil =>
    rw [step_tick s hin]
    exact tick_next s
  | cons e rest =>
    rw [step_input s e rest hin]
    cases e with
    | tick => exact tick_next _
    | rst | irq | cmd => exact ⟨_, rfl⟩

/-! MISALIGNED_WORD. -/

theorem wordAccessFaults_odd {a : Word} (h : a.getLsbD 0 = true) : wordAccessFaults .fault a = true := h

theorem wordAccessFaults_even {a : Word} (h : a.getLsbD 0 = false) (p : Config.MisalignedWord) :
    wordAccessFaults p a = false := by
  cases p with
  | truncate => rfl
  | fault => exact h

theorem advance_running (p : Config.MisalignedWord) (hin : s.inputs = []) (hrun : s.ctl.fsm = .running) :
    advance p s = halfCycle p s := by
  simp [advance, hin, tick, hrun]

/-- M stops at an odd word request (20_memory.md R65). -/
theorem halfCycle_fault_data (heven : oddClock s = false) (hreq : s.dctrl = .rdW ∨ s.dctrl = .wrW)
    (hodd : s.dmar.getLsbD 0 = true) : halfCycle .fault s = .fault .misalignedData := by
  have hM : stageM .fault s = .fault .misalignedData := by
    rcases hreq with h | h <;> simp [stageM, h, wordAccessFaults_odd hodd]
  simp [halfCycle, heven, evenStages, hM]

/-- F1 stops at an odd fetch address (20_memory.md R65). -/
theorem halfCycle_fault_fetch (hclock : oddClock s = true) (hodd : s.imar.getLsbD 0 = true) :
    halfCycle .fault s = .fault .misalignedFetch := by
  have hF1 : stageF1 .fault s = .fault .misalignedFetch := by simp [stageF1, wordAccessFaults_odd hodd]
  simp [halfCycle, hclock, oddStages, hF1]

theorem stageM_fault_eq_truncate (h : accessesAligned s) : stageM .fault s = stageM .truncate s := by
  obtain ⟨hdata, -⟩ := h
  cases hd : s.dctrl with
  | none | rdB | wrB => simp [stageM, hd]
  | rdW => simp [stageM, hd, wordAccessFaults_even (hdata (.inl hd))]
  | wrW => simp [stageM, hd, wordAccessFaults_even (hdata (.inr hd))]

theorem stageF1_fault_eq_truncate (h : accessesAligned s) : stageF1 .fault s = stageF1 .truncate s := by
  obtain ⟨-, hfetch⟩ := h
  simp [stageF1, wordAccessFaults_even hfetch]

theorem tick_fault_eq_truncate (h : accessesAligned s) : tick .fault s = tick .truncate s := by
  have hhalf : halfCycle .fault s = halfCycle .truncate s := by
    simp only [halfCycle, oddStages, evenStages, stageM_fault_eq_truncate h, stageF1_fault_eq_truncate h]
  simp only [tick, hhalf]

/-- Only a tick depends on MISALIGNED_WORD, and a tick only at an odd address. -/
theorem advance_fault_eq_truncate (h : accessesAligned s) : advance .fault s = advance .truncate s := by
  cases hin : s.inputs with
  | nil => simp only [advance, hin, tick_fault_eq_truncate h]
  | cons e rest =>
    simp only [advance, hin]
    cases e with
    | tick => exact tick_fault_eq_truncate (s := { s with inputs := rest }) h
    | rst | irq | cmd => rfl

/-- Settles O45: the accesses by their aligned address, the stops and the agreement stage by stage. -/
theorem misalignedWordParameter : Obligations.MisalignedWordParameter := by
  refine ⟨fun m a v => ?_, fun s hin hrun hclock hreq hodd => ?_, fun s hin hrun hclock hodd => ?_, fun s h => ?_⟩
  · exact ⟨(Memory.readWord_aligned m a).symm, (Memory.writeWord_aligned m a v).symm⟩
  · have heven := (oddClock_false_iff s).mpr hclock
    refine ⟨(advance_running _ hin hrun).trans (halfCycle_fault_data heven hreq hodd), _,
      (advance_running _ hin hrun).trans (halfCycle_even s heven), ?_⟩
    rw [endChecks_dmar, tickClock_dmar, stageD0_dmar, stageF0_dmar, afterM_dmar]
  · have hoddClock := (oddClock_iff s).mpr hclock
    obtain ⟨t, ht, hhalf⟩ := halfCycle_odd_next hoddClock
    obtain ⟨-, -, himar⟩ := oddStages_fetched ht
    refine ⟨(advance_running _ hin hrun).trans (halfCycle_fault_fetch hoddClock hodd), _,
      (advance_running _ hin hrun).trans hhalf, ?_⟩
    rw [endChecks_imar, tickClock_imar, himar]
  · exact advance_fault_eq_truncate h

end Sys2Proof.Machine
end

section
/-! SUPPORT. The rows of the opcode map as intervals of words and as fixed fields, and the decoder on each interval
(30_encoding.md R91, R110, R111). -/

namespace Sys2Proof

variable {w m v : Word}

/-! Masked words. -/

/-- A word of a row lies between the row's match value and that value with every bit outside the mask set. -/
theorem toNat_bounds_of_row (h : w &&& m = v) : v.toNat ≤ w.toNat ∧ w.toNat ≤ v.toNat + (~~~m).toNat := by
  have hsplit : w = (w &&& m) + (w &&& ~~~m) := by
    rw [BitVec.add_eq_or_of_and_eq_zero]
    · rw [← BitVec.and_or_distrib_left, BitVec.or_not_self, BitVec.and_allOnes]
    · ext i hi
      simp only [BitVec.getElem_and, BitVec.getElem_not, BitVec.getElem_zero]
      grind
  have hrest : (w &&& ~~~m).toNat ≤ (~~~m).toNat := BitVec.toNat_and w _ ▸ Nat.and_le_right
  subst h
  refine ⟨BitVec.toNat_and w m ▸ Nat.and_le_left, ?_⟩
  calc w.toNat = ((w &&& m).toNat + (w &&& ~~~m).toNat) % 2 ^ 16 := by rw [← BitVec.toNat_add, ← hsplit]
    _ ≤ (w &&& m).toNat + (~~~m).toNat := (Nat.mod_le _ _).trans (Nat.add_le_add_left hrest _)

theorem interval_of_row (h : w &&& m = v) {lo hi : Nat} (hlo : lo ≤ v.toNat) (hhi : v.toNat + (~~~m).toNat < hi) :
    lo ≤ w.toNat ∧ w.toNat < hi :=
  ⟨hlo.trans (toNat_bounds_of_row h).1, (toNat_bounds_of_row h).2.trans_lt hhi⟩

/-- The mask of the bits from `k` up keeps the quotient of a word by `2 ^ k`. -/
theorem and_highMask_eq (k : Nat) {q : Nat} (hw : w.toNat / 2 ^ k = q) (hm : m = BitVec.allOnes 16 <<< k)
    (hv : v.toNat = q * 2 ^ k) : w &&& m = v := by
  have hand : w &&& m = w >>> k <<< k := by
    ext i hi
    simp only [hm, BitVec.getElem_and, BitVec.getElem_shiftLeft, BitVec.getElem_allOnes]
    grind
  apply BitVec.eq_of_toNat_eq
  rw [hand, BitVec.toNat_shiftLeft, BitVec.toNat_ushiftRight, Nat.shiftLeft_eq, Nat.shiftRight_eq_div_pow,
    Nat.mod_eq_of_lt (Nat.lt_of_le_of_lt (Nat.div_mul_le_self _ _) w.isLt), hw, hv]

/-- A field that the mask of a row covers holds what the row's match value holds. -/
theorem field_of_row (h : w &&& m = v) {start len : Nat} (hm : m.extractLsb' start len = BitVec.allOnes len) :
    w.extractLsb' start len = v.extractLsb' start len := by
  rw [← h, BitVec.extractLsb'_and, hm, BitVec.and_allOnes]

theorem field_eq_of_row (h : w &&& m = v) {start len : Nat} {c : BitVec len}
    (hm : m.extractLsb' start len = BitVec.allOnes len) (hv : v.extractLsb' start len = c) :
    w.extractLsb' start len = c := (field_of_row h hm).trans hv

theorem bit_of_row (h : w &&& m = v) {i : Nat} (hm : m.getLsbD i = true) : w.getLsbD i = v.getLsbD i := by
  rw [← h, BitVec.getLsbD_and, hm, Bool.and_true]

theorem field_and_of_allOnes {start len : Nat} (hm : m.extractLsb' start len = BitVec.allOnes len) :
    (w &&& m).extractLsb' start len = w.extractLsb' start len := by
  rw [BitVec.extractLsb'_and, hm, BitVec.and_allOnes]

/-! The fields that the decoder tests, as numbers. -/

theorem toNat_field {n : Nat} (w : BitVec n) (start len : Nat) :
    (w.extractLsb' start len).toNat = w.toNat / 2 ^ start % 2 ^ len := by
  rw [BitVec.extractLsb'_toNat, Nat.shiftRight_eq_div_pow]

theorem toNat_highByte (w : Word) : (w.extractLsb' 8 8).toNat = w.toNat / 256 := by
  have := w.isLt
  rw [toNat_field]
  omega

theorem getLsbD_eq_decide (w : Word) (i : Nat) : w.getLsbD i = decide (w.toNat / 2 ^ i % 2 = 1) :=
  Nat.testBit_eq_decide_div_mod_eq

theorem toNat_div_of_bit_clear {i : Nat} (h : w.getLsbD i = false) : w.toNat / 2 ^ i % 2 = 0 := by
  simpa [getLsbD_eq_decide] using h

theorem toNat_div_of_bit_set {i : Nat} (h : ¬ w.getLsbD i = false) : w.toNat / 2 ^ i % 2 = 1 := by
  simpa [getLsbD_eq_decide] using h

theorem ne_zero_of_toNat_pos (h : 0 < w.toNat) : w ≠ 0#16 := by
  rintro rfl
  exact absurd h (by decide)

/-! The steps of R91, each on the interval of words that reaches it. -/

theorem decode_eq_decodeBranch (hnz : w ≠ 0#16) (hhi : w.toNat < 0x4000) : decode w = decodeBranch w := by
  simp (disch := omega) only [decode, toNat_highByte, if_neg hnz, if_pos]

theorem decode_eq_decodeArith (hlo : 0x4000 ≤ w.toNat) (hhi : w.toNat < 0x4C00) : decode w = decodeArith w := by
  have hnz := ne_zero_of_toNat_pos (w := w) (by omega)
  simp (disch := omega) only [decode, toNat_highByte, if_neg hnz, if_neg, if_pos]

theorem decode_eq_decodeMove (hlo : 0x4C00 ≤ w.toNat) (hhi : w.toNat < 0x4D00) : decode w = decodeMove w := by
  have hnz := ne_zero_of_toNat_pos (w := w) (by omega)
  simp (disch := omega) only [decode, toNat_highByte, if_neg hnz, if_neg, if_pos]

theorem decode_eq_decodeSingle (hlo : 0x4D00 ≤ w.toNat) (hhi : w.toNat < 0x4D80) : decode w = decodeSingle w := by
  have hnz := ne_zero_of_toNat_pos (w := w) (by omega)
  have hbit : w.getLsbD 7 = false := by rw [getLsbD_eq_decide, decide_eq_false_iff_not]; omega
  simp (disch := omega) only [decode, toNat_highByte, if_neg hnz, if_neg, if_pos hbit, if_pos]

theorem decode_eq_decodeStatus (hlo : 0x4D80 ≤ w.toNat) (hhi : w.toNat < 0x4E00) : decode w = decodeStatus w := by
  have hnz := ne_zero_of_toNat_pos (w := w) (by omega)
  have hbit : w.getLsbD 7 = true := by rw [getLsbD_eq_decide, decide_eq_true_iff]; omega
  simp (disch := omega) only [decode, toNat_highByte, if_neg hnz, if_neg, hbit, reduceCtorEq, if_false, if_pos]

theorem decode_eq_invalidHigh4E (hlo : 0x4E00 ≤ w.toNat) (hhi : w.toNat < 0x5000) : decode w = .invalidHigh4E := by
  have hnz := ne_zero_of_toNat_pos (w := w) (by omega)
  simp (disch := omega) only [decode, toNat_highByte, if_neg hnz, if_neg, if_pos]

theorem decode_eq_decodeCex (hlo : 0x5000 ≤ w.toNat) (hhi : w.toNat < 0x5400) : decode w = decodeCex w := by
  have hnz := ne_zero_of_toNat_pos (w := w) (by omega)
  simp (disch := omega) only [decode, toNat_highByte, if_neg hnz, if_neg, if_pos]

theorem decode_eq_invalidHigh54 (hlo : 0x5400 ≤ w.toNat) (hhi : w.toNat < 0x5800) : decode w = .invalidHigh54 := by
  have hnz := ne_zero_of_toNat_pos (w := w) (by omega)
  simp (disch := omega) only [decode, toNat_highByte, if_neg hnz, if_neg]

theorem decode_eq_decodeIndexed (hlo : 0x5800 ≤ w.toNat) (hhi : w.toNat < 0x6000) : decode w = decodeIndexed w := by
  have hnz := ne_zero_of_toNat_pos (w := w) (by omega)
  simp (disch := omega) only [decode, toNat_highByte, if_neg hnz, if_neg, if_pos]

theorem decode_eq_decodeInit (hlo : 0x6000 ≤ w.toNat) (hhi : w.toNat < 0x8000) : decode w = decodeInit w := by
  have hnz := ne_zero_of_toNat_pos (w := w) (by omega)
  simp (disch := omega) only [decode, toNat_highByte, if_neg hnz, if_neg, if_pos]

theorem decode_eq_decodeRelative (hlo : 0x8000 ≤ w.toNat) : decode w = decodeRelative w := by
  have hnz := ne_zero_of_toNat_pos (w := w) (by omega)
  simp (disch := omega) only [decode, toNat_highByte, if_neg hnz, if_neg, if_pos]

/-! Every word lies in the row of its decoding (R110, R111). -/

/-- The word lies in the row of the opcode map that the instruction belongs to (R110, R111). -/
abbrev InRow (w : Word) (i : Instr) : Prop := w &&& rowMask i = rowMatch i

/-- A row of format S is fixed by its interval and the field FN (R97). -/
theorem and_singleMask_eq (hlo : 0x4D00 ≤ w.toNat) (hhi : w.toNat < 0x4D80) :
    w &&& 0xFFB8#16 = 0x4D00#16 ||| (w.extractLsb' 3 3).setWidth 16 <<< 3 := by
  have hhigh : w &&& 0xFF80#16 = 0x4D00#16 := and_highMask_eq (q := 0x9A) 7 (by omega) rfl rfl
  have hlow : w &&& 0x0038#16 = (w.extractLsb' 3 3).setWidth 16 <<< 3 := by
    ext i hi
    have hmask : ∀ j (hj : j < 16), (0x0038#16)[j] = (decide (3 ≤ j) && decide (j < 6)) := by decide
    simp only [BitVec.getElem_and, hmask, BitVec.getElem_shiftLeft]
    grind
  calc w &&& 0xFFB8#16 = (w &&& 0xFF80#16) ||| (w &&& 0x0038#16) := by rw [← BitVec.and_or_distrib_left]; rfl
    _ = 0x4D00#16 ||| (w.extractLsb' 3 3).setWidth 16 <<< 3 := by rw [hhigh, hlow]

theorem inRow_decodeBranch (hhi : w.toNat < 0x4000) : InRow w (decodeBranch w) := by
  unfold decodeBranch
  split
  next h13 =>
    have := toNat_div_of_bit_clear h13
    exact and_highMask_eq (q := 0) 13 (by omega) rfl rfl
  next h13 =>
    have := toNat_div_of_bit_set h13
    have hq : w.toNat / 2 ^ 10 = 0x08 + (w.extractLsb' 10 3).toNat := by rw [toNat_field]; omega
    generalize (w.extractLsb' 10 3).toNat = c at hq ⊢
    have hc : c < 8 := by omega
    interval_cases c <;> exact and_highMask_eq 10 hq rfl rfl

theorem inRow_decodeArith (hlo : 0x4000 ≤ w.toNat) (hhi : w.toNat < 0x4C00) : InRow w (decodeArith w) := by
  unfold decodeArith
  have hq : w.toNat / 2 ^ 8 = 0x40 + (w.extractLsb' 8 4).toNat := by rw [toNat_field]; omega
  generalize (w.extractLsb' 8 4).toNat = c at hq ⊢
  have hc : c < 12 := by omega
  interval_cases c <;> exact and_highMask_eq 8 hq rfl rfl

theorem inRow_decodeMove (hlo : 0x4C00 ≤ w.toNat) (hhi : w.toNat < 0x4D00) : InRow w (decodeMove w) := by
  unfold decodeMove
  split
  next h =>
    have := toNat_div_of_bit_clear h
    exact and_highMask_eq (q := 0x98) 7 (by omega) rfl rfl
  next h =>
    have := toNat_div_of_bit_set h
    exact and_highMask_eq (q := 0x99) 7 (by omega) rfl rfl

theorem inRow_decodeSingle (hlo : 0x4D00 ≤ w.toNat) (hhi : w.toNat < 0x4D80) : InRow w (decodeSingle w) := by
  have hrow := and_singleMask_eq hlo hhi
  unfold decodeSingle
  generalize w.extractLsb' 3 3 = fn at hrow ⊢
  fin_cases fn <;> exact hrow

theorem inRow_decodeStatus (hlo : 0x4D80 ≤ w.toNat) (hhi : w.toNat < 0x4E00) : InRow w (decodeStatus w) := by
  unfold decodeStatus
  have hq : w.toNat / 2 ^ 5 = 0x26C + (w.extractLsb' 5 2).toNat := by rw [toNat_field]; omega
  generalize (w.extractLsb' 5 2).toNat = c at hq ⊢
  have hc : c < 4 := by omega
  interval_cases c <;> exact and_highMask_eq 5 hq rfl rfl

theorem inRow_decodeCex (hlo : 0x5000 ≤ w.toNat) (hhi : w.toNat < 0x5400) : InRow w (decodeCex w) :=
  and_highMask_eq (q := 0x14) 10 (by omega) rfl rfl

theorem inRow_decodeIndexed (hlo : 0x5800 ≤ w.toNat) (hhi : w.toNat < 0x6000) : InRow w (decodeIndexed w) := by
  unfold decodeIndexed
  split
  next h =>
    have := toNat_div_of_bit_clear h
    exact and_highMask_eq (q := 0x16) 10 (by omega) rfl rfl
  next h =>
    have := toNat_div_of_bit_set h
    exact and_highMask_eq (q := 0x17) 10 (by omega) rfl rfl

theorem inRow_decodeInit (hlo : 0x6000 ≤ w.toNat) (hhi : w.toNat < 0x8000) : InRow w (decodeInit w) := by
  unfold decodeInit
  have hq : w.toNat / 2 ^ 11 = 0x0C + (w.extractLsb' 11 2).toNat := by rw [toNat_field]; omega
  generalize (w.extractLsb' 11 2).toNat = c at hq ⊢
  have hc : c < 4 := by omega
  interval_cases c <;> exact and_highMask_eq 11 hq rfl rfl

theorem inRow_decodeRelative (hlo : 0x8000 ≤ w.toNat) : InRow w (decodeRelative w) := by
  have hlt := w.isLt
  unfold decodeRelative
  dsimp only
  split
  next h =>
    have := toNat_div_of_bit_clear h
    exact and_highMask_eq (q := 2) 14 (by omega) rfl rfl
  next h =>
    have := toNat_div_of_bit_set h
    exact and_highMask_eq (q := 3) 14 (by omega) rfl rfl

/-- Every word lies in the row of its decoding: the intervals of the steps of R91 cover the words. -/
theorem inRow_decode (w : Word) : InRow w (decode w) := by
  have hlt := w.isLt
  by_cases hnz : w = 0#16
  · subst hnz; rfl
  by_cases h40 : w.toNat < 0x4000
  · exact decode_eq_decodeBranch hnz h40 ▸ inRow_decodeBranch h40
  by_cases h4C : w.toNat < 0x4C00
  · exact decode_eq_decodeArith (by omega) h4C ▸ inRow_decodeArith (by omega) h4C
  by_cases h4D : w.toNat < 0x4D00
  · exact decode_eq_decodeMove (by omega) h4D ▸ inRow_decodeMove (by omega) h4D
  by_cases h4D80 : w.toNat < 0x4D80
  · exact decode_eq_decodeSingle (by omega) h4D80 ▸ inRow_decodeSingle (by omega) h4D80
  by_cases h4E : w.toNat < 0x4E00
  · exact decode_eq_decodeStatus (by omega) h4E ▸ inRow_decodeStatus (by omega) h4E
  by_cases h50 : w.toNat < 0x5000
  · exact decode_eq_invalidHigh4E (by omega) h50 ▸ and_highMask_eq (q := 0x27) 9 (by omega) rfl rfl
  by_cases h54 : w.toNat < 0x5400
  · exact decode_eq_decodeCex (by omega) h54 ▸ inRow_decodeCex (by omega) h54
  by_cases h58 : w.toNat < 0x5800
  · exact decode_eq_invalidHigh54 (by omega) h58 ▸ and_highMask_eq (q := 0x15) 10 (by omega) rfl rfl
  by_cases h60 : w.toNat < 0x6000
  · exact decode_eq_decodeIndexed (by omega) h60 ▸ inRow_decodeIndexed (by omega) h60
  by_cases h80 : w.toNat < 0x8000
  · exact decode_eq_decodeInit (by omega) h80 ▸ inRow_decodeInit (by omega) h80
  · exact decode_eq_decodeRelative (w := w) (by omega) ▸ inRow_decodeRelative (by omega)

end Sys2Proof
end

section
/-! SUPPORT. The instruction that a word of a row stands for, and the encoder and the decoder as its two inverses
(30_encoding.md R92 to R112, R117). -/

namespace Sys2Proof

variable {w : Word}

/-- The instruction of the row of `i` whose operands are the fields of `w` (R92 to R109). -/
def readAs (i : Instr) (w : Word) : Instr :=
  match i with
  | .nop => .nop
  | .bl _ => .bl (branchOff13 (w.extractLsb' 0 13))
  | .beq _ => .beq (branchOff10 (w.extractLsb' 0 10))
  | .bne _ => .bne (branchOff10 (w.extractLsb' 0 10))
  | .bc _ => .bc (branchOff10 (w.extractLsb' 0 10))
  | .bnc _ => .bnc (branchOff10 (w.extractLsb' 0 10))
  | .bn _ => .bn (branchOff10 (w.extractLsb' 0 10))
  | .bge _ => .bge (branchOff10 (w.extractLsb' 0 10))
  | .blt _ => .blt (branchOff10 (w.extractLsb' 0 10))
  | .bra _ => .bra (branchOff10 (w.extractLsb' 0 10))
  | .add _ _ _ => .add (sourceField w) (wbField w) (dstField w)
  | .addc _ _ _ => .addc (sourceField w) (wbField w) (dstField w)
  | .sub _ _ _ => .sub (sourceField w) (wbField w) (dstField w)
  | .subc _ _ _ => .subc (sourceField w) (wbField w) (dstField w)
  | .dadd _ _ _ => .dadd (sourceField w) (wbField w) (dstField w)
  | .cmp _ _ _ => .cmp (sourceField w) (wbField w) (dstField w)
  | .xor _ _ _ => .xor (sourceField w) (wbField w) (dstField w)
  | .and _ _ _ => .and (sourceField w) (wbField w) (dstField w)
  | .or _ _ _ => .or (sourceField w) (wbField w) (dstField w)
  | .bit _ _ _ => .bit (sourceField w) (wbField w) (dstField w)
  | .bic _ _ _ => .bic (sourceField w) (wbField w) (dstField w)
  | .bis _ _ _ => .bis (sourceField w) (wbField w) (dstField w)
  | .mov _ _ _ => .mov (wbField w) (srcField w) (dstField w)
  | .swap _ _ => .swap (srcField w) (dstField w)
  | .sra _ _ => .sra (wbField w) (dstField w)
  | .rrc _ _ => .rrc (wbField w) (dstField w)
  | .swpb _ => .swpb (dstField w)
  | .sxt _ => .sxt (dstField w)
  | .setcc _ => .setcc (maskField w)
  | .clrcc _ => .clrcc (maskField w)
  | .cex _ _ _ => decodeCex w
  | .ld _ _ _ _ _ _ =>
    .ld (w.getLsbD 9) (w.getLsbD 8) (w.getLsbD 7) (wbField w) (srcField w) (dstField w)
  | .st _ _ _ _ _ _ =>
    .st (w.getLsbD 9) (w.getLsbD 8) (w.getLsbD 7) (wbField w) (srcField w) (dstField w)
  | .movl _ _ => .movl (immField w) (dstField w)
  | .movlz _ _ => .movlz (immField w) (dstField w)
  | .movls _ _ => .movls (immField w) (dstField w)
  | .movh _ _ => .movh (immField w) (dstField w)
  | .ldr _ _ _ _ => .ldr (relativeOff (w.extractLsb' 7 7)) (wbField w) (srcField w) (dstField w)
  | .str _ _ _ _ => .str (relativeOff (w.extractLsb' 7 7)) (wbField w) (srcField w) (dstField w)
  | .invalidFn2 => .invalidFn2
  | .invalidFn5 => .invalidFn5
  | .invalidFn6 => .invalidFn6
  | .invalidFn7 => .invalidFn7
  | .invalidSel4 => .invalidSel4
  | .invalidSel7 => .invalidSel7
  | .invalidHigh4E => .invalidHigh4E
  | .invalidHigh54 => .invalidHigh54

@[simp] theorem rowMask_readAs (i : Instr) (w : Word) : rowMask (readAs i w) = rowMask i := by cases i <;> rfl

@[simp] theorem rowMatch_readAs (i : Instr) (w : Word) : rowMatch (readAs i w) = rowMatch i := by cases i <;> rfl

@[simp] theorem isInvalid_readAs (i : Instr) (w : Word) : (readAs i w).isInvalid = i.isInvalid := by cases i <;> rfl

/-- The decoder reads every word of a row as an instruction of that row, 0x0000 being NOP's alone (R91, R110, R111). -/
theorem decode_of_inRow {i : Instr} (hzero : w = 0#16 → i = .nop) (h : InRow w i) : decode w = readAs i w := by
  cases i <;> simp only [InRow, rowMask, rowMatch] at h
  case nop =>
    have hw : w = 0#16 := (BitVec.and_allOnes (x := w)).symm.trans h
    subst hw; rfl
  case bl =>
    obtain ⟨-, hhi⟩ := interval_of_row h (lo := 0) (hi := 0x2000) (by decide) (by decide)
    have h13 := bit_of_row h (i := 13) (by decide)
    rw [decode_eq_decodeBranch (by simpa using hzero) (by omega)]
    simp only [decodeBranch, h13]
    simp [readAs]
  case beq | bne | bc | bnc | bn | bge | blt | bra =>
    obtain ⟨-, hhi⟩ := interval_of_row h (lo := 0x2000) (hi := 0x4000) (by decide) (by decide)
    have h13 := bit_of_row h (i := 13) (by decide)
    have hcode := field_of_row h (start := 10) (len := 3) (by decide)
    rw [decode_eq_decodeBranch (by simpa using hzero) hhi]
    simp only [decodeBranch, h13, hcode]
    simp [readAs]
  case add | addc | sub | subc | dadd | cmp | xor | and | or | bit | bic | bis =>
    obtain ⟨hlo, hhi⟩ := interval_of_row h (lo := 0x4000) (hi := 0x4C00) (by decide) (by decide)
    have hcode := field_of_row h (start := 8) (len := 4) (by decide)
    rw [decode_eq_decodeArith hlo hhi, decodeArith, hcode]
    rfl
  case mov | swap =>
    obtain ⟨hlo, hhi⟩ := interval_of_row h (lo := 0x4C00) (hi := 0x4D00) (by decide) (by decide)
    have hsel := bit_of_row h (i := 7) (by decide)
    rw [decode_eq_decodeMove hlo hhi]
    simp only [decodeMove, hsel]
    simp [readAs]
  case sra | rrc | swpb | sxt | invalidFn2 | invalidFn5 | invalidFn6 | invalidFn7 =>
    obtain ⟨hlo, hhi⟩ := interval_of_row h (lo := 0x4D00) (hi := 0x4D80) (by decide) (by decide)
    have hcode := field_of_row h (start := 3) (len := 3) (by decide)
    rw [decode_eq_decodeSingle hlo hhi, decodeSingle, hcode]
    rfl
  case setcc | clrcc | invalidSel4 | invalidSel7 =>
    obtain ⟨hlo, hhi⟩ := interval_of_row h (lo := 0x4D80) (hi := 0x4E00) (by decide) (by decide)
    have hcode := field_of_row h (start := 5) (len := 2) (by decide)
    rw [decode_eq_decodeStatus hlo hhi, decodeStatus, hcode]
    rfl
  case cex =>
    obtain ⟨hlo, hhi⟩ := interval_of_row h (lo := 0x5000) (hi := 0x5400) (by decide) (by decide)
    exact decode_eq_decodeCex hlo hhi
  case ld | st =>
    obtain ⟨hlo, hhi⟩ := interval_of_row h (lo := 0x5800) (hi := 0x6000) (by decide) (by decide)
    have hsel := bit_of_row h (i := 10) (by decide)
    rw [decode_eq_decodeIndexed hlo hhi]
    simp only [decodeIndexed, hsel]
    simp [readAs]
  case movl | movlz | movls | movh =>
    obtain ⟨hlo, hhi⟩ := interval_of_row h (lo := 0x6000) (hi := 0x8000) (by decide) (by decide)
    have hcode := field_of_row h (start := 11) (len := 2) (by decide)
    rw [decode_eq_decodeInit hlo hhi, decodeInit, hcode]
    rfl
  case ldr | str =>
    obtain ⟨hlo, -⟩ := interval_of_row h (lo := 0x8000) (hi := 0x10000) (by decide) (by decide)
    have hsel := bit_of_row h (i := 14) (by decide)
    rw [decode_eq_decodeRelative hlo]
    simp only [decodeRelative, hsel]
    simp [readAs]
  case invalidHigh4E =>
    obtain ⟨hlo, hhi⟩ := interval_of_row h (lo := 0x4E00) (hi := 0x5000) (by decide) (by decide)
    exact decode_eq_invalidHigh4E hlo hhi
  case invalidHigh54 =>
    obtain ⟨hlo, hhi⟩ := interval_of_row h (lo := 0x5400) (hi := 0x5800) (by decide) (by decide)
    exact decode_eq_invalidHigh54 hlo hhi

end Sys2Proof
end

section
/-! SUPPORT. The fields of a word written in each format, and a word put together again from its fields
(30_encoding.md R92 to R108). -/

namespace Sys2Proof

variable {w : Word}

/-! A field of a concatenation: the low part is the operand, the rest is read from the high part. -/

theorem extractLsb'_append_low {n l : Nat} (a : BitVec n) (b : BitVec l) : (a ++ b).extractLsb' 0 l = b := by
  rw [BitVec.extractLsb'_append_eq_of_add_le (by omega), BitVec.extractLsb'_eq_self]

theorem extractLsb'_append_mid {n l k : Nat} (a : BitVec n) (b : BitVec l) (c : BitVec k) :
    (a ++ b ++ c).extractLsb' k l = b := by
  rw [BitVec.extractLsb'_append_eq_of_le (Nat.le_refl k), Nat.sub_self, extractLsb'_append_low]

theorem dstField_append (x : BitVec 13) (dst : Reg) : dstField (x ++ dst.toBits) = dst := by
  rw [dstField, extractLsb'_append_low, Reg.ofBits_toBits]

theorem srcField_append (x : BitVec 10) (src dst : Reg) : srcField (x ++ src.toBits ++ dst.toBits) = src := by
  rw [srcField, extractLsb'_append_mid, Reg.ofBits_toBits]

theorem wbField_append (x : BitVec 9) (wb : BitVec 1) (src dst : BitVec 3) :
    wbField (x ++ wb ++ src ++ dst) = .ofBit (wb.getLsbD 0) := by
  simp only [wbField, BitVec.getLsbD_append]
  rfl

theorem sourceField_append (x : BitVec 8) (wb : BitVec 1) (src : Source) (dst : BitVec 3) :
    sourceField (x ++ src.rcBit ++ wb ++ src.srcBits ++ dst) = src := by
  rw [sourceField, extractLsb'_append_mid]
  simp only [BitVec.getLsbD_append]
  exact Source.ofBits_bits src

/-! The operands of a word in each format. -/

theorem formatB10_operand (code : BitVec 3) (off : Word) : (formatB10 code off).extractLsb' 0 10 = off10Field off :=
  extractLsb'_append_low _ _

theorem formatA_operands (opc : BitVec 4) (src : Source) (wb : Width) (dst : Reg) :
    sourceField (formatA opc src wb dst) = src ∧ wbField (formatA opc src wb dst) = wb ∧
      dstField (formatA opc src wb dst) = dst :=
  ⟨sourceField_append _ _ _ _, (wbField_append _ _ _ _).trans (Width.ofBit_toBit wb), dstField_append _ _⟩

theorem formatM_operands (sel : BitVec 1) (wb : Width) (src dst : Reg) :
    wbField (formatM sel wb.toBit src dst) = wb ∧ srcField (formatM sel wb.toBit src dst) = src ∧
      dstField (formatM sel wb.toBit src dst) = dst :=
  ⟨(wbField_append _ _ _ _).trans (Width.ofBit_toBit wb), srcField_append _ _ _, dstField_append _ _⟩

theorem formatS_operands (wb : Width) (fn : BitVec 3) (dst : Reg) :
    wbField (formatS wb.toBit fn dst.toBits) = wb ∧ dstField (formatS wb.toBit fn dst.toBits) = dst :=
  ⟨(wbField_append _ _ _ _).trans (Width.ofBit_toBit wb), dstField_append _ _⟩

theorem formatC_operand {imm : Byte} (sel : BitVec 3) (h : maskRange imm) : maskField (formatC sel imm) = imm := by
  apply BitVec.eq_of_toNat_eq
  rw [maskField, formatC, extractLsb'_append_low, BitVec.toNat_setWidth, toNat_field]
  omega

theorem formatE_operands (cond : Cond) (tc fc : BitVec 3) : decodeCex (formatE cond tc fc) = .cex cond tc fc := by
  rw [decodeCex, formatE, extractLsb'_append_low, extractLsb'_append_mid,
    BitVec.extractLsb'_append_eq_of_le (by decide), extractLsb'_append_mid, Cond.ofBits_toBits]

theorem formatX_operands (store : BitVec 1) (prpo dec inc : Bool) (wb : Width) (src dst : Reg) :
    let w := formatX store prpo dec inc wb src dst
    w.getLsbD 9 = prpo ∧ w.getLsbD 8 = dec ∧ w.getLsbD 7 = inc ∧ wbField w = wb ∧ srcField w = src ∧
      dstField w = dst := by
  refine ⟨?_, ?_, ?_, (wbField_append _ _ _ _).trans (Width.ofBit_toBit wb), srcField_append _ _ _,
    dstField_append _ _⟩
  all_goals
    simp only [formatX, BitVec.getLsbD_append]
    exact BitVec.getLsbD_ofBool _ 0

theorem formatL_operands (store : BitVec 1) (off : Word) (wb : Width) (src dst : Reg) :
    let w := formatL store off wb src dst
    w.extractLsb' 7 7 = off.extractLsb' 0 7 ∧ wbField w = wb ∧ srcField w = src ∧ dstField w = dst := by
  refine ⟨?_, (wbField_append _ _ _ _).trans (Width.ofBit_toBit wb), srcField_append _ _ _, dstField_append _ _⟩
  rw [formatL, BitVec.extractLsb'_append_eq_of_le (by decide), BitVec.extractLsb'_append_eq_of_le (by decide),
    extractLsb'_append_mid]

theorem formatI_operands (sel : BitVec 2) (imm : Byte) (dst : Reg) :
    immField (formatI sel imm dst) = imm ∧ dstField (formatI sel imm dst) = dst :=
  ⟨extractLsb'_append_mid _ _ _, dstField_append _ _⟩

/-! The offsets of R105 and R106 and their fields. -/

theorem extractLsb'_wordOffset {n : Nat} (hn : n < 16) (o : BitVec n) :
    ((o ++ 0#1).signExtend 16).extractLsb' 1 n = o := by
  apply BitVec.eq_of_getLsbD_eq
  intro i hi
  simp only [BitVec.getLsbD_extractLsb', BitVec.getLsbD_signExtend, BitVec.getLsbD_append]
  grind

/-- An even displacement in the range of a field of `n` bits is the field's displacement (R105). -/
theorem wordOffset_extractLsb' {n : Nat} (hn : 0 < n ∧ n < 16) {x : Word} (heven : x.toInt % 2 = 0)
    (hlo : -2 ^ n ≤ x.toInt) (hhi : x.toInt < 2 ^ n) : (x.extractLsb' 1 n ++ 0#1).signExtend 16 = x := by
  obtain ⟨k, rfl⟩ : ∃ k, n = k + 1 := ⟨n - 1, by omega⟩
  have hx : ((BitVec.ofInt (k + 1) (x.toInt / 2)) ++ 0#1).signExtend 16 = x := by
    apply BitVec.eq_of_toInt_eq
    have hmod : (x.toInt / 2).bmod (2 ^ (k + 1)) = x.toInt / 2 := by
      apply Int.bmod_eq_of_le <;> push_cast <;> omega
    rw [wordOffset_toInt _ hn.2, BitVec.toInt_ofInt, hmod]
    omega
  rw [← hx, extractLsb'_wordOffset hn.2]

theorem off10Field_branchOff10 (o : BitVec 10) : off10Field (branchOff10 o) = o := by
  rw [off10Field, branchOff10, BitVec.sub_add_cancel, extractLsb'_wordOffset (by decide)]

theorem off13Field_branchOff13 (o : BitVec 13) : off13Field (branchOff13 o) = o := by
  rw [off13Field, branchOff13, BitVec.sub_add_cancel, extractLsb'_wordOffset (by decide)]

theorem branchOff10_off10Field {off : Word} (h : branchRange10 off) : branchOff10 (off10Field off) = off := by
  obtain ⟨heven, hlo, hhi⟩ := h
  rw [branchOff10, off10Field, wordOffset_extractLsb' (by decide) heven (by omega) (by omega), BitVec.add_sub_cancel]

theorem branchOff13_off13Field {off : Word} (h : branchRange13 off) : branchOff13 (off13Field off) = off := by
  obtain ⟨⟨heven, hlo, hhi⟩, -⟩ := h
  rw [branchOff13, off13Field, wordOffset_extractLsb' (by decide) heven (by omega) (by omega), BitVec.add_sub_cancel]

theorem extractLsb'_relativeOff (o : BitVec 7) : (relativeOff o).extractLsb' 0 7 = o := by
  apply BitVec.eq_of_getLsbD_eq
  intro i hi
  simp only [relativeOff, BitVec.getLsbD_extractLsb', BitVec.getLsbD_signExtend]
  grind

theorem relativeOff_extractLsb' {off : Word} (h : relativeRange off) : relativeOff (off.extractLsb' 0 7) = off := by
  obtain ⟨hlo, hhi⟩ := h
  have hoff : relativeOff (BitVec.ofInt 7 off.toInt) = off := by
    apply BitVec.eq_of_toInt_eq
    rw [relativeOff, BitVec.toInt_signExtend_of_le (by decide), BitVec.toInt_ofInt,
      Int.bmod_eq_of_le (by omega) (by omega)]
  rw [← hoff, extractLsb'_relativeOff]

/-! A word put together from its fields. -/

theorem ofBool_getLsbD (w : Word) (i : Nat) : BitVec.ofBool (w.getLsbD i) = w.extractLsb' i 1 := by
  rw [BitVec.getLsbD_eq_extractLsb']
  generalize w.extractLsb' i 1 = b
  revert b
  decide

theorem extractLsb'_append_fields (w : Word) (start len len' : Nat) :
    w.extractLsb' (start + len) len' ++ w.extractLsb' start len = w.extractLsb' start (len' + len) :=
  BitVec.extractLsb'_append_extractLsb'_eq_extractLsb' rfl

theorem append_src_dst (w : Word) : w.extractLsb' 6 10 ++ (srcField w).toBits ++ (dstField w).toBits = w := by
  rw [srcField, dstField, Reg.toBits_ofBits, Reg.toBits_ofBits, extractLsb'_append_fields w 3 3 10,
    extractLsb'_append_fields w 0 3 13, BitVec.extractLsb'_eq_self]

theorem append_wb_src_dst (w : Word) :
    w.extractLsb' 7 9 ++ (wbField w).toBit ++ (srcField w).toBits ++ (dstField w).toBits = w := by
  rw [wbField, Width.toBit_ofBit, ofBool_getLsbD, extractLsb'_append_fields w 6 1 9]
  exact append_src_dst w

theorem formatBL_of_fields (hfixed : w.extractLsb' 13 3 = 0b000#3) :
    0b000#3 ++ off13Field (branchOff13 (w.extractLsb' 0 13)) = w := by
  rw [off13Field_branchOff13, ← hfixed, extractLsb'_append_fields w 0 13 3, BitVec.extractLsb'_eq_self]

theorem formatB10_of_fields {code : BitVec 3} (hfixed : w.extractLsb' 10 6 = 0b001#3 ++ code) :
    formatB10 code (branchOff10 (w.extractLsb' 0 10)) = w := by
  rw [formatB10, off10Field_branchOff10, ← hfixed, extractLsb'_append_fields w 0 10 6, BitVec.extractLsb'_eq_self]

theorem formatA_of_fields {opc : BitVec 4} (hfixed : w.extractLsb' 8 8 = 0b0100#4 ++ opc) :
    formatA opc (sourceField w) (wbField w) (dstField w) = w := by
  have hsrc : (sourceField w).srcBits = (srcField w).toBits := by
    rw [sourceField, Source.srcBits_ofBits, srcField, Reg.toBits_ofBits]
  rw [formatA, hsrc, sourceField, Source.rcBit_ofBits, ofBool_getLsbD, ← hfixed, extractLsb'_append_fields w 7 1 8]
  exact append_wb_src_dst w

theorem formatM_of_fields {sel wb : BitVec 1} (hfixed : w.extractLsb' 7 9 = 0b01001100#8 ++ sel)
    (hwb : w.extractLsb' 6 1 = wb) : formatM sel wb (srcField w) (dstField w) = w := by
  rw [formatM, ← hfixed, ← hwb, extractLsb'_append_fields w 6 1 9]
  exact append_src_dst w

theorem formatS_of_fields {wb : BitVec 1} {fn : BitVec 3} (hfixed : w.extractLsb' 7 9 = 0b01001101#8 ++ 0#1)
    (hwb : w.extractLsb' 6 1 = wb) (hfn : w.extractLsb' 3 3 = fn) : formatS wb fn (dstField w).toBits = w := by
  rw [formatS, ← hfixed, ← hwb, ← hfn, extractLsb'_append_fields w 6 1 9,
    ← Reg.toBits_ofBits (w.extractLsb' 3 3)]
  exact append_src_dst w

theorem formatC_of_fields {sel : BitVec 3} (hfixed : w.extractLsb' 5 11 = 0b01001101#8 ++ sel) :
    formatC sel (maskField w) = w := by
  have hmask : (maskField w).extractLsb' 0 5 = w.extractLsb' 0 5 := by
    apply BitVec.eq_of_getLsbD_eq
    intro i hi
    simp only [maskField, BitVec.getLsbD_extractLsb', BitVec.getLsbD_setWidth]
    grind
  rw [formatC, hmask, ← hfixed, extractLsb'_append_fields w 0 5 11, BitVec.extractLsb'_eq_self]

theorem formatE_of_fields (hfixed : w.extractLsb' 10 6 = 0b010100#6) :
    formatE (.ofBits (w.extractLsb' 6 4)) (w.extractLsb' 3 3) (w.extractLsb' 0 3) = w := by
  rw [formatE, Cond.toBits_ofBits, ← hfixed, extractLsb'_append_fields w 6 4 6, extractLsb'_append_fields w 3 3 10,
    extractLsb'_append_fields w 0 3 13, BitVec.extractLsb'_eq_self]

theorem formatX_of_fields {store : BitVec 1} (hfixed : w.extractLsb' 10 6 = 0b01011#5 ++ store) :
    formatX store (w.getLsbD 9) (w.getLsbD 8) (w.getLsbD 7) (wbField w) (srcField w) (dstField w) = w := by
  rw [formatX, ofBool_getLsbD, ofBool_getLsbD, ofBool_getLsbD, ← hfixed, extractLsb'_append_fields w 9 1 6,
    extractLsb'_append_fields w 8 1 7, extractLsb'_append_fields w 7 1 8]
  exact append_wb_src_dst w

theorem formatL_of_fields {store : BitVec 1} (hfixed : w.extractLsb' 14 2 = 1#1 ++ store) :
    formatL store (relativeOff (w.extractLsb' 7 7)) (wbField w) (srcField w) (dstField w) = w := by
  rw [formatL, extractLsb'_relativeOff, ← hfixed, extractLsb'_append_fields w 7 7 2]
  exact append_wb_src_dst w

theorem formatI_of_fields {sel : BitVec 2} (hfixed : w.extractLsb' 11 5 = 0b011#3 ++ sel) :
    formatI sel (immField w) (dstField w) = w := by
  rw [formatI, immField, dstField, Reg.toBits_ofBits, ← hfixed, extractLsb'_append_fields w 3 8 5,
    extractLsb'_append_fields w 0 3 13, BitVec.extractLsb'_eq_self]

end Sys2Proof
end

section
/-! SUPPORT. The encoder and the decoder as inverses, row by row, and the statements about the encoding
(30_encoding.md R91, R110 to R112, R117). -/

namespace Sys2Proof

variable {w : Word}

/-- The word of an instruction lies in the instruction's row: the fixed bits of its format (R110). -/
theorem inRow_encode (i : Instr) : InRow (encode i) i := by
  cases i with
  | bl off => exact Laws.EncodedRow.bl off
  | beq off | bne off | bc off | bnc off | bn off | bge off | blt off | bra off => exact Laws.formatB10_row _ off
  | add src wb dst | addc src wb dst | sub src wb dst | subc src wb dst | dadd src wb dst | cmp src wb dst
  | xor src wb dst | and src wb dst | or src wb dst | bit src wb dst | bic src wb dst | bis src wb dst =>
    exact Laws.formatA_row _ src wb dst
  | mov _ src dst | swap src dst => exact Laws.formatM_row _ _ src dst
  | sra | rrc | swpb | sxt => exact Laws.formatS_row _ _ _
  | setcc imm | clrcc imm => exact Laws.formatC_row _ imm
  | cex cond tc fc => exact Laws.formatE_row cond tc fc
  | ld prpo dec inc wb src dst | st prpo dec inc wb src dst => exact Laws.formatX_row _ prpo dec inc wb src dst
  | movl imm dst | movlz imm dst | movls imm dst | movh imm dst => exact Laws.formatI_row _ imm dst
  | ldr off wb src dst | str off wb src dst => exact Laws.formatL_row _ off wb src dst
  | nop | invalidFn2 | invalidFn5 | invalidFn6 | invalidFn7 | invalidSel4 | invalidSel7 | invalidHigh4E
  | invalidHigh54 => rfl

/-- The fields of an instruction's word are its operands. -/
theorem readAs_encode {i : Instr} (h : WellFormed i) : readAs i (encode i) = i := by
  cases i with
  | bl off =>
    have hoff : branchRange13 off := of_decide_eq_true h
    simp only [readAs, encode, extractLsb'_append_low, branchOff13_off13Field hoff]
  | beq off | bne off | bc off | bnc off | bn off | bge off | blt off | bra off =>
    have hoff : branchRange10 off := of_decide_eq_true h
    simp only [readAs, encode, formatB10_operand, branchOff10_off10Field hoff]
  | add src wb dst | addc src wb dst | sub src wb dst | subc src wb dst | dadd src wb dst | cmp src wb dst
  | xor src wb dst | and src wb dst | or src wb dst | bit src wb dst | bic src wb dst | bis src wb dst =>
    simp only [readAs, encode, formatA_operands]
  | mov wb src dst => simp only [readAs, encode, formatM_operands]
  | swap src dst =>
    obtain ⟨-, hsrc, hdst⟩ := formatM_operands 1 .word src dst
    exact congrArg₂ Instr.swap hsrc hdst
  | sra wb dst | rrc wb dst => simp only [readAs, encode, formatS_operands]
  | swpb dst => exact congrArg Instr.swpb (formatS_operands .word _ dst).2
  | sxt dst => exact congrArg Instr.sxt (formatS_operands .word _ dst).2
  | setcc imm | clrcc imm => simp only [readAs, encode, formatC_operand _ (of_decide_eq_true h)]
  | cex cond tc fc => exact formatE_operands cond tc fc
  | ld prpo dec inc wb src dst | st prpo dec inc wb src dst => simp only [readAs, encode, formatX_operands]
  | movl imm dst | movlz imm dst | movls imm dst | movh imm dst => simp only [readAs, encode, formatI_operands]
  | ldr off wb src dst | str off wb src dst =>
    have hoff : relativeRange off := of_decide_eq_true h
    simp only [readAs, encode, formatL_operands, relativeOff_extractLsb' hoff]
  | nop | invalidFn2 | invalidFn5 | invalidFn6 | invalidFn7 | invalidSel4 | invalidSel7 | invalidHigh4E
  | invalidHigh54 => rfl

/-- Only NOP has the word 0x0000: the one other row that holds it is BL's, and BL's offset is not 0 (R93, R105). -/
theorem eq_nop_of_encode_eq_zero {i : Instr} (h : WellFormed i) (hzero : encode i = 0#16) : i = .nop := by
  have hmatch : rowMatch i = 0#16 := by
    rw [← inRow_encode i, hzero, BitVec.zero_and]
  cases i with
  | nop => rfl
  | bl off =>
    obtain ⟨hrange, hne⟩ : branchRange13 off := of_decide_eq_true h
    have hread : readAs (.bl off) 0#16 = .bl off := hzero ▸ readAs_encode h
    rw [← Instr.bl.inj hread] at hne
    exact absurd rfl hne
  | _ => simp [rowMatch] at hmatch

theorem eq_of_clear_outside {m v : Word} (h : w &&& m = v) (hclear : w &&& ~~~m = 0#16) : v = w := by
  rw [← BitVec.and_allOnes (x := w), ← BitVec.or_not_self m, BitVec.and_or_distrib_left, h, hclear, BitVec.or_zero]

/-- A word of a row whose ignored bits are 0 is the word of the instruction it stands for. -/
theorem encode_readAs {i : Instr} (h : InRow w i) (hclear : w &&& ignoredBits i = 0#16) : encode (readAs i w) = w := by
  cases i <;> simp only [InRow, rowMask, rowMatch, ignoredBits] at h hclear
  case nop => exact h.symm.trans BitVec.and_allOnes
  case bl => exact formatBL_of_fields (field_eq_of_row h (by decide) (by decide))
  case beq | bne | bc | bnc | bn | bge | blt | bra =>
    exact formatB10_of_fields (field_eq_of_row h (by decide) (by decide))
  case add | addc | sub | subc | dadd | cmp | xor | and | or | bit | bic | bis =>
    exact formatA_of_fields (field_eq_of_row h (by decide) (by decide))
  case mov =>
    rw [readAs, encode, wbField, Width.toBit_ofBit, ofBool_getLsbD]
    exact formatM_of_fields (field_eq_of_row h (by decide) (by decide)) rfl
  case swap =>
    exact formatM_of_fields (field_eq_of_row h (by decide) (by decide))
      (field_eq_of_row hclear (by decide) (by decide))
  case sra | rrc =>
    rw [readAs, encode, wbField, Width.toBit_ofBit, ofBool_getLsbD]
    exact formatS_of_fields (field_eq_of_row h (by decide) (by decide)) rfl
      (field_eq_of_row h (by decide) (by decide))
  case swpb | sxt =>
    exact formatS_of_fields (field_eq_of_row h (by decide) (by decide))
      (field_eq_of_row hclear (by decide) (by decide)) (field_eq_of_row h (by decide) (by decide))
  case setcc | clrcc => exact formatC_of_fields (field_eq_of_row h (by decide) (by decide))
  case cex => exact formatE_of_fields (field_eq_of_row h (by decide) (by decide))
  case ld | st => exact formatX_of_fields (field_eq_of_row h (by decide) (by decide))
  case movl | movlz | movls | movh => exact formatI_of_fields (field_eq_of_row h (by decide) (by decide))
  case ldr | str => exact formatL_of_fields (field_eq_of_row h (by decide) (by decide))
  case invalidFn2 | invalidFn5 | invalidFn6 | invalidFn7 | invalidSel4 | invalidSel7 | invalidHigh4E | invalidHigh54 =>
    exact eq_of_clear_outside h hclear

/-- The ignored bits of a row lie outside its mask (R110, R112). -/
theorem rowMask_ignoredBits (i : Instr) : ~~~(ignoredBits i) &&& rowMask i = rowMask i := by
  cases i <;> simp only [ignoredBits, rowMask] <;> decide

/-- The operands of an instruction are not read from the ignored bits (R112). -/
theorem readAs_ignoredBits (i : Instr) (w : Word) : readAs i (w &&& ~~~(ignoredBits i)) = readAs i w := by
  cases i with
  | swap =>
    simp only [readAs, ignoredBits, srcField, dstField]
    rw [field_and_of_allOnes (by decide), field_and_of_allOnes (by decide)]
  | swpb | sxt =>
    simp only [readAs, ignoredBits, dstField]
    rw [field_and_of_allOnes (by decide)]
  | invalidFn2 | invalidFn5 | invalidFn6 | invalidFn7 | invalidSel4 | invalidSel7 | invalidHigh4E
  | invalidHigh54 => rfl
  | _ =>
    simp only [ignoredBits]
    exact congrArg (readAs _) (BitVec.and_allOnes (x := w))

/-- Encoding what a word of a row stands for clears the ignored bits of the row. -/
theorem encode_readAs_of_inRow {i : Instr} (h : InRow w i) : encode (readAs i w) = w &&& ~~~(ignoredBits i) := by
  rw [← readAs_ignoredBits i w]
  apply encode_readAs
  · rw [InRow, BitVec.and_assoc, rowMask_ignoredBits, h]
  · rw [BitVec.and_assoc, BitVec.and_comm (~~~_), BitVec.and_not_self]
    exact BitVec.and_zero

/-- A decoded word is read from the fields of its own row. -/
theorem readAs_decode (w : Word) : readAs (decode w) w = decode w :=
  (decode_of_inRow (by rintro rfl; rfl) (inRow_decode w)).symm

/-- The decoder gives back every well-formed instruction from its word. -/
theorem decode_encode {i : Instr} (h : WellFormed i) : decode (encode i) = i :=
  (decode_of_inRow (eq_nop_of_encode_eq_zero h) (inRow_encode i)).trans (readAs_encode h)

/-- Settles O1: an instruction's word lies in its row, and the fields of the word are its operands. -/
theorem decodeInvertsEncode : Obligations.DecodeInvertsEncode := by
  intro i h
  refine ⟨decode_encode h, fun rest => ?_⟩
  rw [encodeBytes, List.cons_append, List.cons_append, List.nil_append, decodeBytes_word, decode_encode h]

/-- Settles O2: the word lies in the row of its decoding, whose operands are read from the other bits. -/
theorem reencodingClearsOnlyIgnoredBits : Obligations.ReencodingClearsOnlyIgnoredBits := by
  intro w
  conv_lhs => rw [← readAs_decode w]
  exact encode_readAs_of_inRow (inRow_decode w)

/-- Settles O3: a row that holds the word is the row of its decoding, since the decoder reads the word in that row. -/
theorem rowsPartitionTheWords : Obligations.RowsPartitionTheWords := by
  refine fun w => ⟨inRow_decode w, fun j hzero hrow => ?_⟩
  rw [decode_of_inRow hzero hrow, rowMask_readAs, rowMatch_readAs]
  exact ⟨rfl, rfl⟩

/-- Settles O4. -/
theorem everyWordDecodesWellFormed : Obligations.EveryWordDecodesWellFormed := wellFormed_decode

/-- A word of an INVALID row decodes to that row's instruction; no INVALID row holds 0x0000 (R111). -/
theorem isInvalid_decode_of_inRow {i : Instr} (hi : i.isInvalid = true) (h : InRow w i) :
    (decode w).isInvalid = true := by
  have hzero : w = 0#16 → i = .nop := by
    rintro rfl
    rw [InRow, BitVec.zero_and] at h
    cases i <;> simp [rowMatch, Instr.isInvalid] at h hi
  rw [decode_of_inRow hzero h, isInvalid_readAs, hi]

/-- Settles O5: an INVALID instruction is one of the eight, and each has a row of its own. -/
theorem invalidWordsAreTheEightRows : Obligations.InvalidWordsAreTheEightRows := by
  intro w
  constructor
  · intro hinvalid
    have hrow := inRow_decode w
    generalize decode w = i at hinvalid hrow
    cases i with
    | invalidFn2 => exact .inl hrow
    | invalidFn5 => exact .inr <| .inl hrow
    | invalidFn6 => exact .inr <| .inr <| .inl hrow
    | invalidFn7 => exact .inr <| .inr <| .inr <| .inl hrow
    | invalidSel4 => exact .inr <| .inr <| .inr <| .inr <| .inl hrow
    | invalidSel7 => exact .inr <| .inr <| .inr <| .inr <| .inr <| .inl hrow
    | invalidHigh4E => exact .inr <| .inr <| .inr <| .inr <| .inr <| .inr <| .inl hrow
    | invalidHigh54 => exact .inr <| .inr <| .inr <| .inr <| .inr <| .inr <| .inr hrow
    | _ => simp [Instr.isInvalid] at hinvalid
  · rintro (h | h | h | h | h | h | h | h)
    · exact isInvalid_decode_of_inRow (i := .invalidFn2) rfl h
    · exact isInvalid_decode_of_inRow (i := .invalidFn5) rfl h
    · exact isInvalid_decode_of_inRow (i := .invalidFn6) rfl h
    · exact isInvalid_decode_of_inRow (i := .invalidFn7) rfl h
    · exact isInvalid_decode_of_inRow (i := .invalidSel4) rfl h
    · exact isInvalid_decode_of_inRow (i := .invalidSel7) rfl h
    · exact isInvalid_decode_of_inRow (i := .invalidHigh4E) rfl h
    · exact isInvalid_decode_of_inRow (i := .invalidHigh54) rfl h

/-- Settles O6, word by word. -/
theorem sampleWordsDecode : Obligations.SampleWordsDecode := by
  unfold Obligations.SampleWordsDecode
  decide

end Sys2Proof
end

section
/-! SUPPORT. Which registers and latches each stage leaves as they were, an even half-cycle as one operation, and the
step as a half-cycle of either parity (40_pipeline_step.md R135 to R147). -/

namespace Sys2Proof.Machine

variable {s t : State}

theorem State.pc_eq (s : State) : s.pc = s.bank0.get .r7 := rfl

/-! What the stages leave. -/

@[simp] theorem afterM_bank0 (s : State) : (afterM s).bank0 = s.bank0 := by rw [afterM_frame]
@[simp] theorem afterM_pc (s : State) : (afterM s).pc = s.pc := by rw [State.pc_eq, afterM_bank0, State.pc_eq]
@[simp] theorem afterM_ir (s : State) : (afterM s).ir = s.ir := by rw [afterM_frame]
@[simp] theorem afterM_lsd (s : State) : (afterM s).lsd = s.lsd := by rw [afterM_frame]
@[simp] theorem afterM_decodeBubble (s : State) : (afterM s).decodeBubble = s.decodeBubble := by rw [afterM_frame]
@[simp] theorem afterM_inputs (s : State) : (afterM s).inputs = s.inputs := by rw [afterM_frame]

@[simp] theorem stageD0_bank0 (s : State) : (stageD0 s).bank0 = s.bank0 := by rw [stageD0_frame]
@[simp] theorem stageD0_imar (s : State) : (stageD0 s).imar = s.imar := by rw [stageD0_frame]
@[simp] theorem stageD0_dmbr (s : State) : (stageD0 s).dmbr = s.dmbr := by rw [stageD0_frame]
@[simp] theorem stageD0_lsd (s : State) : (stageD0 s).lsd = s.lsd := by rw [stageD0_frame]
@[simp] theorem stageD0_inputs (s : State) : (stageD0 s).inputs = s.inputs := by rw [stageD0_frame]

@[simp] theorem stageE1_decodeBubble (s : State) : (stageE1 s).decodeBubble = s.decodeBubble := by rw [stageE1_frame]
@[simp] theorem stageE1_executeBubble (s : State) : (stageE1 s).executeBubble = s.executeBubble := by
  rw [stageE1_frame]
@[simp] theorem stageE1_inputs (s : State) : (stageE1 s).inputs = s.inputs := by rw [stageE1_frame]

@[simp] theorem endChecks_bank0 (odd : Bool) (s : State) : (endChecks odd s).bank0 = s.bank0 := by rw [endChecks_frame]
@[simp] theorem endChecks_bank1 (odd : Bool) (s : State) : (endChecks odd s).bank1 = s.bank1 := by rw [endChecks_frame]
@[simp] theorem endChecks_dmbr (odd : Bool) (s : State) : (endChecks odd s).dmbr = s.dmbr := by rw [endChecks_frame]
@[simp] theorem endChecks_dctrl (odd : Bool) (s : State) : (endChecks odd s).dctrl = s.dctrl := by rw [endChecks_frame]
@[simp] theorem endChecks_lsd (odd : Bool) (s : State) : (endChecks odd s).lsd = s.lsd := by rw [endChecks_frame]
@[simp] theorem endChecks_cex (odd : Bool) (s : State) : (endChecks odd s).cex = s.cex := by rw [endChecks_frame]
@[simp] theorem endChecks_decodeBubble (odd : Bool) (s : State) : (endChecks odd s).decodeBubble = s.decodeBubble := by
  rw [endChecks_frame]
@[simp] theorem endChecks_executeBubble (odd : Bool) (s : State) :
    (endChecks odd s).executeBubble = s.executeBubble := by rw [endChecks_frame]

@[simp] theorem endChecks_dec (odd : Bool) (s : State) : (endChecks odd s).dec = s.dec := by rw [endChecks_frame]
theorem endChecks_x (odd : Bool) (s : State) (r : Reg) : (endChecks odd s).x r = s.x r := by
  rw [State.x, endChecks_bank0, State.x]
theorem endChecks_pc (odd : Bool) (s : State) : (endChecks odd s).pc = s.pc := endChecks_x odd s .r7

/-! The checks at the end of a half-cycle (40_pipeline_step.md R147). -/

/-- A check other than that of a stop request holds: a step is over, the breakpoint is reached after an odd half-cycle,
or an interrupt is recorded. -/
def suspensionDue (odd : Bool) (s : State) : Prop :=
  ((s.ctl.singleStep = true ∨ s.ctl.stepOnce = true) ∧ (s.ctl.stopOnClock = true ∨ odd = true)) ∨
    (odd = true ∧ s.pc = s.ctl.breakpoint) ∨ s.ctl.userInterrupt = true

/-- The suspending checks one by one, as the model makes them. -/
theorem suspensionDue_iff (odd : Bool) (s : State) :
    suspensionDue odd s ↔
      ((s.ctl.singleStep || s.ctl.stepOnce) && s.ctl.stopOnClock) = true ∨
      ((s.ctl.singleStep || s.ctl.stepOnce) && !s.ctl.stopOnClock && odd) = true ∨
      (odd && (s.pc == s.ctl.breakpoint)) = true ∨ s.ctl.userInterrupt = true := by
  unfold suspensionDue
  cases s.ctl.stopOnClock <;> simp

theorem endChecks_suspends {odd : Bool} (hstop : s.ctl.stopReq = false) (h : suspensionDue odd s) :
    endChecks odd s = s.suspend := by
  rcases (suspensionDue_iff odd s).mp h with h | h | h | h <;> simp only [endChecks, hstop, h] <;> simp

theorem endChecks_keeps {odd : Bool} (hstop : s.ctl.stopReq = false) (h : ¬ suspensionDue odd s) :
    endChecks odd s = s := by
  simp only [suspensionDue_iff, not_or] at h
  obtain ⟨hclock, hpair, hbreak, hirq⟩ := h
  simp only [endChecks, hstop, if_neg hclock, if_neg hpair, if_neg hbreak, if_neg hirq]
  rfl

/-! The half-cycles and the step. -/

/-- What the stages and the clock of an even half-cycle leave (40_pipeline_step.md R135, R146); `step_even` ties it to
the step. -/
def afterEven (s : State) : State := tickClock (stageD0 (stageF0 (afterM s)))

@[simp] theorem afterEven_bank0 (s : State) : (afterEven s).bank0 = s.bank0.set .r7 (s.pc + 2) := by simp [afterEven]
@[simp] theorem afterEven_bank1 (s : State) : (afterEven s).bank1 = s.bank1 := by simp [afterEven]
@[simp] theorem afterEven_psw (s : State) : (afterEven s).psw = s.psw := by simp [afterEven]
@[simp] theorem afterEven_imar (s : State) : (afterEven s).imar = s.pc := by simp [afterEven]
@[simp] theorem afterEven_dmbr (s : State) : (afterEven s).dmbr = (afterM s).dmbr := by simp [afterEven]
@[simp] theorem afterEven_dctrl (s : State) : (afterEven s).dctrl = (afterM s).dctrl := by simp [afterEven]
@[simp] theorem afterEven_lsd (s : State) : (afterEven s).lsd = s.lsd := by simp [afterEven]
@[simp] theorem afterEven_decodeBubble (s : State) : (afterEven s).decodeBubble = false := by simp [afterEven]
@[simp] theorem afterEven_imem (s : State) : (afterEven s).imem = s.imem := by simp [afterEven]
@[simp] theorem afterEven_dmem (s : State) : (afterEven s).dmem = (afterM s).dmem := by simp [afterEven]
@[simp] theorem afterEven_inputs (s : State) : (afterEven s).inputs = s.inputs := by simp [afterEven]
@[simp] theorem afterEven_ctl (s : State) : (afterEven s).ctl = { s.ctl with clock := s.ctl.clock + 1 } := by
  simp [afterEven]
@[simp] theorem afterEven_pc (s : State) : (afterEven s).pc = s.pc + 2 := by simp [State.pc_eq (afterEven s)]

theorem afterEven_x_other (s : State) {r : Reg} (h : r ≠ .r7) : (afterEven s).x r = s.x r := by
  simp [State.x_eq, h]

theorem oddClock_afterEven (s : State) : oddClock (afterEven s) = !oddClock s := by
  rw [afterEven, oddClock_tickClock, oddClock, stageD0_ctl, stageF0_ctl, afterM_ctl, ← oddClock]

/-- A step in an even half-cycle (40_pipeline_step.md R135). -/
theorem step_even (hin : s.inputs = []) (hrun : s.ctl.fsm = .running) (heven : oddClock s = false) :
    step s = .next (endChecks false (afterEven s)) :=
  (step_running s hin hrun).trans (halfCycle_even s heven)

/-- A step in an odd half-cycle (40_pipeline_step.md R135). -/
theorem step_odd (hin : s.inputs = []) (hrun : s.ctl.fsm = .running) (hodd : oddClock s = true)
    (ht : stageE0 s.atExecute = .next t) : step s = .next (endChecks true (tickClock t)) :=
  (step_running s hin hrun).trans (halfCycle_odd s t hodd ht)

theorem stageE0_of_bubble (h : s.executeBubble = true) : stageE0 s = .next { s with executeBubble := false } :=
  if_pos h

theorem stageE0_of_exec (h : s.executeBubble = false) (ht : exec s.dec s = .next t) : stageE0 s = .next t := by
  rw [stageE0, h]
  exact ht

/-! The state that E0 meets. -/

@[simp] theorem State.atExecute_bank1 (s : State) : s.atExecute.bank1 = s.bank1 := by simp [State.atExecute]
@[simp] theorem State.atExecute_psw (s : State) : s.atExecute.psw = s.psw := by simp [State.atExecute]
@[simp] theorem State.atExecute_ir (s : State) : s.atExecute.ir = Memory.readWord s.imem s.imar := by
  simp [State.atExecute]
@[simp] theorem State.atExecute_dec (s : State) : s.atExecute.dec = s.dec := by simp [State.atExecute]
@[simp] theorem State.atExecute_decodeBubble (s : State) : s.atExecute.decodeBubble = s.decodeBubble := by
  simp [State.atExecute]
@[simp] theorem State.atExecute_executeBubble (s : State) : s.atExecute.executeBubble = s.executeBubble := by
  simp [State.atExecute]
@[simp] theorem State.atExecute_cex (s : State) : s.atExecute.cex = s.cex := by simp [State.atExecute]
@[simp] theorem State.atExecute_ctl (s : State) : s.atExecute.ctl = s.ctl := by simp [State.atExecute]
@[simp] theorem State.atExecute_imem (s : State) : s.atExecute.imem = s.imem := by simp [State.atExecute]
@[simp] theorem State.atExecute_dmem (s : State) : s.atExecute.dmem = s.dmem := by simp [State.atExecute]
@[simp] theorem State.atExecute_inputs (s : State) : s.atExecute.inputs = s.inputs := by simp [State.atExecute]

/-- A step in an odd half-cycle with no bubble performs the decoded instruction (40_pipeline_step.md R138). -/
theorem step_execute (hin : s.inputs = []) (hrun : s.ctl.fsm = .running) (hodd : oddClock s = true)
    (hbubble : s.executeBubble = false) (ht : exec s.dec s.atExecute = .next t) :
    step s = .next (endChecks true (tickClock t)) :=
  step_odd hin hrun hodd
    (stageE0_of_exec ((State.atExecute_executeBubble s).trans hbubble) (by rw [State.atExecute_dec, ht]))

/-- A step in an odd half-cycle with a bubble performs nothing but F1 and E1 (40_pipeline_step.md R138, R143). -/
theorem step_bubble (hin : s.inputs = []) (hrun : s.ctl.fsm = .running) (hodd : oddClock s = true)
    (hbubble : s.executeBubble = true) :
    step s = .next (endChecks true (tickClock { s.atExecute with executeBubble := false })) :=
  step_odd hin hrun hodd (stageE0_of_bubble ((State.atExecute_executeBubble s).trans hbubble))

/-! An undisturbed half-cycle: no check but that of the breakpoint can hold. -/

theorem endChecks_undisturbed (h : undisturbed s) {odd : Bool} (hbreak : odd = true → s.pc ≠ s.ctl.breakpoint) :
    endChecks odd s = s := by
  obtain ⟨-, -, hsingle, honce, hstop, hirq⟩ := h
  exact endChecks_quiet odd s hstop hsingle honce hirq hbreak

theorem undisturbed_of_ctl (h : undisturbed s) (hin : t.inputs = s.inputs)
    (hctl : t.ctl = { s.ctl with clock := s.ctl.clock + 1 }) : undisturbed t := by
  simpa [undisturbed, hin, hctl] using h

theorem undisturbed_afterEven (h : undisturbed s) : undisturbed (afterEven s) :=
  undisturbed_of_ctl h (afterEven_inputs s) (afterEven_ctl s)

theorem step_even_undisturbed (h : undisturbed s) (heven : oddClock s = false) : step s = .next (afterEven s) := by
  have ⟨hin, hrun, _⟩ := h
  rw [step_even hin hrun heven, endChecks_undisturbed (odd := false) (undisturbed_afterEven h) nofun]

/-- Settles O36. -/
theorem stepRunsTheDecodedInstruction : Obligations.StepRunsTheDecodedInstruction :=
  fun s _ hin hrun hclock hbubble ht => step_execute hin hrun ((oddClock_iff s).mpr hclock) hbubble ht

end Sys2Proof.Machine
end

section
/-! SUPPORT. D0 by what becomes of the word in IR: squashed, skipped by a window, or decoded; the statements about D0
(40_pipeline_step.md R137; 45_cex.md R271, R273, R275, R276). -/

namespace Sys2Proof.Machine

variable {s : State}

/-- Whether D0 decodes the word it meets when no squash is due: no window is open, or the word is in the running arm of
one (45_cex.md R273). -/
def windowRuns (c : CexState) : Prop := c.status = .disabled ∨ windowAct c = .run

/-- The window once D0 has met a word: an open one has used up a count (45_cex.md R273). -/
def windowAfterWord (c : CexState) : CexState := if c.status = .disabled then c else windowNext c

theorem windowAfterWord_disabled {c : CexState} (h : c.status = .disabled) : windowAfterWord c = c := if_pos h

theorem windowAfterWord_open {c : CexState} (h : c.status ≠ .disabled) : windowAfterWord c = windowNext c := if_neg h

theorem windowRuns_or_skips (c : CexState) : windowRuns c ∨ (c.status ≠ .disabled ∧ windowAct c = .skip) := by
  by_cases hopen : c.status = .disabled
  · exact .inl (.inl hopen)
  · cases hact : windowAct c with
    | run => exact .inl (.inr hact)
    | skip => exact .inr ⟨hopen, rfl⟩

theorem stageD0_squash (h : s.decodeBubble = true) : stageD0 s = { bubbleDecode s with decodeBubble := false } := by
  rw [stageD0, if_pos h]

theorem stageD0_skip (h : s.decodeBubble = false) (hopen : s.cex.status ≠ .disabled)
    (hact : windowAct s.cex = .skip) : stageD0 s = bubbleDecode { s with cex := windowNext s.cex } := by
  simp [stageD0, h, hopen, windowStep, hact]

theorem stageD0_decodes (h : s.decodeBubble = false) (hrun : windowRuns s.cex) :
    stageD0 s = acceptDecode { s with cex := windowAfterWord s.cex } := by
  by_cases hopen : s.cex.status = .disabled
  · rw [windowAfterWord_disabled hopen, stageD0, if_neg (Bool.eq_false_iff.mp h), if_pos hopen]
  · have hact : windowAct s.cex = .run := hrun.resolve_left hopen
    rw [windowAfterWord_open hopen]
    simp [stageD0, h, hopen, windowStep, hact]

/-! An even half-cycle by what its D0 does. -/

theorem afterEven_squash (h : s.decodeBubble = true) :
    (afterEven s).executeBubble = true ∧ (afterEven s).cex = s.cex ∧ (afterEven s).invalid = none := by
  have hD0 := stageD0_squash (s := stageF0 (afterM s)) (by simpa using h)
  simp [afterEven, hD0]

theorem afterEven_skip (h : s.decodeBubble = false) (hopen : s.cex.status ≠ .disabled)
    (hact : windowAct s.cex = .skip) :
    (afterEven s).executeBubble = true ∧ (afterEven s).cex = windowNext s.cex ∧ (afterEven s).invalid = none := by
  have hD0 := stageD0_skip (s := stageF0 (afterM s)) (by simpa using h) (by simpa using hopen) (by simpa using hact)
  simp [afterEven, hD0]

theorem afterEven_decodes (h : s.decodeBubble = false) (hrun : windowRuns s.cex) :
    (afterEven s).executeBubble = s.executeBubble ∧ (afterEven s).dec = decode s.ir ∧
    (afterEven s).cex = windowAfterDecode (decode s.ir) (windowAfterWord s.cex) s.psw ∧
    (afterEven s).invalid = if (decode s.ir).isInvalid then some s.ir else none := by
  have hD0 := stageD0_decodes (s := stageF0 (afterM s)) (by simpa using h) (by simpa using hrun)
  simp [afterEven, hD0]

/-! The statements. -/

theorem windowAfterDecode_of_ne_cex {i : Instr} (h : ∀ cond tc fc, i ≠ .cex cond tc fc) (c : CexState) (psw : Word) :
    windowAfterDecode i c psw = c := by
  unfold windowAfterDecode
  split
  · exact absurd rfl (h _ _ _)
  · rfl

/-- The window of a CEX with its counts as numbers: none when they add up to 0 (45_cex.md R271). -/
theorem openWindow_eq (cond : Cond) (tc fc : BitVec 3) (psw : Word) :
    openWindow cond tc fc psw =
      { cc := cond, tc := tc.setWidth 4, fc := fc.setWidth 4
        status :=
          if tc.toNat + fc.toNat = 0 then .disabled
          else if condHolds cond psw then .predicateTrue else .predicateFalse } := by
  have hzero : (tc = 0 ∧ fc = 0) ↔ tc.toNat + fc.toNat = 0 := by
    rw [Nat.add_eq_zero_iff, ← BitVec.toNat_inj, ← BitVec.toNat_inj]
    exact Iff.rfl
  simp only [openWindow, hzero]

/-- Settles O26: D0 decodes the word back to the CEX, whose window replaces the one before. -/
theorem cexOpensItsWindowInDecode : Obligations.CexOpensItsWindowInDecode := by
  intro cond tc fc s hsquash hrun hir
  have hdecode : decode s.ir = .cex cond tc fc := by rw [hir, decode_encode rfl]
  rw [stageD0_decodes hsquash hrun, ← openWindow_eq]
  simp only [acceptDecode, hdecode]
  rfl

/-- Settles O27. -/
theorem squashedAndSkippedWords : Obligations.SquashedAndSkippedWords :=
  fun _ => ⟨stageD0_squash, stageD0_skip⟩

/-- Settles O28: `acceptDecode` after the window's count. -/
theorem invalidWordIsReported : Obligations.InvalidWordIsReported := by
  intro s hsquash hrun
  have hD0 := stageD0_decodes hsquash hrun
  refine ⟨by rw [hD0]; rfl, by rw [hD0]; rfl, fun hcex => ?_⟩
  rw [hD0, acceptDecode, windowAfterDecode_of_ne_cex hcex]
  rfl

end Sys2Proof.Machine
end

section
/-! SUPPORT. The statements about the controller: what ends a half-cycle in a suspension, what resumes, and that nothing
moves outside Running (40_pipeline_step.md R132, R134, R147 to R149). -/

namespace Sys2Proof.Machine

variable {s : State}

theorem tick_not_running (h : s.ctl.fsm ≠ .running) : tick .truncate s = .next s := by
  unfold tick
  cases hfsm : s.ctl.fsm with
  | running => exact absurd hfsm h
  | idle | suspended | halted => rfl

/-- A half-cycle of either parity ends in the checks on a state whose controller has only counted it. -/
theorem halfCycle_ends (s : State) :
    ∃ t, halfCycle .truncate s = .next (endChecks (oddClock s) t) ∧
      t.ctl = { s.ctl with clock := s.ctl.clock + 1 } := by
  cases hclock : oddClock s with
  | false => exact ⟨afterEven s, halfCycle_even s hclock, afterEven_ctl s⟩
  | true =>
    obtain ⟨t, ht, hhalf⟩ := halfCycle_odd_next hclock
    obtain ⟨-, -, -, -, -, hctl, -⟩ := oddStages_kept ht
    exact ⟨tickClock t, hhalf, by rw [tickClock_ctl, hctl]⟩

/-- Settles O52. -/
theorem noHalfCycleUnlessRunning : Obligations.NoHalfCycleUnlessRunning := by
  intro s hrun
  refine ⟨fun hin => ?_, fun rest hin => ?_⟩
  · rw [step_tick s hin, tick_not_running hrun]
  · rw [step_input s .tick rest hin]
    exact tick_not_running hrun

theorem step_command_idle {rest : List Input} {c : Command} (hfsm : s.ctl.fsm = .idle)
    (h : s.inputs = .cmd c :: rest) :
    step s = .next (acceptCommand (State.start { s with reply := .none, inputs := rest })
      { s with reply := .none, inputs := rest } c) := by
  rw [step_command h]
  exact congrArg _ (hostCommand_idle c _ hfsm)

/-- Settles O53: `run()` and `step()` in Idle both start, and differ in `step_once`. -/
theorem startCopiesStartAddress : Obligations.StartCopiesStartAddress := by
  intro s rest c hidle hin hc
  rw [step_command_idle hidle hin]
  rcases hc with rfl | rfl <;> rfl

/-- Settles O55, by whether a stop is pending and, if not, whether a suspension is due. -/
theorem endOfHalfCycleChecks : Obligations.EndOfHalfCycleChecks := by
  intro odd s _
  refine ⟨endChecks_stopReq odd, fun hstop hdue => endChecks_suspends hstop hdue, fun hstop hstep hbreak hirq => ?_⟩
  refine endChecks_keeps hstop fun hdue => ?_
  rcases hdue with h | h | h
  · exact hstep h
  · exact hbreak h
  · exact Bool.noConfusion (hirq.symm.trans h)

@[simp] theorem endChecks_userInterrupt (odd : Bool) (s : State) :
    (endChecks odd s).ctl.userInterrupt = s.ctl.userInterrupt := by rw [endChecks_frame]

/-- A recorded interrupt suspends after either half-cycle, unless a stop is pending (40_pipeline_step.md R147). -/
theorem endChecks_interrupted_fsm (odd : Bool) (h : s.ctl.userInterrupt = true) :
    (endChecks odd s).ctl.fsm = if s.ctl.stopReq then .halted else .suspended := by
  cases hstop : s.ctl.stopReq with
  | true => rw [endChecks_stopReq odd hstop, State.halt, if_pos rfl]
  | false =>
    have hdue : suspensionDue odd s := .inr (.inr h)
    rw [endChecks_suspends hstop hdue, State.suspend, if_neg Bool.false_ne_true]

/-- Settles O56: the half-cycle's checks meet the recorded interrupt. -/
theorem interruptSuspendsAfterHalfCycle : Obligations.InterruptSuspendsAfterHalfCycle := by
  intro s hrun hin
  obtain ⟨t, hhalf, hctl⟩ := halfCycle_ends (State.raiseInterrupt { s with inputs := [] })
  have hrunning := step_running (State.raiseInterrupt { s with inputs := [] }) rfl hrun
  refine ⟨_, _, step_input s .irq [] hin, rfl, hrunning.trans hhalf, ?_, ?_, ?_⟩
  · rw [endChecks_clock, hctl]
    rfl
  · rw [endChecks_userInterrupt, hctl]
    rfl
  · rw [endChecks_interrupted_fsm _ (by rw [hctl]; rfl), hctl]
    rfl

/-- Stepping, with stop-on-clock off and nothing else due: an even half-cycle leaves the controller Running, and the odd
one after it suspends (40_pipeline_step.md R147). -/
theorem stepping_pair (hin : s.inputs = []) (hrun : s.ctl.fsm = .running) (heven : oddClock s = false)
    (hstepping : s.ctl.singleStep = true ∨ s.ctl.stepOnce = true) (honClock : s.ctl.stopOnClock = false)
    (hstop : s.ctl.stopReq = false) (hirq : s.ctl.userInterrupt = false) :
    step s = .next (afterEven s) ∧ ∃ t, step (afterEven s) = .next t ∧
      t.ctl = { s.ctl with clock := s.ctl.clock + 2, fsm := .suspended, stepOnce := false } := by
  have hctl := afterEven_ctl s
  have hodd : oddClock (afterEven s) = true := by rw [oddClock_afterEven, heven, Bool.not_false]
  constructor
  · rw [step_even hin hrun heven, endChecks_keeps (by rw [hctl, hstop])]
    simp [suspensionDue, honClock, hirq]
  · obtain ⟨t, hhalf, ht⟩ := halfCycle_ends (afterEven s)
    have hdue : suspensionDue true t := .inl ⟨by rw [ht, hctl]; exact hstepping, .inr rfl⟩
    rw [hodd, endChecks_suspends (by rw [ht, hctl, hstop]) hdue] at hhalf
    refine ⟨_, (step_running _ (by rw [afterEven_inputs, hin]) (by rw [hctl, hrun])).trans hhalf, ?_⟩
    rw [State.suspend, ht, hctl]

/-- Settles O54: what resumes is stepping, by `single_step` or by `step_once`. -/
theorem singleStepRunsOnePair : Obligations.SingleStepRunsOnePair := by
  intro s c hsus hin hc hclock honClock hstop
  have hresume : step s = .next (State.resume { s with reply := .none, inputs := [] } (decide (c = .step))) := by
    rw [step_command_suspended hsus hin]
    rcases hc with ⟨rfl, -⟩ | rfl <;> rfl
  have hstepping : s.ctl.singleStep = true ∨ decide (c = .step) = true := hc.imp And.right decide_eq_true
  obtain ⟨heven, v, hodd, hctl⟩ := stepping_pair
    (s := State.resume { s with reply := .none, inputs := [] } (decide (c = .step))) rfl rfl
    ((oddClock_false_iff _).mpr hclock) hstepping honClock hstop rfl
  refine ⟨_, _, v, hresume, rfl, heven, ?_, ?_, hodd, ?_, ?_, ?_⟩
  · rw [afterEven_ctl]
    rfl
  · rw [afterEven_ctl]
    rfl
  · rw [hctl]
  · rw [hctl]
  · rw [hctl]
    rfl

end Sys2Proof.Machine
end

section
/-! SUPPORT. Steps of the pipeline in sequence: the word fetched beside an E0 is decoded and executed next, a load's
value reaches its register before the next E0, and the start of a program (40_pipeline_step.md R134 to R142;
70_reset_and_hazards.md R382, R393, R394). -/

namespace Sys2Proof.Machine

variable {s m u : State} {i : Instr}

/-- Settles O37. -/
theorem stepDecodesTheFetchedWord : Obligations.StepDecodesTheFetchedWord := by
  intro s hin hrun hclock hsquash hopen
  obtain ⟨-, hdec, -⟩ := afterEven_decodes hsquash (.inl hopen)
  refine ⟨_, step_even hin hrun ((oddClock_false_iff s).mpr hclock), ?_, ?_, ?_, fun q hq => ?_, ?_, ?_, ?_⟩
  · rw [endChecks_dec, hdec]
  · rw [endChecks_imar, afterEven_imar]
  · rw [endChecks_pc, afterEven_pc]
  · rw [endChecks_x, afterEven_x_other s hq]
  · rw [endChecks_psw, afterEven_psw]
  · rw [endChecks_imem, afterEven_imem]
  · rw [endChecks_clock, afterEven_ctl]

/-! A load and the instruction after it. -/

/-- What E1 leaves in the destination of a pending read, from the value M returned (40_pipeline_step.md R140). -/
def State.pendingValue (s : State) : Word :=
  if s.dctrl = .rdB then (s.x s.lsd).extractLsb' 8 8 ++ s.dmbr.extractLsb' 0 8 else s.dmbr

theorem exec_mov_word (s : State) (src dst : Reg) : exec (.mov .word src dst) s = .next (s.setX dst (s.x src)) :=
  congrArg (fun v => (.next (s.setX dst v) : Result)) (lowBits_word (s.x src))

/-- Settles O43: the state E0 meets is the one with the pending read completed. -/
theorem nextInstructionReadsLoadedValue : Obligations.NextInstructionReadsLoadedValue := by
  intro s hin hrun hclock hbubble hread
  have hodd := (oddClock_iff s).mpr hclock
  have he := State.atExecute_pending s hread
  have hlsd : s.atExecute.x s.lsd = s.pendingValue := by
    rw [he]
    exact Bank.get_set_same ..
  obtain ⟨n, hn, -⟩ := exec_next_frame s.dec s.atExecute
  have hstep := step_execute hin hrun hodd hbubble hn
  refine ⟨Bank.get_set_same .., ⟨n, ?_, hstep⟩, fun d hd => ⟨_, hstep, ?_⟩⟩
  · rw [he] at hn
    exact hn
  · rw [hd, exec_mov_word, hlsd] at hn
    cases hn
    rw [endChecks_x, endChecks_x, endChecks_dctrl]
    refine ⟨State.x_setX_same .., ?_, congrArg State.dctrl he⟩
    by_cases hsame : s.lsd = d
    · subst hsame
      exact State.x_setX_same ..
    · exact (State.x_setX_other _ d s.lsd _ hsame).trans hlsd

/-! The word fetched beside an E0 is decoded and executed next. -/

/-- `u` is the state before the E0 of the word that was fetched while the E0 of `s` left `m`: that word is in DEC with
no bubble, F0 has issued the program counter of `m`, M has served the request of `m`, and nothing else is due. -/
structure DecodedBeside (s m u : State) : Prop where
  executes : step s = .next (tickClock m)
  decodes : step (tickClock m) = .next u
  undisturbed : undisturbed u
  odd : oddClock u = true
  dec : u.dec = decode (Memory.readWord s.imem s.imar)
  executeBubble : u.executeBubble = false
  decodeBubble : u.decodeBubble = false
  imar : u.imar = m.pc
  pc : u.pc = m.pc + 2
  request : u.dctrl = (afterM m).dctrl ∧ u.lsd = m.lsd ∧ u.dmbr = (afterM m).dmbr
  imem : u.imem = s.imem
  breakpoint : u.ctl.breakpoint = s.ctl.breakpoint

theorem afterM_tickClock (s : State) : afterM (tickClock s) = tickClock (afterM s) := by
  unfold afterM
  rw [tickClock_dctrl]
  cases s.dctrl <;> rfl

/-- An undisturbed E0 that takes no branch and does not reach the breakpoint, with no window open
(40_pipeline_step.md R150). -/
theorem decodedBeside (hs : undisturbed s) (hodd : oddClock s = true) (hbubble : s.executeBubble = false)
    (hopen : s.cex.status = .disabled) (hm : exec s.dec s.atExecute = .next m) (hbranch : m.decodeBubble = false)
    (hbreak : m.pc ≠ s.ctl.breakpoint) : DecodedBeside s m (afterEven (tickClock m)) := by
  have hf := exec_frame hm
  have hctl : m.ctl = s.ctl := hf.ctl.trans (State.atExecute_ctl s)
  have hcex : m.cex = s.cex := hf.cex.trans (State.atExecute_cex s)
  have hinputs : m.inputs = s.inputs := hf.inputs.trans (State.atExecute_inputs s)
  have hm' : undisturbed (tickClock m) := undisturbed_of_ctl hs hinputs (by rw [tickClock_ctl, hctl])
  have heven : oddClock (tickClock m) = false := by
    rw [oddClock_tickClock, oddClock, hctl, ← oddClock, hodd, Bool.not_true]
  have ⟨hin, hrun, _⟩ := hs
  have hE0 : step s = .next (tickClock m) := by
    rw [step_execute hin hrun hodd hbubble hm, endChecks_undisturbed hm']
    rw [tickClock_ctl, hctl]
    exact fun _ => hbreak
  have hclosed : (tickClock m).cex.status = .disabled := by rw [tickClock_cex, hcex, hopen]
  obtain ⟨hnobubble, hdec, -⟩ := afterEven_decodes (s := tickClock m) hbranch (.inl hclosed)
  refine ⟨hE0, step_even_undisturbed hm' heven, undisturbed_afterEven hm', ?_, ?_, ?_, afterEven_decodeBubble _,
    afterEven_imar _, afterEven_pc _, ⟨?_, afterEven_lsd _, ?_⟩, ?_, ?_⟩
  · rw [oddClock_afterEven, heven, Bool.not_false]
  · rw [hdec, tickClock_ir, hf.ir, State.atExecute_ir]
  · rw [hnobubble, tickClock_executeBubble, hf.executeBubble, State.atExecute_executeBubble, hbubble]
  · rw [afterEven_dctrl, afterM_tickClock, tickClock_dctrl]
  · rw [afterEven_dmbr, afterM_tickClock, tickClock_dmbr]
  · rw [afterEven_imem, tickClock_imem, hf.imem, State.atExecute_imem]
  · rw [afterEven_ctl, tickClock_ctl, hctl]

/-! A load into R7. -/

theorem read_of_readTag {d : Dctrl} {wb : Width} (h : d = readTag wb) : d = .rdW ∨ d = .rdB := by
  cases wb with
  | word => exact .inl h
  | byte => exact .inr h

theorem isLoadFrom_of_loadsPc (h : loadsPc i = true) (s : State) : ∃ wb ra ea, isLoadFrom i wb ra .r7 s ea := by
  cases i with
  | ld prpo dec inc wb ra dst =>
    obtain rfl : dst = .r7 := eq_of_beq h
    exact ⟨wb, ra, _, .inl ⟨prpo, dec, inc, rfl, rfl⟩⟩
  | ldr off wb ra dst =>
    obtain rfl : dst = .r7 := eq_of_beq h
    exact ⟨wb, ra, _, .inr ⟨off, rfl, rfl⟩⟩
  | _ => exact Bool.noConfusion h

/-- The E0 of a load into R7 posts the read and takes no branch (46_load_store.md R294). -/
theorem exec_loadsPc (h : loadsPc i = true) (s : State) :
    ∃ m wb, exec i s = .next m ∧ m.dctrl = readTag wb ∧ m.lsd = .r7 ∧ m.decodeBubble = s.decodeBubble := by
  obtain ⟨wb, ra, ea, hload⟩ := isLoadFrom_of_loadsPc h s
  obtain ⟨v, hm⟩ := exec_load hload
  exact ⟨_, wb, hm, State.postRead_dctrl_eq .., rfl, rfl⟩

theorem afterM_read {wb : Width} (h : s.dctrl = readTag wb) :
    afterM s = { s with dmbr := Memory.readAt s.dmem wb s.dmar } :=
  Host.Outcome.next.inj ((stageM_truncate s).symm.trans (stageM_read h))

/-- What E1 puts in R7 when the read that `m` posts for it is served: the word, or the byte below the high byte of the
program counter that F0 left (40_pipeline_step.md R140). -/
def loadedIntoPc (dmem : Memory) (m : State) : Word :=
  if m.dctrl = .rdB then (m.pc + 2).extractLsb' 8 8 ++ Memory.readByte dmem m.dmar else Memory.readWord dmem m.dmar

/-- A read that `m` posts is still pending in `u`, its value returned by M. -/
theorem DecodedBeside.read_returned {wb : Width} (hu : DecodedBeside s m u) (hreq : m.dctrl = readTag wb)
    (hdmem : m.dmem = s.dmem) :
    u.dctrl = readTag wb ∧ u.lsd = m.lsd ∧ u.dmbr = Memory.readAt s.dmem wb m.dmar := by
  obtain ⟨hdctrl, hlsd, hdmbr⟩ := hu.request
  rw [afterM_read hreq] at hdctrl hdmbr
  exact ⟨hdctrl.trans hreq, hlsd, by rw [hdmbr, hdmem]⟩

theorem DecodedBeside.pendingValue_of_pcRead {wb : Width} (hu : DecodedBeside s m u) (hreq : m.dctrl = readTag wb)
    (hlsd : m.lsd = .r7) (hdmem : m.dmem = s.dmem) : u.pendingValue = loadedIntoPc s.dmem m := by
  obtain ⟨hdctrl, hdst, hdmbr⟩ := hu.read_returned hreq hdmem
  have hpc : u.x u.lsd = m.pc + 2 := by
    rw [hdst, hlsd]
    exact hu.pc
  rw [State.pendingValue, loadedIntoPc, hdctrl, hreq, hdmbr, hpc]
  cases wb with
  | word => rfl
  | byte =>
    rw [Memory.readAt_byte, extractLsb'_low_append]
    rfl

/-- The state the E0 of the word after a load into R7 meets: the loaded value in R7, and F1 has brought in the word at
the load's own program counter. -/
theorem DecodedBeside.atExecute_of_pcRead {wb : Width} (hu : DecodedBeside s m u) (hreq : m.dctrl = readTag wb)
    (hlsd : m.lsd = .r7) (hdmem : m.dmem = s.dmem) :
    u.atExecute = { u with
      imbr := Memory.readWord s.imem m.pc, ir := Memory.readWord s.imem m.pc, invalid := none
      bank0 := u.bank0.set .r7 (loadedIntoPc s.dmem m), dctrl := .none } := by
  obtain ⟨hdctrl, hdst, -⟩ := hu.read_returned hreq hdmem
  have hbank : u.bank0.set u.lsd u.pendingValue = u.bank0.set .r7 (loadedIntoPc s.dmem m) := by
    rw [hu.pendingValue_of_pcRead hreq hlsd hdmem, hdst, hlsd]
  have hpending : u.atExecute = { afterF1 u with bank0 := u.bank0.set u.lsd u.pendingValue, dctrl := .none } :=
    State.atExecute_pending u (read_of_readTag hdctrl)
  rw [hpending, hbank, ← hu.imem, ← hu.imar]
  rfl

/-- Settles O42: the word from A + 2 stands beside the load, the word from A + 4 beside the word from A + 2. -/
theorem loadIntoPcHasTwoDelaySlots : Obligations.LoadIntoPcHasTwoDelaySlots := by
  intro s hs hclock hbubble hsquash hopen hload
  have hodd := (oddClock_iff s).mpr hclock
  obtain ⟨m, wb, hm, hreq, hlsd, hbranch⟩ := exec_loadsPc hload s.atExecute
  rw [State.atExecute_decodeBubble, hsquash] at hbranch
  have hdmem : m.dmem = s.dmem := (exec_frame hm).dmem.trans (State.atExecute_dmem s)
  refine ⟨m, hm, read_of_readTag hreq, fun hbreak => ?_⟩
  have hu := decodedBeside hs hodd hbubble hopen hm hbranch hbreak
  generalize afterEven (tickClock m) = u at hu
  obtain ⟨n, hn, -⟩ := exec_next_frame u.dec u.atExecute
  obtain ⟨hin, hrun, -⟩ := hu.undisturbed
  refine ⟨_, u, n, hu.executes, hu.decodes, hu.dec, hu.executeBubble, hu.imar, hu.pc, ?_,
    step_execute hin hrun hu.odd hu.executeBubble hn, fun hpc hnb hcex hbp => ?_⟩
  · rw [hu.atExecute_of_pcRead hreq hlsd hdmem] at hn
    exact hn
  · have hbreak' : n.pc ≠ u.ctl.breakpoint := by
      rw [hpc, hu.breakpoint]
      exact hbp
    have hw := decodedBeside hu.undisturbed hu.odd hu.executeBubble hcex hn hnb hbreak'
    generalize afterEven (tickClock n) = w at hw
    obtain ⟨k, hk, -⟩ := exec_next_frame w.dec w.atExecute
    obtain ⟨hin', hrun', -⟩ := hw.undisturbed
    refine ⟨_, w, hw.executes, hpc, hw.decodes, ?_, hw.executeBubble, ?_, ?_, ?_, ?_, k, hk,
      step_execute hin' hrun' hw.odd hw.executeBubble hk⟩
    · rw [hw.dec, hu.imem, hu.imar]
    · rw [hw.imar, hpc]
    · rw [hw.pc, hpc]
    · rw [State.atExecute_ir, hw.imem, hw.imar, hpc, hu.imem]
    · intro h
      rw [State.atExecute_pc w h, hw.pc, hpc]

/-! The start of a program. -/

theorem core_run_succ {t : State} (h : step s = .next t) (k : Nat) : core.run (k + 1) s = core.run k t := by
  have hstep : core.step s = .next t := h
  simp only [Host.Core.run, hstep]

theorem Bank.get_zero (r : Reg) : Bank.zero.get r = 0 := by cases r <;> rfl

/-- The state from which a program runs: reset, the banks filled, the start address set and `run()` taken
(40_pipeline_step.md R134). -/
def startedAt (imem dmem : Memory) (start : Word) : State :=
  State.start { State.reset with
    imem := imem, dmem := dmem, ctl := { Controller.reset with startAddress := start } } false

theorem step_setStartAddress_reset (imem dmem : Memory) (start : Word) (rest : List Input) :
    step { State.reset with imem := imem, dmem := dmem, inputs := .cmd (.setStartAddress start) :: rest } =
      .next { State.reset with
        imem := imem, dmem := dmem, ctl := { Controller.reset with startAddress := start }, inputs := rest } := rfl

theorem step_run_reset (imem dmem : Memory) (start : Word) :
    step { State.reset with
        imem := imem, dmem := dmem, ctl := { Controller.reset with startAddress := start }, inputs := [.cmd .run] } =
      .next (startedAt imem dmem start) := rfl

theorem undisturbed_startedAt (imem dmem : Memory) (start : Word) : undisturbed (startedAt imem dmem start) :=
  ⟨rfl, rfl, rfl, rfl, rfl, rfl⟩

/-- The first even half-cycle of a program decodes the NOP that reset leaves in IR (70_reset_and_hazards.md R382). -/
theorem afterEven_startedAt (imem dmem : Memory) (start : Word) :
    afterEven (startedAt imem dmem start) =
      { startedAt imem dmem start with
        bank0 := Bank.zero.set .r7 (start + 2), imar := start
        ctl := { (startedAt imem dmem start).ctl with clock := 1 } } := rfl

/-- Settles O39: the word at the start address stands beside the NOP of reset. -/
theorem firstInstructionAfterStart : Obligations.FirstInstructionAfterStart := by
  intro imem dmem start hstart
  have hs := undisturbed_startedAt imem dmem start
  have heven := step_even_undisturbed hs rfl
  have ht := undisturbed_afterEven hs
  rw [afterEven_startedAt] at heven ht
  have hne : start + 2 ≠ 0 := by bv_omega
  have hu := decodedBeside (m := State.atExecute _) ht rfl rfl rfl rfl rfl hne
  obtain ⟨hin, hrun, -⟩ := hu.undisturbed
  obtain ⟨n, hn, -⟩ := exec_next_frame _ (State.atExecute _)
  refine ⟨_, ?_, hu.dec, ?_, hu.imar, ?_, hrun, hu.executeBubble, fun q hq => ?_, ?_, n, ?_,
    step_execute hin hrun hu.odd hu.executeBubble hn⟩
  · rw [core_run_succ (step_setStartAddress_reset imem dmem start _), core_run_succ (step_run_reset imem dmem start),
      core_run_succ heven, core_run_succ hu.executes, core_run_succ hu.decodes]
    rfl
  · exact hu.pc.trans (BitVec.add_assoc start 2 2)
  · rw [afterEven_ctl]
    rfl
  · rw [afterEven_x_other _ hq]
    exact (Bank.get_set_other Bank.zero .r7 q _ hq).trans (Bank.get_zero q)
  · rw [afterEven_psw]
    rfl
  · exact hn

end Sys2Proof.Machine
end

section
/-! SUPPORT. The sequential machine of 40_pipeline_step.md R151 as the pipeline sees it: what E0 and the served request
do depends on the registers, the PSW and the data bank alone, what E0 leaves of the program counter, and one cycle of
the pipeline as one turn of the sequential machine. -/

namespace Sys2Proof.Machine

variable {s t u v : State} {i : Instr} {w : Word}

/-! What a program sees of a state. -/

/-- Two states that E0 cannot tell apart: they agree on the registers, the constants, the PSW, the data bank, the squash
flag and the tag of the pending request. -/
structure SeenAlike (s t : State) : Prop where
  bank0 : t.bank0 = s.bank0
  bank1 : t.bank1 = s.bank1
  psw : t.psw = s.psw
  dmem : t.dmem = s.dmem
  decodeBubble : t.decodeBubble = s.decodeBubble
  dctrl : t.dctrl = s.dctrl

/-- The latches that serve the pending request agree: the address, and the destination of a read or the data of a
write. -/
def sameRequest (s t : State) : Prop :=
  match s.dctrl with
  | .none => True
  | .rdW | .rdB => t.dmar = s.dmar ∧ t.lsd = s.lsd
  | .wrW | .wrB => t.dmar = s.dmar ∧ t.dmbr = s.dmbr

theorem sameRequest_of_none (h : s.dctrl = .none) : sameRequest s t := by
  rw [sameRequest, h]
  trivial

theorem settle_eq (s : State) : settle s = stageE1 (afterM s) := by rw [settle, stageM_truncate]

theorem settle_of_none (h : s.dctrl = .none) : settle s = s := by
  rw [settle_eq, afterM_none s h, stageE1_none s h]

theorem settle_read {wb : Width} (h : s.dctrl = readTag wb) :
    settle s = { s with
      dmbr := Memory.readAt s.dmem wb s.dmar
      bank0 := s.bank0.set s.lsd (loadedWord wb (s.x s.lsd) s.dmem s.dmar)
      dctrl := .none } := by
  rw [settle, stageM_read h]
  exact stageE1_read h

theorem settle_write {wb : Width} (h : s.dctrl = writeTag wb) :
    settle s = { s with dmem := Memory.writeAt s.dmem wb s.dmar s.dmbr, dctrl := .none } := by
  rw [settle, stageM_write h]
  exact stageE1_none _ rfl

theorem stageE1_write {wb : Width} (h : s.dctrl = writeTag wb) : stageE1 s = s := by
  unfold stageE1
  cases wb <;> rw [h] <;> rfl

theorem dctrl_cases (d : Dctrl) : d = .none ∨ (∃ wb, d = readTag wb) ∨ ∃ wb, d = writeTag wb := by
  cases d with
  | none => exact .inl rfl
  | rdW => exact .inr (.inl ⟨.word, rfl⟩)
  | rdB => exact .inr (.inl ⟨.byte, rfl⟩)
  | wrW => exact .inr (.inr ⟨.word, rfl⟩)
  | wrB => exact .inr (.inr ⟨.byte, rfl⟩)

theorem sameRequest_read {wb : Width} (hs : s.dctrl = readTag wb) :
    sameRequest s t ↔ t.dmar = s.dmar ∧ t.lsd = s.lsd := by
  rw [sameRequest, hs]
  cases wb <;> rfl

theorem sameRequest_write {wb : Width} (hs : s.dctrl = writeTag wb) :
    sameRequest s t ↔ t.dmar = s.dmar ∧ t.dmbr = s.dmbr := by
  rw [sameRequest, hs]
  cases wb <;> rfl

/-- The pending request served leaves alike what was alike. -/
theorem SeenAlike.settle (h : SeenAlike s t) (hreq : sameRequest s t) : SeenAlike (settle s) (settle t) := by
  obtain ⟨hbank0, hbank1, hpsw, hdmem, hbubble, hdctrl⟩ := h
  rcases dctrl_cases s.dctrl with hs | ⟨wb, hs⟩ | ⟨wb, hs⟩
  · rw [settle_of_none hs, settle_of_none (hdctrl.trans hs)]
    exact ⟨hbank0, hbank1, hpsw, hdmem, hbubble, hdctrl⟩
  · obtain ⟨hdmar, hlsd⟩ := (sameRequest_read hs).mp hreq
    have hold : t.x s.lsd = s.x s.lsd := by rw [State.x, hbank0, State.x]
    rw [settle_read hs, settle_read (hdctrl.trans hs), hbank0, hdmem, hdmar, hlsd, hold]
    exact ⟨rfl, hbank1, hpsw, rfl, hbubble, rfl⟩
  · obtain ⟨hdmar, hdmbr⟩ := (sameRequest_write hs).mp hreq
    rw [settle_write hs, settle_write (hdctrl.trans hs), hdmem, hdmar, hdmbr]
    exact ⟨hbank0, hbank1, hpsw, rfl, hbubble, rfl⟩

/-! E0. -/

/-- What is alike reads alike. -/
theorem SeenAlike.x (h : SeenAlike s t) (r : Reg) : t.x r = s.x r := by rw [State.x, h.bank0, State.x]

theorem SeenAlike.pc (h : SeenAlike s t) : t.pc = s.pc := h.x .r7

theorem SeenAlike.adjustAddress (h : SeenAlike s t) (ra : Reg) (dec inc : Bool) (wb : Width) :
    SeenAlike (s.adjustAddress ra dec inc wb) (t.adjustAddress ra dec inc wb) := by
  rw [adjustAddress_eq, adjustAddress_eq, h.bank0, h.x]
  exact ⟨rfl, h.bank1, h.psw, h.dmem, h.decodeBubble, h.dctrl⟩

theorem SeenAlike.branchWhen (h : SeenAlike s t) (taken : Bool) (off : Word) :
    SeenAlike (if taken then s.branchTo off else s) (if taken then t.branchTo off else t) := by
  cases taken with
  | false => exact h
  | true =>
    rw [if_pos rfl, if_pos rfl, branchTo_eq, branchTo_eq, h.bank0, h.pc]
    exact ⟨rfl, h.bank1, h.psw, h.dmem, rfl, h.dctrl⟩

theorem SeenAlike.postRead (h : SeenAlike s t) (wb : Width) (ea : Word) (r : Reg) :
    SeenAlike (s.postRead wb ea r) (t.postRead wb ea r) ∧ sameRequest (s.postRead wb ea r) (t.postRead wb ea r) :=
  ⟨⟨h.bank0, h.bank1, h.psw, h.dmem, h.decodeBubble, rfl⟩,
    (sameRequest_read (State.postRead_dctrl_eq s wb ea r)).mpr ⟨rfl, rfl⟩⟩

theorem SeenAlike.postWrite (h : SeenAlike s t) (wb : Width) (ea w : Word) :
    SeenAlike (s.postWrite wb ea w) (t.postWrite wb ea w) ∧
    sameRequest (s.postWrite wb ea w) (t.postWrite wb ea w) :=
  ⟨⟨h.bank0, h.bank1, h.psw, h.dmem, h.decodeBubble, rfl⟩,
    (sameRequest_write (State.postWrite_dctrl_eq s wb ea w)).mpr ⟨rfl, rfl⟩⟩

/-- E0 of one instruction on two states it cannot tell apart, no request pending: what it leaves is alike, and a request
it posts is the same. -/
theorem exec_seenAlike (h : SeenAlike s t) (hnone : s.dctrl = .none) (hu : exec i s = .next u)
    (hv : exec i t = .next v) : SeenAlike u v ∧ sameRequest u v := by
  have halike := h
  cases s
  cases t
  obtain ⟨hbank0, hbank1, hpsw, hdmem, hbubble, hdctrl⟩ := h
  dsimp only at hbank0 hbank1 hpsw hdmem hbubble hdctrl hnone
  subst hbank0 hbank1 hpsw hdmem hbubble hdctrl hnone
  cases i with
  | beq | bne | bc | bnc | bn | bge | blt | bra =>
    cases hu
    cases hv
    refine ⟨halike.branchWhen _ _, sameRequest_of_none ?_⟩
    split <;> rfl
  | ld =>
    cases hu
    cases hv
    exact (halike.adjustAddress ..).postRead ..
  | st =>
    cases hu
    cases hv
    exact (halike.adjustAddress ..).postWrite ..
  | ldr =>
    cases hu
    cases hv
    exact halike.postRead ..
  | str =>
    cases hu
    cases hv
    exact halike.postWrite ..
  | _ =>
    cases hu
    cases hv
    exact ⟨⟨rfl, rfl, rfl, rfl, rfl, rfl⟩, trivial⟩

theorem State.pc_setX_other (s : State) {r : Reg} (h : r ≠ .r7) (w : Word) : (s.setX r w).pc = s.pc :=
  State.x_setX_other s r .r7 w h.symm

theorem addClass_pc {keep : Bool} {wb : Width} {dst : Reg} (h : dst ≠ .r7) (b : BitVec wb.bits) (cin : Bool)
    (s : State) : (addClass keep wb dst b cin s).pc = s.pc := by
  cases keep with
  | false => rfl
  | true => exact State.pc_setX_other _ h _

theorem logicClass_pc {keep : Bool} {wb : Width} {dst : Reg} (h : dst ≠ .r7) (r : BitVec wb.bits) (s : State) :
    (logicClass keep wb dst r s).pc = s.pc := by
  cases keep with
  | false => rfl
  | true => exact State.pc_setX_other _ h _

theorem adjustAddress_pc {ra : Reg} {dec inc : Bool} {wb : Width} (h : ra = .r7 → addressAdjust dec inc wb = 0)
    (s : State) : (s.adjustAddress ra dec inc wb).pc = s.pc := by
  by_cases hra : ra = .r7
  · rw [State.adjustAddress, if_pos (h hra)]
  · unfold State.adjustAddress
    split
    · rfl
    · exact State.pc_setX_other s hra _

/-- The E0 of an instruction that writes R7 by a branch only leaves the program counter unless it takes one
(70_reset_and_hazards.md R392). -/
theorem exec_pc_of_no_branch (hi : writesPcAtE0 i = false) (ht : exec i s = .next t)
    (hbubble : t.decodeBubble = false) : t.pc = s.pc := by
  cases i with
  | add | addc | sub | subc =>
    cases ht
    exact addClass_pc (ne_of_beq_false hi) _ _ s
  | xor | and | or | bic | bis =>
    cases ht
    exact logicClass_pc (ne_of_beq_false hi) _ s
  | dadd | mov | sra | rrc | swpb | sxt | movl | movlz | movls | movh =>
    cases ht
    exact State.pc_setX_other _ (ne_of_beq_false hi) _
  | swap =>
    cases ht
    obtain ⟨hsrc, hdst⟩ := Bool.or_eq_false_iff.mp hi
    exact (State.pc_setX_other _ (ne_of_beq_false hsrc) _).trans (State.pc_setX_other s (ne_of_beq_false hdst) _)
  | ld | st =>
    cases ht
    refine adjustAddress_pc (fun hra => ?_) s
    simpa [writesPcAtE0, hra] using hi
  | beq | bne | bc | bnc | bn | bge | blt | bra =>
    cases ht
    split at hbubble
    · exact Bool.noConfusion hbubble
    · next hnot => rw [if_neg hnot]
  | bl =>
    cases ht
    exact Bool.noConfusion hbubble
  | nop | cmp | bit | setcc | clrcc | cex | ldr | str | invalidFn2 | invalidFn5 | invalidFn6 | invalidFn7 | invalidSel4
  | invalidSel7 | invalidHigh4E | invalidHigh54 =>
    cases ht
    rfl

/-- With no request pending, the E0 of an instruction that does not load into R7 posts no read into R7
(70_reset_and_hazards.md R393). -/
theorem exec_read_destination (hi : loadsPc i = false) (hnone : s.dctrl = .none) (ht : exec i s = .next t)
    (hread : t.dctrl = .rdW ∨ t.dctrl = .rdB) : t.lsd ≠ .r7 := by
  have hno : ¬(s.dctrl = .rdW ∨ s.dctrl = .rdB) := by simp [hnone]
  cases i with
  | ld | ldr =>
    cases ht
    exact ne_of_beq_false hi
  | st _ _ _ wb | str _ wb =>
    cases ht
    cases wb <;> simp [State.postWrite] at hread
  | beq | bne | bc | bnc | bn | bge | blt | bra =>
    cases ht
    split at hread <;> exact absurd hread hno
  | _ =>
    cases ht
    exact absurd hread hno

/-! The even half-cycle, F1 and E1 against the sequential machine. -/

theorem afterM_dctrl_none_or_read (s : State) : (afterM s).dctrl = .none ∨ ∃ wb, (afterM s).dctrl = readTag wb := by
  obtain ⟨hw, hb⟩ := afterM_no_write s
  rcases dctrl_cases (afterM s).dctrl with h | h | ⟨wb, h⟩
  · exact .inl h
  · exact .inr h
  · cases wb
    · exact absurd h hw
    · exact absurd h hb

/-- E1 completes every request that M leaves, so E0 meets none. -/
theorem atExecute_afterEven_dctrl (s : State) : (afterEven s).atExecute.dctrl = .none := by
  have hkept : (afterF1 (afterEven s)).dctrl = (afterM s).dctrl := afterEven_dctrl s
  rw [State.atExecute_eq]
  rcases afterM_dctrl_none_or_read s with h | ⟨wb, h⟩
  · rw [stageE1_none _ (hkept.trans h), hkept, h]
  · rw [stageE1_read (hkept.trans h)]

/-- A write of R7 before E1 is a write of R7 after it, unless E1 completes a load into R7. -/
theorem stageE1_bank0_of_pc_written (hbank0 : t.bank0 = s.bank0.set .r7 w) (hdctrl : t.dctrl = s.dctrl)
    (hlsd : t.lsd = s.lsd) (hdmbr : t.dmbr = s.dmbr) (h : s.dctrl = .rdW ∨ s.dctrl = .rdB → s.lsd ≠ .r7) :
    (stageE1 t).bank0 = (stageE1 s).bank0.set .r7 w := by
  rcases dctrl_cases s.dctrl with hd | ⟨wb, hd⟩ | ⟨wb, hd⟩
  · rw [stageE1_none s hd, stageE1_none t (hdctrl.trans hd), hbank0]
  · have hne : s.lsd ≠ .r7 := h (by cases wb <;> simp [hd, readTag])
    have hold : t.x s.lsd = s.x s.lsd := by rw [State.x, hbank0, Bank.get_set_other _ _ _ _ hne, State.x]
    rw [stageE1_read hd, stageE1_read (hdctrl.trans hd), hbank0, hlsd, hdmbr, hold]
    exact Bank.set_comm _ _ _ _ _ hne.symm
  · rw [stageE1_write hd, stageE1_write (hdctrl.trans hd), hbank0]

/-- The bank E0 meets: the pending request served, with the program counter that F0 left, when no load into R7 is
pending. -/
theorem atExecute_afterEven_bank0 (h : s.dctrl = .rdW ∨ s.dctrl = .rdB → s.lsd ≠ .r7) :
    (afterEven s).atExecute.bank0 = (settle s).bank0.set .r7 (s.pc + 2) := by
  have hread : (afterM s).dctrl = .rdW ∨ (afterM s).dctrl = .rdB → s.dctrl = .rdW ∨ s.dctrl = .rdB := by
    rw [afterM_dctrl]
    cases s.dctrl <;> simp
  have hbank0 : (afterEven s).bank0 = (afterM s).bank0.set .r7 (s.pc + 2) := by rw [afterEven_bank0, afterM_bank0]
  rw [State.atExecute_eq, settle_eq]
  refine stageE1_bank0_of_pc_written hbank0 (afterEven_dctrl s) ?_ (afterEven_dmbr s) ?_
  · exact (afterEven_lsd s).trans (afterM_lsd s).symm
  · rw [afterM_lsd]
    exact fun hd => h (hread hd)

theorem atExecute_afterEven_pc (h : s.dctrl = .rdW ∨ s.dctrl = .rdB → s.lsd ≠ .r7) :
    (afterEven s).atExecute.pc = s.pc + 2 := by
  rw [State.pc_eq, atExecute_afterEven_bank0 h, Bank.get_set_same]

theorem settle_psw (s : State) : (settle s).psw = s.psw := by rw [settle_eq, stageE1_psw, afterM_psw]

theorem settle_dmem (s : State) : (settle s).dmem = (afterM s).dmem := by rw [settle_eq, stageE1_dmem]

/-! The sequential state at the end of a cycle. -/

theorem sequential_of_alike (h : SeenAlike s t) (hreq : sameRequest s t) (hcex : t.cex = s.cex)
    (himem : t.imem = s.imem) : t.sequential = s.sequential := by
  have hset := h.settle hreq
  simp only [State.sequential, hset.bank0, hset.dmem, h.bank1, h.psw, h.decodeBubble, h.pc, hcex, himem]

/-- The clock and the checks change nothing a program sees (40_pipeline_step.md R146, R147). -/
theorem sequential_endOfCycle (odd : Bool) (s : State) :
    (endChecks odd (tickClock s)).sequential = s.sequential := by
  have halike : SeenAlike s (endChecks odd (tickClock s)) := by constructor <;> simp
  refine sequential_of_alike halike ?_ (by simp) (by simp)
  unfold sameRequest
  split <;> simp

/-- `cycleStart` at the end of a cycle, by the state that E0 left. -/
theorem cycleStart_endOfCycle (hodd : oddClock s = true) (hbubble : s.executeBubble = false)
    (hir : s.decodeBubble = false → s.ir = Memory.readWord s.imem (s.pc - 2))
    (hread : s.dctrl = .rdW ∨ s.dctrl = .rdB → s.lsd ≠ .r7) : cycleStart (endChecks true (tickClock s)) := by
  have heven : oddClock (endChecks true (tickClock s)) = false := by
    rw [oddClock, endChecks_clock, ← oddClock, oddClock_tickClock, hodd, Bool.not_true]
  have hpc : (endChecks true (tickClock s)).pc = s.pc := by rw [State.pc_eq, endChecks_bank0]; rfl
  refine ⟨heven, ?_, ?_, ?_⟩
  · simpa using hbubble
  · simpa [hpc] using hir
  · simpa using hread

/-! One turn of the sequential machine (40_pipeline_step.md R151). -/

theorem SeqState.next_of_skip {q : SeqState} (hopen : q.cex.status ≠ .disabled) (hact : windowAct q.cex = .skip) :
    q.next = SeqState.skip { q with cex := windowNext q.cex } := by
  simp only [SeqState.next, if_neg hopen, hact]

theorem SeqState.next_of_run {q : SeqState} (h : windowRuns q.cex) :
    q.next = SeqState.runWord { q with cex := windowAfterWord q.cex } := by
  by_cases hopen : q.cex.status = .disabled
  · simp only [SeqState.next, if_pos hopen, windowAfterWord]
  · simp only [SeqState.next, if_neg hopen, windowAfterWord, h.resolve_left hopen]

theorem SeqState.perform_of_exec {q : SeqState} (h : exec i q.asState = .next t) :
    q.perform i = { q with
      regs := (settle t).bank0.set .r7 (if t.decodeBubble then t.pc else q.regs.r7 + 2)
      psw := (settle t).psw
      dmem := (settle t).dmem } := by
  rw [SeqState.perform, h]

theorem SeqState.perform_report (q : SeqState) (i : Instr) : (q.perform i).report = q.report := by
  obtain ⟨t, ht, -⟩ := exec_next_frame i q.asState
  rw [SeqState.perform_of_exec ht]

/-! One cycle. -/

/-- The word F1 brings in is the one before the program counter that E0 meets. -/
theorem atExecute_afterEven_ir (h : s.dctrl = .rdW ∨ s.dctrl = .rdB → s.lsd ≠ .r7) :
    (afterEven s).atExecute.ir = Memory.readWord s.imem ((afterEven s).atExecute.pc - 2) := by
  rw [State.atExecute_ir, afterEven_imem, afterEven_imar, atExecute_afterEven_pc h, BitVec.add_sub_cancel]

theorem oddClock_atExecute (s : State) : oddClock s.atExecute = oddClock s := by
  rw [oddClock, State.atExecute_ctl, ← oddClock]

/-- A cycle whose D0 makes a bubble: the program counter goes on by one word, the request pending is served, and nothing
is executed. -/
theorem cycle_of_bubble (hu : undisturbed s) (hc : cycleStart s) (hbubble : (afterEven s).executeBubble = true) :
    ∃ u, step (afterEven s) = .next u ∧ cycleStart u ∧
      u.sequential = { s.sequential with regs := s.sequential.regs.set .r7 s.pc, cex := (afterEven s).cex } := by
  obtain ⟨heven, -, -, hload⟩ := hc
  obtain ⟨hin, hrun, -⟩ := undisturbed_afterEven hu
  have hodd : oddClock (afterEven s) = true := by rw [oddClock_afterEven, heven, Bool.not_false]
  have hdctrl := atExecute_afterEven_dctrl s
  have hir := atExecute_afterEven_ir hload
  have hpc := atExecute_afterEven_pc hload
  have halike : SeenAlike (afterEven s).atExecute { (afterEven s).atExecute with executeBubble := false } :=
    ⟨rfl, rfl, rfl, rfl, rfl, rfl⟩
  refine ⟨_, step_bubble hin hrun hodd hbubble, cycleStart_endOfCycle ?_ rfl (fun _ => ?_) ?_, ?_⟩
  · exact (oddClock_atExecute _).trans hodd
  · exact hir.trans (by simp [State.pc_eq])
  · simp [hdctrl]
  · rw [sequential_endOfCycle, sequential_of_alike halike (sameRequest_of_none hdctrl) rfl rfl]
    simp [State.sequential, settle_of_none hdctrl, settle_dmem, hpc, atExecute_afterEven_bank0 hload]

/-- `apc` is the address of the word to be decoded (40_pipeline_step.md R151). -/
theorem sequential_r7 (hb : s.decodeBubble = false) : s.sequential.regs.r7 = s.pc - 2 := by
  simp [State.sequential, hb, Bank.set]

/-- The state E0 meets in a cycle looks to a program as the one the sequential machine executes in: `x[7]` is `apc + 4`
and no request is pending (40_pipeline_step.md R151). -/
theorem atExecute_seenAlike_asState (h : s.dctrl = .rdW ∨ s.dctrl = .rdB → s.lsd ≠ .r7) (hb : s.decodeBubble = false)
    (c : CexState) (r : Option Word) :
    SeenAlike (afterEven s).atExecute { s.sequential with cex := c, report := r }.asState := by
  have hbank0 : { s.sequential with cex := c, report := r }.asState.bank0 = (settle s).bank0.set .r7 (s.pc + 2) := by
    have happ : s.sequential.regs.r7 + 4 = s.pc + 2 := by
      rw [sequential_r7 hb]
      bv_omega
    rw [SeqState.asState, happ, State.sequential, Bank.set_set]
  refine ⟨?_, ?_, ?_, ?_, ?_, ?_⟩
  · rw [hbank0, atExecute_afterEven_bank0 h]
  · rw [State.atExecute_bank1, afterEven_bank1]
    rfl
  · rw [State.atExecute_psw, afterEven_psw]
    rfl
  · rw [State.atExecute_dmem, afterEven_dmem, ← settle_dmem]
    rfl
  · rw [State.atExecute_decodeBubble, afterEven_decodeBubble]
    rfl
  · rw [atExecute_afterEven_dctrl]
    rfl

/-- A cycle whose D0 decodes a word performs it as the sequential machine does. -/
theorem cycle_of_word (hu : undisturbed s) (hc : cycleStart s) (hsquash : s.decodeBubble = false)
    (hbubble : (afterEven s).executeBubble = false) (hi : redirectsPc (afterEven s).dec = false) (r : Option Word) :
    ∃ u, step (afterEven s) = .next u ∧ cycleStart u ∧
      u.sequential =
        { SeqState.perform { s.sequential with cex := (afterEven s).cex, report := r } (afterEven s).dec with
          report := none } := by
  obtain ⟨heven, -, -, hload⟩ := hc
  obtain ⟨hin, hrun, -⟩ := undisturbed_afterEven hu
  have hodd : oddClock (afterEven s) = true := by rw [oddClock_afterEven, heven, Bool.not_false]
  have hdctrl := atExecute_afterEven_dctrl s
  have hir := atExecute_afterEven_ir hload
  have hpc := atExecute_afterEven_pc hload
  obtain ⟨hwrites, hloads⟩ := Bool.or_eq_false_iff.mp hi
  obtain ⟨m, hm, hf⟩ := exec_next_frame (afterEven s).dec (afterEven s).atExecute
  obtain ⟨n, hn, -⟩ :=
    exec_next_frame (afterEven s).dec { s.sequential with cex := (afterEven s).cex, report := r }.asState
  have halike := exec_seenAlike (atExecute_seenAlike_asState hload hsquash _ r) hdctrl hm hn
  refine ⟨_, step_execute hin hrun hodd hbubble hm, cycleStart_endOfCycle ?_ ?_ (fun hb => ?_) ?_, ?_⟩
  · rw [oddClock, hf.ctl, ← oddClock, oddClock_atExecute, hodd]
  · rw [hf.executeBubble, State.atExecute_executeBubble, hbubble]
  · rw [hf.ir, hf.imem, exec_pc_of_no_branch hwrites hm hb, hir, State.atExecute_imem, afterEven_imem]
  · exact exec_read_destination hloads hdctrl hm
  · obtain ⟨hnm, hreq⟩ := halike
    have hsettle := hnm.settle hreq
    have happ : (if m.decodeBubble then m.pc else m.pc - 2) = if m.decodeBubble then m.pc else s.pc - 2 + 2 := by
      cases hb : m.decodeBubble with
      | true => rfl
      | false =>
        rw [exec_pc_of_no_branch hwrites hm hb, hpc, BitVec.add_sub_cancel, BitVec.sub_add_cancel]
    have himem : m.imem = s.imem := by rw [hf.imem, State.atExecute_imem, afterEven_imem]
    have hbank1 : m.bank1 = s.bank1 := by rw [hf.bank1, State.atExecute_bank1, afterEven_bank1]
    have hcex : m.cex = (afterEven s).cex := by rw [hf.cex, State.atExecute_cex]
    rw [sequential_endOfCycle, SeqState.perform_of_exec hn, hnm.decodeBubble, hnm.pc, hsettle.bank0, hsettle.psw,
      hsettle.dmem, sequential_r7 hsquash, ← happ, settle_psw]
    simp only [State.sequential, himem, hbank1, hcex]

/-- Settles O40, by what D0 does with the word: squash it, skip it, or decode it. -/
theorem pipelineRefinesSequentialMachine : Obligations.PipelineRefinesSequentialMachine := by
  intro s hu hc hredirects
  have ⟨heven, hexecute, hir, hload⟩ := hc
  have hstep := step_even_undisturbed hu heven
  cases hsquash : s.decodeBubble with
  | true =>
    obtain ⟨hbubble, hcex, hinvalid⟩ := afterEven_squash hsquash
    obtain ⟨u, hodd, hcu, hseq⟩ := cycle_of_bubble hu hc hbubble
    refine ⟨_, u, hstep, hodd, hcu, hinvalid, ?_⟩
    rw [hseq, hcex]
    simp [State.sequential, hsquash]
  | false =>
    have hr7 := sequential_r7 hsquash
    rcases windowRuns_or_skips s.cex with hrun | ⟨hopen, hact⟩
    · obtain ⟨hbubble, hdec, hcex, hinvalid⟩ := afterEven_decodes hsquash hrun
      have hword : Memory.readWord s.imem s.sequential.regs.r7 = s.ir := by rw [hr7, hir hsquash]
      have hnext : s.sequential.next = SeqState.perform
          { s.sequential with cex := (afterEven s).cex, report := (afterEven s).invalid } (decode s.ir) := by
        rw [SeqState.next_of_run (q := s.sequential) hrun, hcex, hinvalid, ← hword]
        rfl
      obtain ⟨u, hodd, hcu, hseq⟩ := cycle_of_word hu hc hsquash (hbubble.trans hexecute)
        (by rw [hdec, hredirects hsquash]) (afterEven s).invalid
      refine ⟨_, u, hstep, hodd, hcu, ?_, ?_⟩
      · rw [hnext, SeqState.perform_report]
        rfl
      · rw [hseq, hnext, hdec]
        rfl
    · obtain ⟨hbubble, hcex, hinvalid⟩ := afterEven_skip hsquash hopen hact
      obtain ⟨u, hodd, hcu, hseq⟩ := cycle_of_bubble hu hc hbubble
      have hnext := SeqState.next_of_skip (q := s.sequential) hopen hact
      refine ⟨_, u, hstep, hodd, hcu, ?_, ?_⟩
      · rw [hinvalid, hnext]
        rfl
      · rw [hseq, hnext, SeqState.skip, hcex, hr7, BitVec.sub_add_cancel]
        rfl

end Sys2Proof.Machine
end

section
/-! SUPPORT. The branches: the word of each offset, the target of a taken branch and what it leaves unchanged
(30_encoding.md R93, R94, R105; 41_branch.md R180 to R192). -/

namespace Sys2Proof.Machine

/-! The words. -/

/-- Every 13-bit offset but 0, which is NOP's, is the offset of its own BL word (R93). -/
theorem decode_blWord {o : BitVec 13} (ho : o ≠ 0) : decode (0b000#3 ++ o) = .bl (branchOff13 o) := by
  have hwf : WellFormed (.bl (branchOff13 o)) := decide_eq_true (branchRange13_branchOff13 ho)
  have hencode : encode (.bl (branchOff13 o)) = 0b000#3 ++ o := by rw [encode, off13Field_branchOff13]
  rw [← hencode, decode_encode hwf]

theorem formatB10_branchOff10 (code : BitVec 3) (o : BitVec 10) :
    formatB10 code (branchOff10 o) = 0b001#3 ++ code ++ o := by
  rw [formatB10, off10Field_branchOff10]

/-! The jump. -/

/-- At E0 the program counter is 4 past the branch: the offset, which is 2 less than the displacement, counts from the
word after the branch (R105, R181). -/
theorem add_four_add_wordOffset (a disp : Word) : a + 4 + (disp - 2) = a + 2 + disp := by bv_omega

@[simp] theorem State.pc_branchTo (s : State) (off : Word) : (s.branchTo off).pc = s.pc + off := rfl

@[simp] theorem State.x_branchTo_other (s : State) (off : Word) (r : Reg) (h : r ≠ .r7) :
    (s.branchTo off).x r = s.x r := s.x_setX_other .r7 r (s.pc + off) h

/-- BL jumps and writes the link register, both from the program counter it meets (R183). -/
theorem exec_bl (off : Word) (s : State) : exec (.bl off) s = .next ((s.branchTo off).setX .r5 (s.pc - 2)) := rfl

/-- Settles O7: the link register is not the program counter, so BL's two writes do not meet. -/
theorem branchWithLink : Obligations.BranchWithLink := by
  intro o a s ho hpc
  refine ⟨decode_blWord ho, _, exec_bl _ s, ?link, ?target, ?others, rfl⟩
  case link =>
    rw [State.x_setX_same, hpc]
    bv_omega
  case target =>
    calc ((s.branchTo _).setX .r5 (s.pc - 2)).pc
        = (s.branchTo _).pc := State.x_setX_other _ .r5 .r7 _ (by decide)
      _ = a + 2 + _ := by rw [State.pc_branchTo, hpc, add_four_add_wordOffset]
  case others =>
    intro r h5 h7
    rw [State.x_setX_other _ _ _ _ h5, State.x_branchTo_other _ _ _ h7]

/-- An instruction of format B10 whose E0 is the conditional jump is a conditional branch: what is left to each of the
eight is its code and its condition (R94, R182, R192). -/
theorem branchesAs_of_formatB10 {code : BitVec 3} {mk : Word → Instr} {taken : Word → Bool}
    (hwf : ∀ off, wellFormed (mk off) = decide (branchRange10 off))
    (hencode : ∀ off, encode (mk off) = formatB10 code off)
    (hexec : ∀ off s, exec (mk off) s = branchWhen (taken s.psw) off s) : branchesAs code mk taken := by
  intro o a s hpc
  constructor
  · have hdecode : decode (encode (mk (branchOff10 o))) = mk (branchOff10 o) :=
      decode_encode ((hwf _).trans (decide_eq_true (branchRange10_branchOff10 o)))
    rwa [hencode, formatB10_branchOff10] at hdecode
  · rw [hexec, branchWhen_spec, branchTo_eq, hpc, add_four_add_wordOffset]

/-- Settles O8: each of the eight by its code and its condition. -/
theorem conditionalBranches : Obligations.ConditionalBranches := by
  refine ⟨?beq, ?bne, ?bc, ?bnc, ?bn, ?bge, ?blt, ?bra⟩
  all_goals exact branchesAs_of_formatB10 (fun _ => rfl) (fun _ => rfl) (fun _ _ => rfl)

end Sys2Proof.Machine
end

section
/-! SUPPORT. A W-bit result in its register, and the flags that say that a result is zero
(42_arithmetic_logic.md R200, R202). -/

namespace Sys2Proof.Machine

variable {s t : State}

/-- A bank in which the merged result is written is what the statements call a written result (R200). -/
theorem writesResult_of_set {wb : Width} {r : Reg} {v : BitVec wb.bits}
    (h : t.bank0 = s.bank0.set r (mergeBits wb (s.x r) v)) : writesResult s t wb r v.toNat := by
  obtain ⟨hsame, hother⟩ := onlyRegister_of_set h
  refine ⟨?_, ?_, hother⟩
  · rw [State.operand, hsame, lowBits_mergeBits]
  · rintro rfl
    rw [hsame, mergeBits_byte_high]

/-- The operand of the register written is the result. -/
theorem operand_of_set {wb : Width} {r : Reg} {v : BitVec wb.bits}
    (h : t.bank0 = s.bank0.set r (mergeBits wb (s.x r) v)) : t.operand r wb = v :=
  BitVec.eq_of_toNat_eq (writesResult_of_set h).1

theorem bits_pos (wb : Width) : 0 < wb.bits := by cases wb <;> decide

/-- A result is zero when the number it stands for is. -/
theorem beq_zero_eq_decide_toNat {n : Nat} (r : BitVec n) : (r == 0#n) = decide (r.toNat = 0) := by
  rw [beq_eq_decide, decide_eq_decide]
  exact BitVec.toNat_inj.symm

end Sys2Proof.Machine
end

section
/-! SUPPORT. The adder on numbers: its result and its carry make up the exact sum, and the sign-bit table of R203 is
that carry and the overflow of the signed sum (42_arithmetic_logic.md R201 to R203). -/

namespace Sys2Proof.Machine

section
variable {n : Nat} (d b : BitVec n) (cin : Bool)

/-- The exact sum is the result and a carry of weight 2^W (R201). -/
theorem addResult_add_carry :
    (addResult d b cin).toNat + (if 2 ^ n ≤ d.toNat + b.toNat + cin.toNat then 2 ^ n else 0) =
      d.toNat + b.toNat + cin.toNat := by
  have hd := d.isLt
  have hb := b.isLt
  have hc := cin.toNat_le
  rw [addResult_toNat]
  split
  · next h => rw [Nat.mod_eq_sub_mod h, Nat.mod_eq_of_lt (by omega)]; omega
  · next h => rw [Nat.mod_eq_of_lt (by omega), Nat.add_zero]

/-- The sign bit tells which half of the range a value lies in. -/
theorem msb_cases (x : BitVec n) :
    x.msb = false ∧ x.toNat < 2 ^ (n - 1) ∨ x.msb = true ∧ 2 ^ (n - 1) ≤ x.toNat := by
  rw [x.msb_eq_decide]
  by_cases h : 2 ^ (n - 1) ≤ x.toNat
  · exact .inr ⟨decide_eq_true h, h⟩
  · exact .inl ⟨decide_eq_false h, Nat.lt_of_not_le h⟩

theorem two_pow_eq_double (hn : 0 < n) : 2 ^ n = 2 * 2 ^ (n - 1) := by
  rw [← Nat.pow_succ', Nat.succ_eq_add_one, Nat.sub_one_add_one hn.ne']

/-- The carry column of the table is the carry out of the exact sum, row by row (R203). -/
theorem carryTable_addResult (hn : 0 < n) (d b : BitVec n) (cin : Bool) :
    carryTable b.msb d.msb (addResult d b cin).msb = decide (2 ^ n ≤ d.toNat + b.toNat + cin.toNat) := by
  have hsum := addResult_add_carry d b cin
  have hc := cin.toNat_le
  have hhalf := two_pow_eq_double hn
  have hlt := (addResult d b cin).isLt
  obtain ⟨hb, hb'⟩ | ⟨hb, hb'⟩ := msb_cases b <;> obtain ⟨hd, hd'⟩ | ⟨hd, hd'⟩ := msb_cases d <;>
    obtain ⟨hr, hr'⟩ | ⟨hr, hr'⟩ := msb_cases (addResult d b cin)
  all_goals
    simp only [hb, hd, hr, carryTable, false_eq_decide_iff, true_eq_decide_iff]
    split at hsum <;> omega

/-- The overflow column: two operands of one sign and a result of the other (R203). -/
theorem overflowTable_eq (sb sd sr : Bool) : overflowTable sb sd sr = (sb == sd && sr != sd) := by
  cases sb <;> cases sd <;> cases sr <;> rfl

/-- The overflow column of the table says that the exact signed sum is out of the range of W bits, row by row (R203). -/
theorem overflowTable_addResult (hn : 0 < n) (d b : BitVec n) (cin : Bool) :
    overflowTable b.msb d.msb (addResult d b cin).msb =
      decide (d.toInt + b.toInt + cin.toNat < -(2 ^ (n - 1)) ∨ 2 ^ (n - 1) ≤ d.toInt + b.toInt + cin.toNat) := by
  have hsum := addResult_add_carry d b cin
  have hc := cin.toNat_le
  have hhalf := two_pow_eq_double hn
  have hcast : ((2 ^ (n - 1) : Nat) : Int) = 2 ^ (n - 1) := by norm_cast
  rw [← hcast, d.toInt_eq_msb_cond, b.toInt_eq_msb_cond]
  obtain ⟨hb, hb'⟩ | ⟨hb, hb'⟩ := msb_cases b <;> obtain ⟨hd, hd'⟩ | ⟨hd, hd'⟩ := msb_cases d <;>
    obtain ⟨hr, hr'⟩ | ⟨hr, hr'⟩ := msb_cases (addResult d b cin)
  all_goals
    simp only [hb, hd, hr, overflowTable, false_eq_decide_iff, true_eq_decide_iff, if_true, Bool.false_eq_true,
      if_false]
    split at hsum <;> omega

end

end Sys2Proof.Machine
end

section
/-! SUPPORT. The add-class instructions, each by its adder input and its carry-in (42_arithmetic_logic.md R205 to R208,
R213). -/

namespace Sys2Proof.Machine

/-- An instruction whose E0 is an add-class operation adds as the statements say: what is left to each of the five is
its adder input and its carry-in. -/
theorem addsAs_of_addClass {mk : Source → Width → Reg → Instr} {complement keep : Bool} {cin : Word → Bool}
    (hexec : ∀ src wb dst s, exec (mk src wb dst) s =
      .next (addClass keep wb dst (if complement then ~~~(s.source src wb) else s.source src wb) (cin s.psw) s)) :
    addsAs mk complement keep cin := by
  intro src wb dst s
  refine ⟨_, hexec src wb dst s, ?_⟩
  intro d b sum signed r
  obtain ⟨hpsw, hbank0, hframe⟩ := addClass_spec keep wb dst b (cin s.psw) s
  obtain ⟨hC, hV, hZ, hN, hkept⟩ := flagsAdd_spec s.psw b d (addResult d b (cin s.psw))
  have hr : (addResult d b (cin s.psw)).toNat = r := addResult_toNat d b (cin s.psw)
  rw [← hpsw] at hC hV hZ hN hkept
  refine ⟨?register, ?carry, ?overflow, ?zero, ?negative, by simpa [otherFlagsKept] using hkept, hframe⟩
  case register =>
    cases keep with
    | true => exact hr ▸ writesResult_of_set hbank0
    | false => exact hbank0
  case carry => exact hC.trans (carryTable_addResult (bits_pos wb) d b _)
  case overflow => exact hV.trans (overflowTable_addResult (bits_pos wb) d b _)
  case zero => rw [hZ, beq_zero_eq_decide_toNat, hr]
  case negative => rw [hN, BitVec.msb_eq_decide, hr]

/-- Settles O9: each of the five by its adder input and its carry-in. -/
theorem addClassInstructions : Obligations.AddClassInstructions := by
  refine ⟨?add, ?addc, ?sub, ?subc, ?cmp⟩
  all_goals exact addsAs_of_addClass (fun _ _ _ _ => rfl)

/-- A subtraction adds the complement and 1: it carries exactly when it needs no borrow (R207). -/
theorem two_pow_le_add_not_add_one_iff {n : Nat} (d b : BitVec n) :
    2 ^ n ≤ d.toNat + (~~~b).toNat + 1 ↔ b.toNat ≤ d.toNat := by
  have hb := b.isLt
  rw [BitVec.toNat_not]
  omega

/-- Settles O10: the table by its rows, the two columns by the exact sums, and the borrow by the complement. -/
theorem carryOverflowTable : Obligations.CarryOverflowTable := by
  refine ⟨rfl, fun wb d b cin => ⟨carryTable_addResult (bits_pos wb) d b cin, overflowTable_eq _ _ _⟩, ?borrow⟩
  intro src wb dst s
  refine ⟨_, _, rfl, rfl, rfl, ?_⟩
  obtain ⟨hC, -⟩ := flagsAdd_spec s.psw (~~~(s.source src wb)) (s.operand dst wb)
    (addResult (s.operand dst wb) (~~~(s.source src wb)) true)
  refine hC.trans ((carryTable_addResult (bits_pos wb) _ _ true).trans ?_)
  exact decide_eq_decide.mpr (two_pow_le_add_not_add_one_iff _ _)

/-! ADD and SUB undo each other (R205, R207). -/

/-- Subtracting what was added gives the first operand back. -/
theorem addResult_not_addResult {n : Nat} (d b : BitVec n) : addResult (addResult d b false) (~~~b) true = d := by
  apply BitVec.eq_of_toNat_eq
  rw [addResult_toNat, addResult_toNat, BitVec.toNat_not]
  have hb := b.isLt
  have hd := d.isLt
  have hsum : d.toNat + b.toNat + (2 ^ n - 1 - b.toNat) + 1 = d.toNat + 2 ^ n := by omega
  calc ((d.toNat + b.toNat + 0) % 2 ^ n + (2 ^ n - 1 - b.toNat) + 1) % 2 ^ n
      = (d.toNat + b.toNat + (2 ^ n - 1 - b.toNat) + 1) % 2 ^ n := by simp [Nat.add_assoc]
    _ = d.toNat := by rw [hsum, Nat.add_mod_right, Nat.mod_eq_of_lt hd]

/-- A write to one register leaves every operand that another register or a constant supplies. -/
theorem State.source_of_set {s t : State} {src : Source} {dst : Reg} {v : Word} (hsrc : src ≠ .reg dst)
    (hbank0 : t.bank0 = s.bank0.set dst v) (hbank1 : t.bank1 = s.bank1) (wb : Width) :
    t.source src wb = s.source src wb := by
  cases src with
  | reg r =>
    have hr : r ≠ dst := fun h => hsrc (congrArg _ h)
    rw [State.source, State.sourceWord, (onlyRegister_of_set hbank0).2 r hr, State.source, State.sourceWord]
  | const k => rw [State.source, State.sourceWord, State.k, hbank1, State.source, State.sourceWord, State.k]

/-- Writing an operand back over a result of its width gives the bank back. -/
theorem State.set_operand_of_set {s t : State} {wb : Width} {dst : Reg} {v : BitVec wb.bits}
    (h : t.bank0 = s.bank0.set dst (mergeBits wb (s.x dst) v)) :
    t.bank0.set dst (mergeBits wb (t.x dst) (s.operand dst wb)) = s.bank0 := by
  rw [(onlyRegister_of_set h).1, h, Bank.set_set, mergeBits_mergeBits, State.operand, mergeBits_lowBits]
  exact Bank.set_get s.bank0 dst

/-- Settles O14: the operand is still there after ADD, and SUB takes the sum back to the value it was made from. -/
theorem subUndoesAdd : Obligations.SubUndoesAdd := by
  intro src wb dst s hsrc
  let b := s.source src wb
  let t := addClass true wb dst b false s
  obtain ⟨-, hadd, hframe⟩ := addClass_spec true wb dst b false s
  have hsource : t.source src wb = b := State.source_of_set hsrc hadd (congrArg State.bank1 hframe :) wb
  have hback : addResult (t.operand dst wb) (~~~b) true = s.operand dst wb := by
    rw [operand_of_set hadd, addResult_not_addResult]
  obtain ⟨hpsw, hsub, -⟩ := addClass_spec true wb dst (~~~b) true t
  rw [hback] at hpsw hsub
  obtain ⟨-, -, hZ, hN, -⟩ := flagsAdd_spec t.psw (~~~b) (t.operand dst wb) (s.operand dst wb)
  refine ⟨t, addClass true wb dst (~~~b) true t, rfl, by rw [← hsource]; rfl, ?bank0, ?zero, ?negative⟩
  case bank0 => exact hsub.trans (State.set_operand_of_set hadd)
  case zero => rw [hpsw, hZ]; rfl
  case negative => rw [hpsw, hN]

end Sys2Proof.Machine
end

section
/-! SUPPORT. The logical instructions bit by bit (42_arithmetic_logic.md R214 to R219). -/

namespace Sys2Proof.Machine

/-- A result is zero when each of its bits is clear (R202). -/
theorem beq_zero_eq_decide_bits {n : Nat} (r : BitVec n) :
    (r == 0#n) = decide (∀ k, k < n → r.getLsbD k = false) := by
  rw [beq_eq_decide, decide_eq_decide]
  constructor
  · rintro rfl k -
    exact BitVec.getLsbD_zero
  · intro h
    exact BitVec.eq_of_getLsbD_eq fun k hk => (h k hk).trans BitVec.getLsbD_zero.symm

/-- An instruction whose E0 is a logical operation combines its operands bit by bit: what is left to each of the six is
its function of two operands and of two bits. -/
theorem combinesAs_of_logicClass {mk : Source → Width → Reg → Instr} {f : Bool → Bool → Bool} {keep : Bool}
    {op : (wb : Width) → BitVec wb.bits → BitVec wb.bits → BitVec wb.bits}
    (hexec : ∀ src wb dst s,
      exec (mk src wb dst) s = .next (logicClass keep wb dst (op wb (s.operand dst wb) (s.source src wb)) s))
    (hop : ∀ wb d b k, k < wb.bits → (op wb d b).getLsbD k = f (d.getLsbD k) (b.getLsbD k)) :
    combinesAs mk f keep := by
  intro src wb dst s
  refine ⟨_, hexec src wb dst s, ?_⟩
  intro bit
  have hbit : ∀ k, k < wb.bits → (op wb (s.operand dst wb) (s.source src wb)).getLsbD k = bit k := by
    intro k hk
    rw [hop wb _ _ k hk, State.operand, State.source, lowBits_getLsbD, lowBits_getLsbD, decide_eq_true hk,
      Bool.true_and, Bool.true_and]
  generalize op wb (s.operand dst wb) (s.source src wb) = r at hbit
  obtain ⟨hpsw, hbank0, hframe⟩ := logicClass_spec keep wb dst r s
  obtain ⟨hZ, hN, hkept⟩ := flagsZN_spec s.psw r
  rw [← hpsw] at hZ hN hkept
  refine ⟨?register, ?zero, ?negative, by simpa [otherFlagsKept] using hkept, hframe⟩
  case register =>
    cases keep with
    | false => exact hbank0
    | true =>
      obtain ⟨hsame, hother⟩ := onlyRegister_of_set hbank0
      refine ⟨fun k hk => ?_, fun k hk => ?_, hother⟩
      · rw [hsame, mergeBits_getLsbD, if_pos hk, hbit k hk]
      · rw [hsame, mergeBits_getLsbD, if_neg (Nat.not_lt.mpr hk)]
  case zero =>
    rw [hZ, beq_zero_eq_decide_bits, decide_eq_decide]
    exact forall₂_congr fun k hk => by rw [hbit k hk]
  case negative => rw [hN, BitVec.msb_eq_getLsbD_last, hbit _ (Nat.sub_lt (bits_pos wb) Nat.one_pos)]

/-- Settles O13: each of the six by its function of two operands. -/
theorem logicalInstructions : Obligations.LogicalInstructions := by
  refine ⟨?xor, ?and, ?or, ?bit, ?bic, ?bis⟩
  case xor => exact combinesAs_of_logicClass (op := fun _ d b => d ^^^ b) (fun _ _ _ _ => rfl) (by simp)
  case and | bit => exact combinesAs_of_logicClass (op := fun _ d b => d &&& b) (fun _ _ _ _ => rfl) (by simp)
  case or | bis => exact combinesAs_of_logicClass (op := fun _ d b => d ||| b) (fun _ _ _ _ => rfl) (by simp)
  case bic =>
    refine combinesAs_of_logicClass (op := fun _ d b => d &&& ~~~b) (fun _ _ _ _ => rfl) fun wb d b k hk => ?_
    simp [hk]

end Sys2Proof.Machine
end

section
/-! SUPPORT. The decimal addition digit by digit: the carries between the digits, and decimal digits as the number they
stand for (42_arithmetic_logic.md R209 to R212). -/

namespace Sys2Proof.Machine

/-! The groups of four bits. -/

theorem nibble_zero (v : Nat) : nibble v 0 = v % 16 := by rw [nibble, pow_zero, Nat.div_one]

theorem nibble_succ (v i : Nat) : nibble v (i + 1) = nibble (v / 16) i := by
  rw [nibble, nibble, Nat.div_div_eq_div_mul, Nat.pow_succ']

theorem nibble_lt (v i : Nat) : nibble v i < 16 := Nat.mod_lt _ (by decide)

/-! A digit put below a number is its lowest group, the groups of the number are the others. -/

theorem cons_mod_base {digit : Nat} (h : digit < 16) (v : Nat) : (digit + 16 * v) % 16 = digit := by omega

theorem cons_div_base {digit : Nat} (h : digit < 16) (v : Nat) : (digit + 16 * v) / 16 = v := by omega

theorem nibble_cons_zero {digit : Nat} (h : digit < 16) (v : Nat) : nibble (digit + 16 * v) 0 = digit := by
  rw [nibble_zero, cons_mod_base h]

theorem nibble_cons_succ {digit : Nat} (h : digit < 16) (v i : Nat) :
    nibble (digit + 16 * v) (i + 1) = nibble v i := by
  rw [nibble_succ, cons_div_base h]

/-! The groups of the lowest bits. -/

theorem nibble_mod {n i : Nat} (h : i < n) (v : Nat) : nibble (v % 16 ^ n) i = nibble v i := by
  have hsplit : 16 ^ n = 16 ^ i * 16 ^ (n - i) := (pow_mul_pow_sub 16 h.le).symm
  have hdvd : 16 ∣ 16 ^ (n - i) := dvd_pow_self 16 (Nat.sub_ne_zero_of_lt h)
  rw [nibble, hsplit, Nat.mod_mul_right_div_self, Nat.mod_mod_of_dvd _ hdvd, nibble]

theorem two_pow_bits_eq (wb : Width) : 2 ^ wb.bits = 16 ^ digitCount wb := by cases wb <;> rfl

/-- The groups of an operand are the lowest groups of its register (R200). -/
theorem nibble_lowBits {wb : Width} {i : Nat} (h : i < digitCount wb) (v : Word) :
    nibble (lowBits wb v).toNat i = nibble v.toNat i := by
  rw [lowBits, BitVec.toNat_setWidth, two_pow_bits_eq, nibble_mod h]

/-! The digit loop (R210). -/

/-- The carry into the `i`-th digit of the addition of `d` and `s` with carry `c` into the lowest. -/
def carryInto (d s c : Nat) : Nat → Nat
  | 0 => c
  | i + 1 => if nibble d i + nibble s i + carryInto d s c i > 9 then 1 else 0

/-- The sum of the `i`-th digits and the carry into them. -/
def digitSum (d s c i : Nat) : Nat := nibble d i + nibble s i + carryInto d s c i

theorem carryInto_succ (d s c i : Nat) : carryInto d s c (i + 1) = if digitSum d s c i > 9 then 1 else 0 := rfl

/-- The digits above the lowest are added like an addition of their own, which starts with the lowest digit's carry. -/
theorem carryInto_succ_eq_div (d s c i : Nat) :
    carryInto d s c (i + 1) = carryInto (d / 16) (s / 16) (carryInto d s c 1) i := by
  induction i with
  | zero => rfl
  | succ i ih => rw [carryInto, ih, nibble_succ, nibble_succ]; rfl

theorem digitSum_succ (d s c i : Nat) :
    digitSum d s c (i + 1) = digitSum (d / 16) (s / 16) (carryInto d s c 1) i := by
  rw [digitSum, nibble_succ, nibble_succ, carryInto_succ_eq_div, digitSum]

/-- The digit that a digit sum leaves. -/
def digitOf (t : Nat) : Nat := (if t > 9 then t - 10 else t) % 16

theorem digitOf_lt (t : Nat) : digitOf t < 16 := Nat.mod_lt _ (by decide)

theorem carryInto_le_one {c : Nat} (hc : c ≤ 1) (d s i : Nat) : carryInto d s c i ≤ 1 := by
  cases i with
  | zero => exact hc
  | succ i => rw [carryInto_succ]; split <;> decide

/-- One round of the loop: the lowest digit, then the digits above with its carry (R210). -/
theorem decimalDigits_succ (n d s c : Nat) :
    decimalDigits (n + 1) d s c =
      (digitOf (digitSum d s c 0) + 16 * (decimalDigits n (d / 16) (s / 16) (carryInto d s c 1)).1,
        (decimalDigits n (d / 16) (s / 16) (carryInto d s c 1)).2) := by
  have hdigit : (if digitSum d s c 0 > 9 then (digitSum d s c 0 - 10) % 16 else digitSum d s c 0) =
      digitOf (digitSum d s c 0) := by
    unfold digitOf
    split <;> omega
  rw [← hdigit]
  simp only [decimalDigits, digitSum, carryInto, nibble_zero]

/-- The last carry of the loop is the carry into the digit past the top (R211). -/
theorem decimalDigits_carry (n d s c : Nat) : (decimalDigits n d s c).2 = carryInto d s c n := by
  induction n generalizing d s c with
  | zero => rfl
  | succ n ih => rw [decimalDigits_succ, ih, ← carryInto_succ_eq_div]

/-- The digits of the loop's result are those that the digit sums leave. -/
theorem nibble_decimalDigits {n i : Nat} (h : i < n) (d s c : Nat) :
    nibble (decimalDigits n d s c).1 i = digitOf (digitSum d s c i) := by
  induction n generalizing d s c i with
  | zero => exact absurd h (Nat.not_lt_zero i)
  | succ n ih =>
    rw [decimalDigits_succ]
    cases i with
    | zero => exact nibble_cons_zero (digitOf_lt _) _
    | succ i => rw [nibble_cons_succ (digitOf_lt _), ih (Nat.lt_of_succ_lt_succ h), digitSum_succ]

theorem decimalDigits_lt (n d s c : Nat) : (decimalDigits n d s c).1 < 16 ^ n := by
  induction n generalizing d s c with
  | zero => exact Nat.one_pos
  | succ n ih =>
    have hrest := ih (d / 16) (s / 16) (carryInto d s c 1)
    have hdigit := digitOf_lt (digitSum d s c 0)
    rw [decimalDigits_succ, Nat.pow_succ']
    dsimp only
    omega

/-- The result of a decimal addition holds all its digits. -/
theorem decimalSum_toNat (wb : Width) (d s : BitVec wb.bits) :
    (decimalSum wb d s).toNat = (decimalDigits (digitCount wb) d.toNat s.toNat 0).1 := by
  rw [decimalSum, BitVec.toNat_ofNat, two_pow_bits_eq, Nat.mod_eq_of_lt (decimalDigits_lt ..)]

end Sys2Proof.Machine
end

section
/-! SUPPORT. DADD: the loop's digits and carries on the registers, and the sum of decimal digits
(42_arithmetic_logic.md R209 to R212). -/

namespace Sys2Proof.Machine

/-- The state DADD answers, for the source operand `b` (R209 to R212). -/
def decimalClass (wb : Width) (dst : Reg) (b : BitVec wb.bits) (s : State) : State :=
  (s.setPsw (flagsDecimal s.psw (decimalCarry wb (s.operand dst wb) b) (decimalSum wb (s.operand dst wb) b))).writeBack
    wb dst (decimalSum wb (s.operand dst wb) b)

theorem exec_dadd (src : Source) (wb : Width) (dst : Reg) (s : State) :
    exec (.dadd src wb dst) s = .next (decimalClass wb dst (lowBits wb (s.decimalSourceWord src)) s) := rfl

/-- DADD writes the decimal sum to its destination, C and Z to the PSW, and nothing else. -/
theorem decimalClass_spec (wb : Width) (dst : Reg) (b : BitVec wb.bits) (s : State) :
    (decimalClass wb dst b s).bank0 =
      s.bank0.set dst (mergeBits wb (s.x dst) (decimalSum wb (s.operand dst wb) b)) ∧
    pswC (decimalClass wb dst b s).psw = decide (carryInto (s.operand dst wb).toNat b.toNat 0 (digitCount wb) = 1) ∧
    pswZ (decimalClass wb dst b s).psw = decide (decimalSum wb (s.operand dst wb) b = 0) ∧
    otherFlagsKept [0, 1] s.psw (decimalClass wb dst b s).psw ∧ onlyRegistersAndPsw s (decimalClass wb dst b s) := by
  obtain ⟨hC, hZ, hkept⟩ := flagsDecimal_spec s.psw (decimalCarry wb (s.operand dst wb) b)
    (decimalSum wb (s.operand dst wb) b)
  have hpsw : (decimalClass wb dst b s).psw =
      flagsDecimal s.psw (decimalCarry wb (s.operand dst wb) b) (decimalSum wb (s.operand dst wb) b) := rfl
  rw [← hpsw] at hC hZ hkept
  refine ⟨rfl, ?_, hZ, by simpa [otherFlagsKept] using hkept, rfl⟩
  rw [hC, decimalCarry, decimalDigits_carry, beq_eq_decide]

/-- Settles O11: the carries of the loop on the two operands, whose digits are those of the registers. -/
theorem decimalAddDigitByDigit : Obligations.DecimalAddDigitByDigit := by
  intro src wb dst s
  let d := s.operand dst wb
  let b := lowBits wb (s.decimalSourceWord src)
  obtain ⟨hbank0, hC, hZ, hkept, hframe⟩ := decimalClass_spec wb dst b s
  obtain ⟨-, hhigh, hother⟩ := writesResult_of_set hbank0
  have hresult := operand_of_set hbank0
  refine ⟨_, carryInto d.toNat b.toNat 0, exec_dadd src wb dst s, ?_⟩
  intro v sum n
  have hv : s.decimalSourceWord src = v := by cases src <;> rfl
  refine ⟨rfl, fun i hi => ?digit, hhigh, hother, hC, by rw [hresult]; exact hZ, hkept, hframe⟩
  have hd : nibble d.toNat i = nibble (s.x dst).toNat i := nibble_lowBits hi _
  have hb : nibble b.toNat i = nibble v.toNat i := hv ▸ nibble_lowBits hi _
  have hsum : digitSum d.toNat b.toNat 0 i = sum i := by rw [digitSum, hd, hb]
  rw [← hsum]
  refine ⟨carryInto_succ .., ?_⟩
  calc nibble ((decimalClass wb dst b s).x dst).toNat i
      = nibble (decimalSum wb d b).toNat i := by rw [← hresult, State.operand, nibble_lowBits hi]
    _ = digitOf (digitSum d.toNat b.toNat 0 i) := by rw [decimalSum_toNat]; exact nibble_decimalDigits hi ..

/-! Decimal digits (R210, R211). -/

theorem decimalValid_succ (n v : Nat) : decimalValid (n + 1) v ↔ v % 16 ≤ 9 ∧ decimalValid n (v / 16) := by
  simp only [decimalValid, Nat.forall_lt_succ_left, nibble_zero, nibble_succ]

/-- `n` decimal digits stand for a number below 10^n. -/
theorem decimalValue_lt {n v : Nat} (h : decimalValid n v) : decimalValue n v < 10 ^ n := by
  induction n generalizing v with
  | zero => exact Nat.one_pos
  | succ n ih =>
    obtain ⟨hdigit, hrest⟩ := (decimalValid_succ n v).mp h
    have hlt := ih hrest
    rw [decimalValue, Nat.pow_succ']
    omega

/-- A digit put below decimal digits. -/
theorem decimalValue_cons {digit : Nat} (h : digit < 16) (n v : Nat) :
    decimalValue (n + 1) (digit + 16 * v) = digit + 10 * decimalValue n v := by
  rw [decimalValue, cons_mod_base h, cons_div_base h]

theorem decimalValid_cons {digit : Nat} (h : digit < 16) (n v : Nat) :
    decimalValid (n + 1) (digit + 16 * v) ↔ digit ≤ 9 ∧ decimalValid n v := by
  rw [decimalValid_succ, cons_mod_base h, cons_div_base h]

/-- The digit that a sum of decimal digits leaves is decimal, and the carry takes what it leaves out. -/
theorem digitOf_decimal {t : Nat} (h : t ≤ 19) : digitOf t ≤ 9 ∧ digitOf t + 10 * (if t > 9 then 1 else 0) = t := by
  unfold digitOf
  split <;> omega

/-- The loop on decimal digits gives decimal digits, which with the last carry stand for the exact sum. -/
theorem decimalDigits_decimal {n d s c : Nat} (hd : decimalValid n d) (hs : decimalValid n s) (hc : c ≤ 1) :
    decimalValid n (decimalDigits n d s c).1 ∧
    decimalValue n (decimalDigits n d s c).1 + 10 ^ n * (decimalDigits n d s c).2 =
      decimalValue n d + decimalValue n s + c := by
  induction n generalizing d s c with
  | zero => exact ⟨fun i hi => absurd hi (Nat.not_lt_zero i), by simp [decimalDigits, decimalValue]⟩
  | succ n ih =>
    obtain ⟨hd0, hdrest⟩ := (decimalValid_succ n d).mp hd
    obtain ⟨hs0, hsrest⟩ := (decimalValid_succ n s).mp hs
    obtain ⟨hvalid, hvalue⟩ := ih hdrest hsrest (carryInto_le_one hc d s 1)
    have ht : digitSum d s c 0 = d % 16 + s % 16 + c := by rw [digitSum, nibble_zero, nibble_zero, carryInto]
    obtain ⟨hdigit, hcarry⟩ := digitOf_decimal (t := digitSum d s c 0) (by omega)
    rw [← carryInto_succ] at hcarry
    rw [decimalDigits_succ]
    generalize decimalDigits n (d / 16) (s / 16) (carryInto d s c 1) = rest at hvalid hvalue
    constructor
    · exact (decimalValid_cons (digitOf_lt _) n rest.1).mpr ⟨hdigit, hvalid⟩
    · rw [decimalValue_cons (digitOf_lt _), decimalValue, decimalValue, Nat.pow_succ']
      linarith

/-- Settles O12: the value of the digits is below 10^n, so the exact sum splits into it and the carry. -/
theorem decimalAddOfDecimalDigits : Obligations.DecimalAddOfDecimalDigits := by
  intro r wb dst s n a b ha hb
  obtain ⟨hbank0, hC, -⟩ := decimalClass_spec wb dst (s.operand r wb) s
  obtain ⟨hvalid, hvalue⟩ := decimalDigits_decimal ha hb (Nat.zero_le 1)
  have hresult : ((decimalClass wb dst (s.operand r wb) s).operand dst wb).toNat = (decimalDigits n a b 0).1 := by
    rw [operand_of_set hbank0, decimalSum_toNat]; rfl
  have hlt := decimalValue_lt hvalid
  have hcarry := carryInto_le_one (Nat.zero_le 1) a b n
  rw [decimalDigits_carry, Nat.add_zero] at hvalue
  refine ⟨decimalClass wb dst (s.operand r wb) s, exec_dadd (.reg r) wb dst s, ?_⟩
  rw [← hresult] at hvalid hvalue hlt
  refine ⟨hvalid, ?sum, hC.trans ?carry⟩
  case sum => rw [← hvalue, Nat.add_mul_mod_self_left, Nat.mod_eq_of_lt hlt]
  case carry =>
    rw [← hvalue, decide_eq_decide]
    change carryInto a b 0 n = 1 ↔ _
    obtain h | h := Nat.le_one_iff_eq_zero_or_eq_one.mp hcarry <;> rw [h] <;> omega

end Sys2Proof.Machine
end

section
/-! SUPPORT. The shifts by one on numbers (43_register_manipulation.md R243, R244). -/

namespace Sys2Proof.Machine

section
variable {n : Nat}

/-- A shift by one halves the unsigned value and puts the entering bit on top. -/
theorem shiftResult_toNat (hn : 0 < n) (top : Bool) (d : BitVec n) :
    ((BitVec.cons top d).extractLsb' 1 n).toNat = d.toNat / 2 + top.toNat * 2 ^ (n - 1) := by
  have hd := d.isLt
  have htop := top.toNat_le
  have hhalf := two_pow_eq_double hn
  have hcons : (BitVec.cons top d).toNat = 2 * (top.toNat * 2 ^ (n - 1)) + d.toNat := by
    rw [BitVec.toNat_cons', Nat.shiftLeft_eq, hhalf, Nat.mul_left_comm]
  have hmul : top.toNat * 2 ^ (n - 1) ≤ 2 ^ (n - 1) := mul_le_of_le_one_left (Nat.zero_le _) htop
  rw [toNat_field, hcons, pow_one, Nat.mul_add_div Nat.two_pos, Nat.mod_eq_of_lt (by omega), Nat.add_comm]

/-- The entering bit is the sign of the result. -/
theorem shiftResult_msb (hn : 0 < n) (top : Bool) (d : BitVec n) :
    ((BitVec.cons top d).extractLsb' 1 n).msb = top := by
  rw [BitVec.msb_eq_getLsbD_last, shiftResult_getLsbD, if_pos (Nat.sub_lt hn Nat.one_pos),
    if_pos (Nat.sub_one_add_one hn.ne')]

/-- A shift by one with the sign entering is the arithmetic shift, which halves toward minus infinity (R243). -/
theorem shiftResult_toInt (hn : 0 < n) (d : BitVec n) :
    ((BitVec.cons d.msb d).extractLsb' 1 n).toInt = d.toInt / 2 := by
  have hhalf := two_pow_eq_double hn
  rw [BitVec.toInt_eq_msb_cond, shiftResult_msb hn, shiftResult_toNat hn, BitVec.toInt_eq_msb_cond, hhalf]
  cases d.msb with
  | false => simp
  | true =>
    simp only [if_true, Bool.toNat_true]
    omega

end

/-- What a shift by one of either kind does but for the value it writes: C, Z, N and what stays. -/
theorem shiftRight_effect (top : Bool) (wb : Width) (dst : Reg) (s : State) :
    (shiftRight top wb dst s).operand dst wb = (BitVec.cons top (s.operand dst wb)).extractLsb' 1 wb.bits ∧
    (∀ q, q ≠ dst → (shiftRight top wb dst s).x q = s.x q) ∧
    (wb = .byte → ((shiftRight top wb dst s).x dst).extractLsb' 8 8 = (s.x dst).extractLsb' 8 8) ∧
    pswC (shiftRight top wb dst s).psw = (s.x dst).getLsbD 0 ∧
    pswZ (shiftRight top wb dst s).psw = decide ((shiftRight top wb dst s).operand dst wb = 0) ∧
    pswN (shiftRight top wb dst s).psw = top ∧ otherFlagsKept [0, 1, 2] s.psw (shiftRight top wb dst s).psw ∧
    onlyRegistersAndPsw s (shiftRight top wb dst s) := by
  obtain ⟨hpsw, hbank0, hframe⟩ := shiftRight_spec top wb dst s
  obtain ⟨hC, hZ, hN, hkept⟩ := flagsShift_spec s.psw ((s.operand dst wb).getLsbD 0)
    ((BitVec.cons top (s.operand dst wb)).extractLsb' 1 wb.bits)
  rw [← hpsw] at hC hZ hN hkept
  obtain ⟨-, hhigh, hother⟩ := writesResult_of_set hbank0
  have hresult := operand_of_set hbank0
  refine ⟨hresult, hother, hhigh, ?carry, ?zero, ?negative, by simpa [otherFlagsKept] using hkept, hframe⟩
  case carry => rw [hC, State.operand, lowBits_getLsbD, decide_eq_true (bits_pos wb), Bool.true_and]
  case zero => rw [hZ, hresult]; rfl
  case negative => rw [hN, shiftResult_msb (bits_pos wb)]

/-- Settles O16: SRA brings the sign in at the top, RRC the old carry. -/
theorem shiftsByOne : Obligations.ShiftsByOne := by
  constructor
  · intro wb dst s
    obtain ⟨hresult, heffect⟩ := shiftRight_effect (s.operand dst wb).msb wb dst s
    exact ⟨_, rfl, by rw [hresult, shiftResult_toInt (bits_pos wb)], heffect⟩
  · intro wb dst s
    obtain ⟨hresult, heffect⟩ := shiftRight_effect (pswC s.psw) wb dst s
    exact ⟨_, rfl, by rw [hresult, shiftResult_toNat (bits_pos wb)]; rfl, heffect⟩

end Sys2Proof.Machine
end

section
/-! SUPPORT. Register initialisation (47_register_init.md R320 to R324). -/

namespace Sys2Proof.Machine

/-- An instruction whose E0 is one write of a register, which is all it does. -/
theorem exec_setX_onlyRegister {i : Instr} {s : State} {r : Reg} {v : Word} (h : exec i s = .next (s.setX r v)) :
    ∃ t, exec i s = .next t ∧ onlyRegister s t r v ∧ t = { s with bank0 := t.bank0 } :=
  ⟨_, h, onlyRegister_of_set rfl, rfl⟩

/-- Settles O19: the four words are the encodings of the four instructions, each of which is one write. -/
theorem registerInitialisation : Obligations.RegisterInitialisation := by
  intro b dst s
  refine ⟨?movl, ?movlz, ?movls, ?movh, ?_, ?_, ?_, ?_⟩
  case movl => exact decode_encode (i := .movl b dst) rfl
  case movlz => exact decode_encode (i := .movlz b dst) rfl
  case movls => exact decode_encode (i := .movls b dst) rfl
  case movh => exact decode_encode (i := .movh b dst) rfl
  all_goals exact exec_setX_onlyRegister rfl

end Sys2Proof.Machine
end

section
/-! SUPPORT. Moves and swaps (43_register_manipulation.md R241, R242, R245, R246). -/

namespace Sys2Proof.Machine

/-- The bytes of a word exchanged (43_register_manipulation.md R245). -/
def swappedBytes (v : Word) : Word := v.extractLsb' 0 8 ++ v.extractLsb' 8 8

/-- The low byte of a word with its sign extended (43_register_manipulation.md R246). -/
def extendedLowByte (v : Word) : Word := (v.extractLsb' 0 8).signExtend 16

theorem exec_swpb (dst : Reg) (s : State) : exec (.swpb dst) s = .next (s.setX dst (swappedBytes (s.x dst))) := rfl

theorem exec_sxt (dst : Reg) (s : State) : exec (.sxt dst) s = .next (s.setX dst (extendedLowByte (s.x dst))) := rfl

theorem swappedBytes_toNat (v : Word) : (swappedBytes v).toNat = v.toNat % 256 * 256 + v.toNat / 256 := by
  have hlow : (v.extractLsb' 0 8).toNat = v.toNat % 256 := by rw [toNat_field, pow_zero, Nat.div_one]; rfl
  rw [swappedBytes, BitVec.toNat_append, ← Nat.shiftLeft_add_eq_or_of_lt (BitVec.isLt _), Nat.shiftLeft_eq, hlow,
    toNat_highByte]

theorem swappedBytes_swappedBytes (v : Word) : swappedBytes (swappedBytes v) = v := by
  have hlt := v.isLt
  apply BitVec.eq_of_toNat_eq
  rw [swappedBytes_toNat, swappedBytes_toNat]
  omega

theorem extendedLowByte_toInt (v : Word) : (extendedLowByte v).toInt = (v.extractLsb' 0 8).toInt :=
  BitVec.toInt_signExtend_of_le (by decide)

/-- Sign extension leaves the byte it extends. -/
theorem extractLsb'_extendedLowByte (v : Word) : (extendedLowByte v).extractLsb' 0 8 = v.extractLsb' 0 8 := by
  refine BitVec.eq_of_getLsbD_eq fun k hk => ?_
  have hword : k < 16 := by omega
  rw [BitVec.getLsbD_extractLsb', extendedLowByte, BitVec.getLsbD_signExtend]
  simp [hk, hword]

theorem extendedLowByte_extendedLowByte (v : Word) : extendedLowByte (extendedLowByte v) = extendedLowByte v :=
  congrArg (BitVec.signExtend 16) (extractLsb'_extendedLowByte v)

/-- Settles O15: each of the four by the registers its E0 writes. -/
theorem movesAndSwaps : Obligations.MovesAndSwaps := by
  refine ⟨fun wb src dst s => ?mov, fun src dst s => ?swap, fun dst s => ?swpb, fun dst s => ?sxt⟩
  case mov => exact ⟨_, rfl, writesResult_of_set rfl, rfl⟩
  case swap =>
    refine ⟨_, rfl, ?dst, State.x_setX_same .., fun q hsrc hdst => ?other, rfl⟩
    case dst =>
      by_cases h : dst = src
      · subst h
        exact State.x_setX_same ..
      · exact (State.x_setX_other _ src dst _ h).trans (State.x_setX_same ..)
    case other => exact (State.x_setX_other _ src q _ hsrc).trans (State.x_setX_other s dst q _ hdst)
  case swpb =>
    obtain ⟨t, ht, ⟨hdst, hother⟩, hframe⟩ := exec_setX_onlyRegister (exec_swpb dst s)
    exact ⟨t, ht, by rw [hdst, swappedBytes_toNat], hother, hframe⟩
  case sxt =>
    obtain ⟨t, ht, ⟨hdst, hother⟩, hframe⟩ := exec_setX_onlyRegister (exec_sxt dst s)
    exact ⟨t, ht, by rw [hdst, extendedLowByte_toInt], hother, hframe⟩

/-- An instruction that replaces a register by a function of it, executed twice, applies the function twice. -/
theorem execTimes_two_of_setX {i : Instr} {dst : Reg} {f : Word → Word}
    (hexec : ∀ s, exec i s = .next (s.setX dst (f (s.x dst)))) (s : State) :
    execTimes i 2 s = .next (s.setX dst (f (f (s.x dst)))) := by
  simp only [execTimes, hexec, andThen_next, State.x_setX_same]
  exact congrArg (fun b => (.next { s with bank0 := b } : Result)) (Bank.set_set ..)

/-- Settles O18: exchanging bytes is an involution, extending a sign idempotent. -/
theorem swapBytesTwiceAndSignExtendTwice : Obligations.SwapBytesTwiceAndSignExtendTwice := by
  constructor
  · intro dst s
    rw [execTimes_two_of_setX (exec_swpb dst), swappedBytes_swappedBytes, State.setX_x]
  · intro dst s
    rw [execTimes_two_of_setX (exec_sxt dst), extendedLowByte_extendedLowByte]
    exact (exec_sxt dst s).symm

end Sys2Proof.Machine
end

section
/-! SUPPORT. RRC as a rotation of the ring of the register and the carry (43_register_manipulation.md R244). -/

namespace Sys2Proof.Machine

variable {wb : Width} {dst : Reg} {s t u : State} {j k : Nat}

/-- The ring of W + 1 bits that RRC rotates: the carry above the operand (43_register_manipulation.md R244). -/
def State.carryRing (s : State) (wb : Width) (dst : Reg) : BitVec (wb.bits + 1) :=
  BitVec.cons (pswC s.psw) (s.operand dst wb)

/-- `t` is `s` with the ring of the register and the carry rotated right by `k`, and but for that at most Z and N
different. -/
structure RingRotated (wb : Width) (dst : Reg) (k : Nat) (s t : State) : Prop where
  ring : ∀ n, n < wb.bits + 1 →
    (t.carryRing wb dst).getLsbD n = (s.carryRing wb dst).getLsbD ((n + k) % (wb.bits + 1))
  bank0 : t.bank0 = s.bank0.set dst (mergeBits wb (s.x dst) (t.operand dst wb))
  flags : otherFlagsKept [0, 1, 2] s.psw t.psw
  frame : onlyRegistersAndPsw s t

theorem State.set_operand (s : State) (wb : Width) (dst : Reg) :
    s.bank0.set dst (mergeBits wb (s.x dst) (s.operand dst wb)) = s.bank0 := by
  rw [State.operand, mergeBits_lowBits]
  exact Bank.set_get s.bank0 dst

theorem RingRotated.zero (wb : Width) (dst : Reg) (s : State) : RingRotated wb dst 0 s s where
  ring _ hn := (congrArg (s.carryRing wb dst).getLsbD (Nat.mod_eq_of_lt hn)).symm
  bank0 := (s.set_operand wb dst).symm
  flags _ _ := rfl
  frame := rfl

theorem RingRotated.trans (h : RingRotated wb dst j s t) (h' : RingRotated wb dst k t u) :
    RingRotated wb dst (k + j) s u where
  ring n hn := by
    rw [h'.ring n hn, h.ring _ (Nat.mod_lt _ (Nat.succ_pos _)), Nat.mod_add_mod, Nat.add_assoc]
  bank0 := by
    rw [h'.bank0, (onlyRegister_of_set h.bank0).1, h.bank0, Bank.set_set, mergeBits_mergeBits]
  flags n hn := (h'.flags n hn).trans (h.flags n hn)
  frame := by
    have ht : t = _ := h.frame
    have hu : u = _ := h'.frame
    rw [ht] at hu
    exact hu

/-- One RRC: every bit of the ring moves down by one, and bit 0 to the top (43_register_manipulation.md R244). -/
theorem RingRotated.rrc (wb : Width) (dst : Reg) (s : State) :
    RingRotated wb dst 1 s (shiftRight (pswC s.psw) wb dst s) := by
  obtain ⟨hoperand, -, -, hcarry, -, -, hflags, hframe⟩ := shiftRight_effect (pswC s.psw) wb dst s
  obtain ⟨-, hbank0, -⟩ := shiftRight_spec (pswC s.psw) wb dst s
  refine ⟨fun n hn => ?_, hoperand ▸ hbank0, hflags, hframe⟩
  rw [State.carryRing, BitVec.getLsbD_cons, hcarry, hoperand]
  obtain h | rfl := Nat.lt_succ_iff_lt_or_eq.mp hn
  · rw [if_neg h.ne, Nat.mod_eq_of_lt (Nat.succ_lt_succ h), BitVec.getLsbD_extractLsb', decide_eq_true h,
      Bool.true_and, Nat.add_comm 1 n]
    rfl
  · rw [if_pos rfl, Nat.mod_self, State.carryRing, BitVec.getLsbD_cons, if_neg (bits_pos wb).ne, State.operand,
      lowBits_getLsbD, decide_eq_true (bits_pos wb), Bool.true_and]

theorem execTimes_rrc (wb : Width) (dst : Reg) (k : Nat) (s : State) :
    ∃ t, execTimes (.rrc wb dst) k s = .next t ∧ RingRotated wb dst k s t := by
  induction k generalizing s with
  | zero => exact ⟨s, rfl, .zero wb dst s⟩
  | succ k ih =>
    obtain ⟨t, ht, hrotated⟩ := ih (shiftRight (pswC s.psw) wb dst s)
    exact ⟨t, ht, (RingRotated.rrc wb dst s).trans hrotated⟩

theorem cons_injective {n : Nat} {b c : Bool} {x y : BitVec n} (h : BitVec.cons b x = BitVec.cons c y) :
    b = c ∧ x = y := by
  have htop := congrArg BitVec.msb h
  have hrest := congrArg (BitVec.setWidth n) h
  exact ⟨by simpa using htop, by simpa using hrest⟩

/-- A whole turn gives the ring back. -/
theorem RingRotated.whole_turn (h : RingRotated wb dst (wb.bits + 1) s t) :
    pswC t.psw = pswC s.psw ∧ t.operand dst wb = s.operand dst wb := by
  have hring : t.carryRing wb dst = s.carryRing wb dst := by
    refine BitVec.eq_of_getLsbD_eq fun n hn => ?_
    rw [h.ring n hn, Nat.add_mod_right, Nat.mod_eq_of_lt hn]
  exact cons_injective hring

/-- Settles O17: W + 1 rotations are a whole turn of the ring. -/
theorem rotateThroughCarryPeriod : Obligations.RotateThroughCarryPeriod := by
  intro wb dst s
  obtain ⟨t, ht, h⟩ := execTimes_rrc wb dst (wb.bits + 1) s
  obtain ⟨hcarry, hoperand⟩ := h.whole_turn
  refine ⟨t, ht, ?_, hcarry, fun n hn => ?_, h.frame⟩
  · rw [h.bank0, hoperand, State.set_operand]
  · cases n with
    | zero => exact hcarry
    | succ n => exact h.flags _ (by simpa using hn)

end Sys2Proof.Machine
end

section
/-! SUPPORT. A write of R7 at E0 by an instruction that is no branch (40_pipeline_step.md R150;
70_reset_and_hazards.md R392). -/

namespace Sys2Proof.Machine

variable {s m : State} {i : Instr}

/-- An instruction that writes R7 at E0 and is no branch squashes no word (70_reset_and_hazards.md R392). -/
theorem exec_writesPcAtE0_decodeBubble (hi : writesPcAtE0 i = true) (hm : exec i s = .next m) :
    m.decodeBubble = s.decodeBubble := by
  cases i with
  | nop | bl | beq | bne | bc | bnc | bn | bge | blt | bra | cmp | bit | setcc | clrcc | cex | ldr | str | invalidFn2
  | invalidFn5 | invalidFn6 | invalidFn7 | invalidSel4 | invalidSel7 | invalidHigh4E | invalidHigh54 =>
    exact Bool.noConfusion hi
  | ld | st =>
    cases hm
    exact State.adjustAddress_decodeBubble ..
  | _ =>
    cases hm
    rfl

/-- Such a write squashes nothing, and the word fetched beside it is decoded next unless it reaches the breakpoint. -/
theorem decodedBeside_of_writesPcAtE0 (hs : undisturbed s) (hclock : s.ctl.clock % 2 = 1)
    (hbubble : s.executeBubble = false) (hsquash : s.decodeBubble = false) (hopen : s.cex.status = .disabled)
    (hi : writesPcAtE0 s.dec = true) :
    ∃ m, exec s.dec s.atExecute = .next m ∧ m.decodeBubble = false ∧
      (m.pc ≠ s.ctl.breakpoint → DecodedBeside s m (afterEven (tickClock m))) := by
  obtain ⟨m, hm, -⟩ := exec_next_frame s.dec s.atExecute
  have hbranch : m.decodeBubble = false := by
    rw [exec_writesPcAtE0_decodeBubble hi hm, State.atExecute_decodeBubble, hsquash]
  exact ⟨m, hm, hbranch, decodedBeside hs ((oddClock_iff s).mpr hclock) hbubble hopen hm hbranch⟩

/-- Settles O41: the word fetched beside the write is the delay slot, beside which F0 fetches at T. -/
theorem writeToPcHasOneDelaySlot : Obligations.WriteToPcHasOneDelaySlot := by
  constructor
  · intro s hs hclock hbubble hsquash hopen hi
    obtain ⟨m, hm, hbranch, hbeside⟩ := decodedBeside_of_writesPcAtE0 hs hclock hbubble hsquash hopen hi
    refine ⟨m, hm, fun hbreak => ?_⟩
    have hu := hbeside hbreak
    generalize afterEven (tickClock m) = u at hu
    obtain ⟨n, hn, -⟩ := exec_next_frame u.dec u.atExecute
    obtain ⟨hin, hrun, -⟩ := hu.undisturbed
    refine ⟨_, u, n, hu.executes, rfl, hbranch, hu.decodes, hu.dec, hu.executeBubble, hu.imar, hu.pc, ?_, ?_, hn,
      step_execute hin hrun hu.odd hu.executeBubble hn⟩
    · rw [State.atExecute_ir, hu.imem, hu.imar]
    · intro h
      rw [State.atExecute_pc u h, hu.pc]
  · intro s src hs hclock hbubble hsquash hopen hnone hdec hbreak
    have hi : writesPcAtE0 s.dec = true := by rw [hdec]; rfl
    obtain ⟨m, hm, -, hbeside⟩ := decodedBeside_of_writesPcAtE0 hs hclock hbubble hsquash hopen hi
    have hpc : m.pc = s.x src := by
      rw [hdec, exec_mov_word, State.atExecute_eq, stageE1_none (afterF1 s) hnone] at hm
      cases hm
      rfl
    rw [← hpc] at hbreak ⊢
    have hu := hbeside hbreak
    exact ⟨_, _, hu.executes, rfl, hu.decodes, hu.dec, hu.executeBubble, hu.imar, hu.pc⟩

end Sys2Proof.Machine
end

section
/-! SUPPORT. SETCC and CLRCC: the word of each mask and the PSW bit by bit (44_status.md R260 to R262). -/

namespace Sys2Proof.Machine

/-! The words. -/

/-- A 5-bit mask, zero-extended, is in the range of the mask operand (R260). -/
theorem maskRange_setWidth (m : BitVec 5) : maskRange (m.setWidth 8) := by
  rw [maskRange, BitVec.toNat_setWidth_of_le (by decide)]
  exact m.isLt

/-- The encoder drops what the zero-extension of the mask added. -/
theorem formatC_setWidth (sel : BitVec 3) (m : BitVec 5) :
    formatC sel (m.setWidth 8) = 0b01001101#8 ++ sel ++ m := by
  rw [formatC, BitVec.extractLsb'_setWidth_of_le (by decide), BitVec.extractLsb'_eq_self]

/-- An instruction of format C whose operand is the mask has a word of its own for each 5-bit mask (R98, R260). -/
theorem decode_maskWord {sel : BitVec 3} {mk : Byte → Instr}
    (hwf : ∀ imm, wellFormed (mk imm) = decide (maskRange imm)) (hencode : ∀ imm, encode (mk imm) = formatC sel imm)
    (m : BitVec 5) : decode (0b01001101#8 ++ sel ++ m) = mk (m.setWidth 8) := by
  have hdecode : decode (encode (mk (m.setWidth 8))) = mk (m.setWidth 8) :=
    decode_encode ((hwf _).trans (decide_eq_true (maskRange_setWidth m)))
  rwa [hencode, formatC_setWidth] at hdecode

/-! The PSW. -/

/-- The mask reaches the PSW by two zero-extensions, which keep each of its bits in place (R261, R262). -/
theorem getLsbD_extendedMask (m : BitVec 5) {n : Nat} (hn : n < 16) :
    ((m.setWidth 8).setWidth 16).getLsbD n = m.getLsbD n := by
  rw [BitVec.setWidth_setWidth (by decide), BitVec.getLsbD_setWidth, decide_eq_true hn, Bool.true_and]

theorem getLsbD_or_extendedMask (p : Word) (m : BitVec 5) {n : Nat} (hn : n < 16) :
    (p ||| (m.setWidth 8).setWidth 16).getLsbD n = (p.getLsbD n || m.getLsbD n) := by
  rw [BitVec.getLsbD_or, getLsbD_extendedMask m hn]

theorem getLsbD_and_not_extendedMask (p : Word) (m : BitVec 5) {n : Nat} (hn : n < 16) :
    (p &&& ~~~((m.setWidth 8).setWidth 16)).getLsbD n = (p.getLsbD n && !m.getLsbD n) := by
  rw [BitVec.getLsbD_and, BitVec.getLsbD_not, getLsbD_extendedMask m hn, decide_eq_true hn, Bool.true_and]

/-- Settles O21: the two words are the encodings of the two instructions, each of which is one write of the PSW. -/
theorem setAndClearFlags : Obligations.SetAndClearFlags := by
  intro m s
  refine ⟨?setcc, ?clrcc, ⟨_, rfl, ?set, rfl⟩, ⟨_, rfl, ?clear, rfl⟩⟩
  case setcc => exact decode_maskWord (sel := 0b101) (fun _ => rfl) (fun _ => rfl) m
  case clrcc => exact decode_maskWord (sel := 0b110) (fun _ => rfl) (fun _ => rfl) m
  case set => exact fun _ hn => getLsbD_or_extendedMask s.psw m hn
  case clear => exact fun _ hn => getLsbD_and_not_extendedMask s.psw m hn

end Sys2Proof.Machine
end

section
/-! SUPPORT. The condition codes: complements, and what each says of the flags a CMP leaves (45_cex.md R272;
42_arithmetic_logic.md R202, R203, R213). -/

namespace Sys2Proof.Machine

section
variable {n : Nat}

/-! The adder of a comparison. -/

/-- Adding the complement and 1 is subtracting (R213). -/
theorem addResult_not_true (d b : BitVec n) : addResult d (~~~b) true = d - b := by
  have hone : (BitVec.ofBool true).setWidth n = 1#n := by
    apply BitVec.eq_of_toNat_eq
    simp
  rw [addResult_eq, hone, BitVec.not_eq_neg_add, BitVec.add_assoc, BitVec.sub_add_cancel, BitVec.sub_eq_add_neg]

/-- A subtraction overflows when the exact signed difference is out of the range of the width. -/
theorem ssubOverflow_eq_decide (d b : BitVec n) :
    d.ssubOverflow b =
      decide (d.toInt - b.toInt < -(2 ^ (n - 1)) ∨ 2 ^ (n - 1) ≤ d.toInt - b.toInt) := by
  rw [BitVec.ssubOverflow, Bool.decide_or, Bool.or_comm]

/-- The overflow column of the table, on the complement of the subtrahend, is the overflow of the difference (R203). -/
theorem overflowTable_sub (hn : 0 < n) (d b : BitVec n) :
    overflowTable (~~~b).msb d.msb (d - b).msb = d.ssubOverflow b := by
  rw [overflowTable_eq, BitVec.ssubOverflow_eq, BitVec.msb_not, decide_eq_true hn]
  cases b.msb <;> cases d.msb <;> simp

/-- The sign of a difference is wrong exactly when it overflows, so sign and overflow agree exactly on "not less". -/
theorem msb_sub_beq_ssubOverflow (d b : BitVec n) :
    ((d - b).msb == d.ssubOverflow b) = decide (b.toInt ≤ d.toInt) := by
  rw [BitVec.msb_eq_toInt]
  by_cases hover : d.ssubOverflow b = true
  · have hwrong : (d - b).toInt < 0 ↔ b.toInt ≤ d.toInt := by
      rw [ssubOverflow_eq_decide, decide_eq_true_eq, BitVec.toInt_sub_toInt_lt_twoPow_iff,
        BitVec.twoPow_le_toInt_sub_toInt_iff, ← BitVec.toInt_sub] at hover
      omega
    rw [hover, beq_true, decide_eq_decide.mpr hwrong]
  · have hright : b.toInt ≤ d.toInt ↔ ¬ (d - b).toInt < 0 := by
      rw [BitVec.toInt_sub_of_not_ssubOverflow hover]
      omega
    rw [Bool.eq_false_iff.mpr hover, beq_false, decide_eq_decide.mpr hright, decide_not]

/-! The flags of a comparison. -/

/-- A PSW whose four flags stand for the difference of `d` and `b` (R202, R203, R213). -/
structure FlagsCompare (p : Word) (d b : BitVec n) : Prop where
  carry : pswC p = decide (b.toNat ≤ d.toNat)
  zero : pswZ p = decide (d = b)
  negative : pswN p = (d - b).msb
  overflow : pswV p = d.ssubOverflow b

/-- CMP leaves the flags of a comparison of its two operands. -/
theorem flagsCompare_cmp (src : Source) (wb : Width) (dst : Reg) (s : State) :
    ∃ t, exec (.cmp src wb dst) s = .next t ∧ FlagsCompare t.psw (s.operand dst wb) (s.source src wb) := by
  let d := s.operand dst wb
  let b := s.source src wb
  obtain ⟨hpsw, -, -⟩ := addClass_spec false wb dst (~~~b) true s
  obtain ⟨hC, hV, hZ, hN, -⟩ := flagsAdd_spec s.psw (~~~b) d (addResult d (~~~b) true)
  refine ⟨addClass false wb dst (~~~b) true s, rfl, ?_⟩
  rw [hpsw]
  constructor
  case carry =>
    rw [hC, carryTable_addResult (bits_pos wb)]
    exact decide_eq_decide.mpr (two_pow_le_add_not_add_one_iff d b)
  case zero =>
    rw [hZ, addResult_not_true, beq_eq_decide]
    exact decide_eq_decide.mpr sub_eq_zero
  case negative => rw [hN, addResult_not_true]
  case overflow => rw [hV, addResult_not_true, overflowTable_sub (bits_pos wb)]

/-! The composite conditions with an even code on the flags of a comparison. -/

variable {p : Word} {d b : BitVec n}

theorem FlagsCompare.hi (h : FlagsCompare p d b) : condHolds .hi p = decide (b.toNat < d.toNat) := by
  have hlt : b.toNat < d.toNat ↔ b.toNat ≤ d.toNat ∧ ¬ d = b := by
    rw [← BitVec.toNat_inj]
    omega
  rw [condHolds, h.carry, h.zero, decide_eq_decide.mpr hlt, Bool.decide_and, decide_not]

theorem FlagsCompare.ge (h : FlagsCompare p d b) : condHolds .ge p = decide (b.toInt ≤ d.toInt) := by
  rw [condHolds, h.negative, h.overflow, msb_sub_beq_ssubOverflow]

theorem FlagsCompare.gt (h : FlagsCompare p d b) : condHolds .gt p = decide (b.toInt < d.toInt) := by
  have hlt : b.toInt < d.toInt ↔ ¬ d = b ∧ b.toInt ≤ d.toInt := by
    rw [← BitVec.toInt_inj]
    omega
  rw [condHolds, h.zero, h.negative, h.overflow, msb_sub_beq_ssubOverflow, decide_eq_decide.mpr hlt, Bool.decide_and,
    decide_not]

end

/-! Complements. -/

/-- The code of the complement differs in its lowest bit: each pair of codes, the composite ones by De Morgan (R272). -/
theorem condHolds_complement (p : Word) :
    condHolds .ne p = !condHolds .eq p ∧ condHolds .cc p = !condHolds .cs p ∧ condHolds .pl p = !condHolds .mi p ∧
    condHolds .vc p = !condHolds .vs p ∧ condHolds .ls p = !condHolds .hi p ∧ condHolds .lt p = !condHolds .ge p ∧
    condHolds .le p = !condHolds .gt p ∧ condHolds .fl p = !condHolds .tr p := by
  refine ⟨rfl, rfl, rfl, rfl, ?ls, rfl, ?le, rfl⟩
  case ls => simp [condHolds]
  case le => simp [condHolds, bne]

/-- The complement of a condition says the opposite. -/
theorem eq_decide_of_complement {even odd : Bool} {P Q : Prop} [Decidable P] [Decidable Q] (hodd : odd = !even)
    (heven : even = decide P) (hQ : Q ↔ ¬ P) : odd = decide Q := by
  rw [hodd, heven, decide_eq_decide.mpr hQ, decide_not]

/-- Settles O23: CMP leaves the flags of a comparison, and an odd code is the complement of the even one before it. -/
theorem conditionCodes : Obligations.ConditionCodes := by
  refine ⟨fun _ => rfl, ?complements, ?afterCmp⟩
  case complements =>
    intro p k hk
    obtain ⟨hne, hcc, hpl, hvc, hls, hlt, hle, hfl⟩ := condHolds_complement p
    match k with
    | 0 => exact hne
    | 1 => exact hcc
    | 2 => exact hpl
    | 3 => exact hvc
    | 4 => exact hls
    | 5 => exact hlt
    | 6 => exact hle
    | 7 => exact hfl
    | _ + 8 => omega
  case afterCmp =>
    intro src wb dst s
    obtain ⟨t, ht, h⟩ := flagsCompare_cmp src wb dst s
    refine ⟨t, ht, ?_⟩
    intro d b difference
    obtain ⟨hne, hcc, hpl, hvc, hls, hlt, hle, -⟩ := condHolds_complement t.psw
    have hV : condHolds .vs t.psw = decide (difference < -(2 ^ (wb.bits - 1)) ∨ 2 ^ (wb.bits - 1) ≤ difference) :=
      h.overflow.trans (ssubOverflow_eq_decide d b)
    refine ⟨h.zero, ?ne, h.carry, ?cc, h.negative, ?pl, hV, ?vc, h.hi, ?ls, h.ge, ?lt, h.gt, ?le, rfl, rfl⟩
    case ne => exact eq_decide_of_complement hne h.zero Iff.rfl
    case cc => exact eq_decide_of_complement hcc h.carry Nat.not_le.symm
    case pl => exact hpl.trans (congrArg _ h.negative)
    case vc => exact eq_decide_of_complement hvc hV (by rw [not_or, Int.not_lt, Int.not_le])
    case ls => exact eq_decide_of_complement hls h.hi Nat.not_lt.symm
    case lt => exact eq_decide_of_complement hlt h.ge Int.not_le.symm
    case le => exact eq_decide_of_complement hle h.gt Int.not_lt.symm

end Sys2Proof.Machine
end

section
/-! SUPPORT. A window by its predicate and the counts it has left, which number the words it still gates
(45_cex.md R270, R271, R273), and the instructions without an E0 (48_nop_invalid.md R330, R331; 45_cex.md R274). -/

namespace Sys2Proof.Machine

/-- The status of an open window, by the predicate CEX met (R271). -/
def openStatus (holds : Bool) : CexStatus := if holds then .predicateTrue else .predicateFalse

/-- The window of a predicate `holds` with `t` words left in the first arm and `f` in the second. -/
def windowLeft (cond : Cond) (holds : Bool) (t f : Nat) : CexState :=
  { cc := cond
    status := if t + f = 0 then .disabled else openStatus holds
    tc := BitVec.ofNat 4 t
    fc := BitVec.ofNat 4 f }

/-- What happens to a word of the first arm under the predicate; to one of the second under its negation (R273). -/
def armAct (holds : Bool) : Act := if holds then .run else .skip

section
variable (cond : Cond) (holds : Bool)

/-- The window a CEX opens has all its words left (R271). -/
theorem openWindow_eq_windowLeft (tc fc : BitVec 3) (psw : Word) :
    openWindow cond tc fc psw = windowLeft cond (condHolds cond psw) tc.toNat fc.toNat := by
  rw [openWindow_eq, windowLeft, BitVec.ofNat_toNat, BitVec.ofNat_toNat, openStatus]

/-- A window that has words left is open. -/
theorem windowLeft_eq_open {t f : Nat} (h : t + f ≠ 0) :
    windowLeft cond holds t f = ⟨cond, openStatus holds, BitVec.ofNat 4 t, BitVec.ofNat 4 f⟩ := by
  rw [windowLeft, if_neg h]

theorem openStatus_ne_disabled : openStatus holds ≠ .disabled := by cases holds <;> decide

/-! One word. -/

theorem ofNat_four_eq_zero_iff {k : Nat} (hk : k < 16) : BitVec.ofNat 4 k = 0 ↔ k = 0 := by
  rw [← BitVec.toNat_inj, BitVec.toNat_ofNat, Nat.mod_eq_of_lt hk]
  rfl

theorem ofNat_succ_sub_one (k : Nat) : BitVec.ofNat 4 (k + 1) - 1 = BitVec.ofNat 4 k := by
  rw [BitVec.ofNat_add]
  exact BitVec.add_sub_cancel _ _

/-- The act on a word of an open window, by whether a true count is left (R273). -/
theorem windowAct_open (tc fc : BitVec 4) :
    windowAct ⟨cond, openStatus holds, tc, fc⟩ = armAct (if tc = 0 then !holds else holds) := by
  cases holds <;> by_cases h : tc = 0 <;> simp [windowAct, openStatus, armAct, h]

/-- Once a count is used up, the window closes if no count is left (R273). -/
theorem windowNext_of_useCount {cond : Cond} {holds : Bool} {c : CexState} {t f : Nat} (ht : t < 16) (hf : f < 16)
    (h : useCount c = ⟨cond, openStatus holds, BitVec.ofNat 4 t, BitVec.ofNat 4 f⟩) :
    windowNext c = windowLeft cond holds t f := by
  have hzero : (BitVec.ofNat 4 t = 0 ∧ BitVec.ofNat 4 f = 0) ↔ t + f = 0 := by
    rw [ofNat_four_eq_zero_iff ht, ofNat_four_eq_zero_iff hf, Nat.add_eq_zero_iff]
  simp only [windowNext, h, hzero, windowLeft]
  split <;> rfl

/-- A word in the first arm uses up a true count (R273). -/
theorem windowStep_first {t f : Nat} (ht : t + 1 < 16) (hf : f < 16) :
    windowStep (windowLeft cond holds (t + 1) f) = (armAct holds, windowLeft cond holds t f) := by
  have htc : BitVec.ofNat 4 (t + 1) ≠ 0 := (ofNat_four_eq_zero_iff ht).not.mpr t.succ_ne_zero
  rw [windowLeft_eq_open cond holds (by omega), windowStep, windowAct_open, if_neg htc]
  refine congrArg _ (windowNext_of_useCount (by omega) hf ?_)
  rw [useCount, if_neg htc, ofNat_succ_sub_one]

/-- A word in the second arm uses up a false count (R273). -/
theorem windowStep_second {f : Nat} (hf : f + 1 < 16) :
    windowStep (windowLeft cond holds 0 (f + 1)) = (armAct !holds, windowLeft cond holds 0 f) := by
  have htc : BitVec.ofNat 4 0 = 0 := rfl
  rw [windowLeft_eq_open cond holds (by omega), windowStep, windowAct_open, if_pos htc]
  refine congrArg _ (windowNext_of_useCount (by decide) (by omega) ?_)
  rw [useCount, if_pos htc, ofNat_succ_sub_one]

/-! A run of words. -/

theorem windowRun_succ {c d : CexState} {act : Act} (h : windowStep c = (act, d)) (n : Nat) :
    windowRun (n + 1) c = (act :: (windowRun n d).1, (windowRun n d).2) := by
  rw [windowRun, h]

/-- The words left of a window are gated arm by arm. -/
theorem windowRun_acts {t f : Nat} (ht : t < 16) (hf : f < 16) :
    (windowRun (t + f) (windowLeft cond holds t f)).1 =
      List.replicate t (armAct holds) ++ List.replicate f (armAct !holds) := by
  induction t with
  | zero =>
    rw [Nat.zero_add, List.replicate_zero, List.nil_append]
    induction f with
    | zero => rfl
    | succ f ih =>
      rw [windowRun_succ (windowStep_second cond holds hf), ih (by omega), List.replicate_succ]
  | succ t ih =>
    rw [Nat.add_right_comm, windowRun_succ (windowStep_first cond holds ht hf), ih (by omega), List.replicate_succ,
      List.cons_append]

/-- The first `n` words are taken from the first arm, and from the second once the first is used up. -/
theorem windowRun_left {n t f : Nat} (ht : t < 16) (hf : f < 16) (hn : n ≤ t + f) :
    (windowRun n (windowLeft cond holds t f)).2 = windowLeft cond holds (t - n) (f - (n - t)) := by
  induction n generalizing t f with
  | zero => rw [Nat.zero_sub]; rfl
  | succ n ih =>
    match t, f with
    | 0, 0 => omega
    | 0, f + 1 =>
      rw [windowRun_succ (windowStep_second cond holds hf), ih ht (by omega) (by omega)]
      congr 1 <;> omega
    | t + 1, f =>
      rw [windowRun_succ (windowStep_first cond holds ht hf), ih (by omega) hf (by omega)]
      congr 1 <;> omega

end

/-! The statements. -/

/-- Settles O24: the window of a CEX has all its words left, is open while it has some left, and gates them arm by
arm. -/
theorem windowGatesBothArms : Obligations.WindowGatesBothArms := by
  intro cond tc fc psw w t f
  have hw : w = windowLeft cond (condHolds cond psw) t f := openWindow_eq_windowLeft cond tc fc psw
  have ht : t < 16 := Nat.lt_trans tc.isLt (by decide)
  have hf : f < 16 := Nat.lt_trans fc.isLt (by decide)
  rw [hw]
  refine ⟨?acts, ?opened, ?closed⟩
  case acts =>
    rw [windowRun_acts cond _ ht hf]
    cases condHolds cond psw <;> rfl
  case opened =>
    intro n hn
    rw [windowRun_left cond _ ht hf hn.le, windowLeft_eq_open cond _ (by omega)]
    exact openStatus_ne_disabled _
  case closed =>
    rw [windowRun_left cond _ ht hf le_rfl, Nat.sub_self_add, Nat.add_sub_cancel_left, Nat.sub_self]
    rfl

/-- Settles O25: the words left of the window with counts 2 and 1, one step at a time. -/
theorem windowOfTwoAndOne : Obligations.WindowOfTwoAndOne := by
  intro cond psw
  have hopen : openWindow cond 2 1 psw = windowLeft cond (condHolds cond psw) 2 1 := openWindow_eq_windowLeft ..
  have hfirst (holds : Bool) := windowStep_first cond holds (t := 1) (f := 1) (by decide) (by decide)
  have hsecond (holds : Bool) := windowStep_first cond holds (t := 0) (f := 1) (by decide) (by decide)
  have hthird (holds : Bool) := windowStep_second cond holds (f := 0) (by decide)
  refine ⟨fun hholds => ?underTrue, fun hholds => ?underFalse⟩
  case underTrue =>
    rw [hopen, hholds]
    exact ⟨rfl, hfirst true, hsecond true, hthird true⟩
  case underFalse =>
    rw [hopen, hholds]
    exact ⟨hfirst false, hsecond false, hthird false⟩

/-! The instructions without an E0. -/

/-- Settles O22: the arm of `exec` of each answers the state it met. -/
theorem noEffectAtExecute : Obligations.NoEffectAtExecute :=
  fun _ => ⟨rfl, fun _ _ _ => rfl, rfl, rfl, rfl, rfl, rfl, rfl, rfl, rfl⟩

end Sys2Proof.Machine
end

section
/-! SUPPORT. E0 of the loads and stores: the adjusted address register, the sampled data and the posted request
(46_load_store.md R291 to R295); the statements about E0. -/

namespace Sys2Proof.Machine

/-- The adjustment on words is that in bytes, wrapped to 16 bits (R292). -/
theorem addressAdjust_eq_ofInt (dec inc : Bool) (wb : Width) :
    addressAdjust dec inc wb = BitVec.ofInt 16 (adjustment dec inc wb) := by
  match dec, inc with
  | false, true | true, false => cases wb <;> rfl
  | false, false | true, true => rfl

/-- The update of an address register is one write in every form, of the value it has where the form does not adjust it
(R292). -/
theorem adjustAddress_eq_setX (s : State) (ra : Reg) (dec inc : Bool) (wb : Width) :
    s.adjustAddress ra dec inc wb = s.setX ra (s.x ra + BitVec.ofInt 16 (adjustment dec inc wb)) := by
  rw [adjustAddress_eq, addressAdjust_eq_ofInt, State.setX]

theorem indexedAddress_eq_ite (prpo dec inc : Bool) (wb : Width) (a : Word) :
    indexedAddress prpo dec inc wb a = if prpo then a + BitVec.ofInt 16 (adjustment dec inc wb) else a := by
  rw [indexedAddress, addressAdjust_eq_ofInt]

theorem readTag_eq_ite (wb : Width) : readTag wb = if wb = .byte then .rdB else .rdW := by cases wb <;> rfl

theorem writeTag_eq_ite (wb : Width) : writeTag wb = if wb = .byte then .wrB else .wrW := by cases wb <;> rfl

/-- The data of a store are the word, or its low byte zero-extended (R295). -/
theorem State.postWrite_dmbr_toNat (s : State) (wb : Width) (ea v : Word) :
    (s.postWrite wb ea v).dmbr.toNat = if wb = .byte then v.toNat % 256 else v.toNat := by
  cases wb with
  | word => rfl
  | byte =>
    have hlow : (v.extractLsb' 0 8).toNat = v.toNat % 256 := BitVec.extractLsb'_toNat 0 8 v
    exact (BitVec.toNat_setWidth_of_le (by decide)).trans hlow

theorem exec_ld (prpo dec inc : Bool) (wb : Width) (src dst : Reg) (s : State) :
    exec (.ld prpo dec inc wb src dst) s =
      .next ((s.adjustAddress src dec inc wb).postRead wb (indexedAddress prpo dec inc wb (s.x src)) dst) := rfl

theorem exec_st (prpo dec inc : Bool) (wb : Width) (src dst : Reg) (s : State) :
    exec (.st prpo dec inc wb src dst) s =
      .next ((s.adjustAddress dst dec inc wb).postWrite wb (indexedAddress prpo dec inc wb (s.x dst)) (s.x src)) := rfl

/-- Settles O29: LD writes its address register and posts a read, LDR posts a read only. -/
theorem loadsPostTheirRequest : Obligations.LoadsPostTheirRequest := by
  constructor
  · intro prpo dec inc wb src dst s
    refine ⟨_, exec_ld prpo dec inc wb src dst s, ?_⟩
    rw [adjustAddress_eq_setX, indexedAddress_eq_ite]
    exact ⟨onlyRegister_of_set rfl, rfl, (State.postRead_dctrl_eq ..).trans (readTag_eq_ite wb), rfl, rfl⟩
  · intro off wb src dst s
    rw [← readTag_eq_ite, ← s.postRead_dctrl_eq wb (s.x src + off) dst]
    rfl

/-- Settles O30: the data are read from the state before the address register is written. -/
theorem storesPostTheirRequest : Obligations.StoresPostTheirRequest := by
  constructor
  · intro prpo dec inc wb src dst s
    refine ⟨_, exec_st prpo dec inc wb src dst s, ?_⟩
    rw [adjustAddress_eq_setX, indexedAddress_eq_ite]
    exact ⟨onlyRegister_of_set rfl, rfl, State.postWrite_dmbr_toNat ..,
      (State.postWrite_dctrl_eq ..).trans (writeTag_eq_ite wb), rfl⟩
  · intro off wb src dst s
    exact ⟨s.postWrite wb (s.relativeAddress dst off) (s.x src), rfl, rfl, State.postWrite_dmbr_toNat ..,
      (State.postWrite_dctrl_eq ..).trans (writeTag_eq_ite wb), rfl⟩

end Sys2Proof.Machine
end

section
/-! SUPPORT. A word loaded in two bytes (47_register_init.md R325). -/

namespace Sys2Proof.Machine

theorem State.setX_setX (s : State) (r : Reg) (v w : Word) : (s.setX r v).setX r w = s.setX r w :=
  congrArg (fun b => { s with bank0 := b }) (Bank.set_set ..)

theorem exec_movh (b : Byte) (dst : Reg) (s : State) :
    exec (.movh b dst) s = .next (s.setX dst (b ++ (s.x dst).extractLsb' 0 8)) := rfl

/-- MOVH of the high byte after any write of a word with the low byte: only the low byte of what stood in the register
is left, so its high byte does not matter (R325). -/
theorem movh_completes_lowByte {i : Instr} {d : Reg} {s : State} {high : Byte} {v : Word}
    (hexec : exec i s = .next (s.setX d (high ++ v.extractLsb' 0 8))) :
    andThen (exec i s) (exec (.movh (v.extractLsb' 8 8) d)) = .next (s.setX d v) := by
  have hbytes : v.extractLsb' 8 8 ++ v.extractLsb' 0 8 = v :=
    (extractLsb'_append_fields v 0 8 8).trans BitVec.extractLsb'_eq_self
  rw [hexec, andThen_next, exec_movh, State.x_setX_same, extractLsb'_append_low, hbytes, State.setX_setX]

/-- Settles O20: the three moves differ only in the high byte they leave, which MOVH replaces. That `d` is not R7 is not
used: F0, which would advance R7, does not run between two bare executions. -/
theorem twoBytesLoadAnyWord : Obligations.TwoBytesLoadAnyWord := by
  intro v d s _ low hlow
  simp only [List.mem_cons, List.not_mem_nil, or_false] at hlow
  obtain rfl | rfl | rfl := hlow
  case inl => exact movh_completes_lowByte (high := 0x00) rfl
  case inr.inl => exact movh_completes_lowByte (high := (s.x d).extractLsb' 8 8) rfl
  case inr.inr => exact movh_completes_lowByte (high := 0xFF) rfl

end Sys2Proof.Machine
end

section
/-! SUPPORT. What no half-cycle writes, and what `rst` writes (70_reset_and_hazards.md R380, R399). -/

namespace Sys2Proof.Machine

theorem step_rst {s : State} {rest : List Input} (h : s.inputs = .rst :: rest) :
    step s = .next ({ s with inputs := rest } : State).resetBlock :=
  step_input s .rst rest h

/-- M writes the data bank only, F1 reads the instruction bank, and no other stage touches either (20_memory.md R62). -/
theorem tick_imem {s t : State} (h : tick .truncate s = .next t) : t.imem = s.imem := by
  rcases tick_cases h with ⟨_, rfl⟩ | ⟨_, _, rfl⟩ | ⟨_, _, v, hv, rfl⟩
  · rfl
  · rw [endChecks_imem, tickClock_imem, stageD0_imem, stageF0_imem, afterM_imem]
  · obtain ⟨himem, -⟩ := oddStages_kept hv
    rw [endChecks_imem, tickClock_imem, himem]

/-- Settles O50: without a host event a step is a tick. -/
theorem coreNeverWritesInstructionBank : Obligations.CoreNeverWritesInstructionBank := by
  intro s t hinputs hstep
  rw [step_eq_tick hinputs] at hstep
  have himem := tick_imem hstep
  exact himem

/-- Settles O49: the reset block keeps the two banks and the events still to come. -/
theorem resetInputRestoresReset : Obligations.ResetInputRestoresReset := by
  intro s rest hinputs
  rw [step_rst hinputs, State.resetBlock]

end Sys2Proof.Machine
end
